-- ==== Sys2Proof/Word.lean ====
section
/-!
DEFINITION. The word types of LXR-CORE: 64-bit unsigned words (accumulators, lanes, CSRs; R8, R11) and bytes (R11).
-/
namespace Sys2Proof

/-- A 64-bit value: an unsigned integer modulo 2^64 (R11). -/
abbrev Word := BitVec 64

/-- A byte, an unsigned value 0 to 255 (R11). -/
abbrev Byte := BitVec 8

/-- A command word or a dispatch word: both are 32 bits (R90). -/
abbrev CmdWord := BitVec 32

/-- The 32 bytes of a 256-bit digest, byte 0 first (R7, R65). -/
abbrev Digest := Vector Byte 32

end Sys2Proof
end

