-- ==== Sys2Proof/Syntax.lean ====
section
/-!
DEFINITION. The instructions of LXR-CORE: the five command words the host writes to CMD (R92) and the seven dispatched
operations the sequencer hands to the datapath (R101). One constructor per row of spec/opcode_table.json.
-/
namespace Sys2Proof

/-- A decoded word. Operands are the unsigned field values, used as written (R94, R100). -/
inductive Instr where
  /-- `NOP` (R121). -/
  | nop
  /-- `CFGLOCK` (R123). -/
  | cfglock
  /-- `SRST` (R127). -/
  | srst
  /-- `HASH slot` (R170). -/
  | hash (slot : Nat)
  /-- `BATCH count` (R180). -/
  | batch (count : Nat)
  /-- `INIT m` (R141). -/
  | init (m : Nat)
  /-- `PREP m` (R142). -/
  | prep (m : Nat)
  /-- `FOLD4 m` (R143). -/
  | fold4 (m : Nat)
  /-- `STEP m, lane, pos` (R152). -/
  | step (m lane pos : Nat)
  /-- `FIN1 m` (R191). -/
  | fin1 (m : Nat)
  /-- `FIN2 m` (R192). -/
  | fin2 (m : Nat)
  /-- `END` (R193). -/
  | endRun
  deriving DecidableEq, Repr

/-- The two kinds of word (R90). -/
inductive WordKind where
  /-- a command word, written by the host to `CMD` -/
  | command
  /-- a dispatch word, produced by the sequencer -/
  | dispatch
  deriving DecidableEq, Repr

/-- Which kind of word spells the instruction (R90, R92, R101). -/
def Instr.kind : Instr → WordKind
  | .nop => .command
  | .cfglock => .command
  | .srst => .command
  | .hash _ => .command
  | .batch _ => .command
  | .init _ => .dispatch
  | .prep _ => .dispatch
  | .fold4 _ => .dispatch
  | .step _ _ _ => .dispatch
  | .fin1 _ => .dispatch
  | .fin2 _ => .dispatch
  | .endRun => .dispatch

end Sys2Proof
end

