-- ==== Sys2Proof/WellFormed.lean ====
section
/-!
DEFINITION. Which terms of Instr a word can spell: every operand fits its field (R91, R92, R94, R100).
-/
namespace Sys2Proof

/-- Every operand is a value its field can hold: `slot` and `M` are 8 bits, `count` 16, `LANE` and `POS` 5 (R92, R100). -/
def Instr.wellFormed : Instr → Bool
  | .nop => true
  | .cfglock => true
  | .srst => true
  | .hash slot => decide (slot < 256)
  | .batch count => decide (count < 65536)
  | .init m => decide (m < 256)
  | .prep m => decide (m < 256)
  | .fold4 m => decide (m < 256)
  | .step m lane pos => decide (m < 256) && decide (lane < 32) && decide (pos < 32)
  | .fin1 m => decide (m < 256)
  | .fin2 m => decide (m < 256)
  | .endRun => true

end Sys2Proof
end

