-- ==== Sys2Proof/Decode.lean ====
section
/-!
DEFINITION. The two decoders (R92, R93, R95 for command words; R101, R102 for dispatch words), total and rejecting by name,
and the encoder written from the same tables (R91, R92, R100, R101).
-/
namespace Sys2Proof

/-- Why a word spells no instruction. -/
inductive DecodeError where
  /-- a command word that matches no row of R92 (R95); the block refuses it with `ILLCMD` -/
  | illegalCommand (w : CmdWord)
  /-- a dispatch word outside the table of R101 (R102); the sequencer never produces one -/
  | outsideDispatchTable (w : CmdWord)
  deriving DecidableEq, Repr

/-- A word selects a row exactly when `(w & mask) = match` (R92, R101). -/
def selects (mask pattern w : CmdWord) : Bool := (w &&& mask) == pattern

/-- The field of `len` bits whose lowest bit is bit `lo`, as an unsigned number (R11). -/
def field (w : CmdWord) (lo len : Nat) : Nat := (w.extractLsb' lo len).toNat

/-- The decoder of command words: the five rows of R92; every other word is illegal (R95). -/
def decodeCommand (w : CmdWord) : Except DecodeError Instr :=
  if selects 0xFFFFFFFF 0x00000000 w then .ok .nop
  else if selects 0xFFFFFFFF 0x01000000 w then .ok .cfglock
  else if selects 0xFFFFFFFF 0x02000000 w then .ok .srst
  else if selects 0xFFFFFF00 0x10000000 w then .ok (.hash (field w 0 8))
  else if selects 0xFFFF0000 0x11000000 w then .ok (.batch (field w 0 16))
  else .error (.illegalCommand w)

/-- The decoder of dispatch words: the seven rows of R101; every other word is outside the table (R102). -/
def decodeDispatch (w : CmdWord) : Except DecodeError Instr :=
  if selects 0xF00FFFFF 0x10000000 w then .ok (.init (field w 20 8))
  else if selects 0xF00FFFFF 0x20000000 w then .ok (.prep (field w 20 8))
  else if selects 0xF00FFFFF 0x30000000 w then .ok (.fold4 (field w 20 8))
  else if selects 0xF00FE0E0 0x40000000 w then .ok (.step (field w 20 8) (field w 0 5) (field w 8 5))
  else if selects 0xF00FFFFF 0x50000000 w then .ok (.fin1 (field w 20 8))
  else if selects 0xF00FFFFF 0x60000000 w then .ok (.fin2 (field w 20 8))
  else if selects 0xFFFFFFFF 0xF0000000 w then .ok .endRun
  else .error (.outsideDispatchTable w)

/-- The decoder that serves a word of the given kind (R90). -/
def decode : WordKind → CmdWord → Except DecodeError Instr
  | .command, w => decodeCommand w
  | .dispatch, w => decodeDispatch w

/-- Format C: `OPC` in bits 31:24, `RSV` 0, `ARG` in bits 15:0 (R91). -/
def formatC (opc arg : Nat) : CmdWord := (BitVec.ofNat 32 opc <<< 24) ||| BitVec.ofNat 32 arg

/-- Format U: `(UOP << 28) | (M << 20) | (POS << 8) | LANE` (R100, R101). -/
def formatU (uop m pos lane : Nat) : CmdWord :=
  (BitVec.ofNat 32 uop <<< 28) ||| (BitVec.ofNat 32 m <<< 20) ||| (BitVec.ofNat 32 pos <<< 8) ||| BitVec.ofNat 32 lane

/-- The word of a well-formed instruction (R92, R101). -/
def encode : Instr → CmdWord
  | .nop => formatC 0x00 0
  | .cfglock => formatC 0x01 0
  | .srst => formatC 0x02 0
  | .hash slot => formatC 0x10 slot
  | .batch count => formatC 0x11 count
  | .init m => formatU 0x1 m 0 0
  | .prep m => formatU 0x2 m 0 0
  | .fold4 m => formatU 0x3 m 0 0
  | .step m lane pos => formatU 0x4 m pos lane
  | .fin1 m => formatU 0x5 m 0 0
  | .fin2 m => formatU 0x6 m 0 0
  | .endRun => formatU 0xF 0 0 0

/-- The row (mask, match) of the opcode table that an instruction belongs to (R92, R101). -/
def tableRow : Instr → CmdWord × CmdWord
  | .nop => (0xFFFFFFFF, 0x00000000)
  | .cfglock => (0xFFFFFFFF, 0x01000000)
  | .srst => (0xFFFFFFFF, 0x02000000)
  | .hash _ => (0xFFFFFF00, 0x10000000)
  | .batch _ => (0xFFFF0000, 0x11000000)
  | .init _ => (0xF00FFFFF, 0x10000000)
  | .prep _ => (0xF00FFFFF, 0x20000000)
  | .fold4 _ => (0xF00FFFFF, 0x30000000)
  | .step _ _ _ => (0xF00FE0E0, 0x40000000)
  | .fin1 _ => (0xF00FFFFF, 0x50000000)
  | .fin2 _ => (0xF00FFFFF, 0x60000000)
  | .endRun => (0xFFFFFFFF, 0xF0000000)

/-- The instruction a table word spells. Every row has one 32-bit word, so `nbits` is 32.
DESIGN CHOICE, safe (log 11): the bits alone do not say which kind of word they are; a word that both tables hold
(0x10000000 is `HASH 0` and `INIT 0`; 0x11000000 is `BATCH 0` and `INIT 16`) is read as the command. The machine itself
never faces the question: a value written to CMD goes to `decodeCommand`, the sequencer's word to `decodeDispatch`. -/
def decodeTableWord (nbits w : Nat) : Option Instr :=
  if nbits = 32 ∧ w < 2 ^ 32 then
    match decodeCommand (BitVec.ofNat 32 w) with
    | .ok i => some i
    | .error _ =>
      match decodeDispatch (BitVec.ofNat 32 w) with
      | .ok i => some i
      | .error _ => none
  else none

end Sys2Proof
end

