-- ==== Sys2Proof/Config.lean ====
section
/-!
DEFINITION. What an implementation fixes (R8, R9) and the values the spec leaves open (R7, R45), the latter as constants
with no body, so that no proof can rest on what they are.
-/
namespace Sys2Proof

/-- `LANES_MAX`: lanes per member slot (R9). -/
def Config.lanesMax : Nat := 32

/-- `N`: bytes of the preprocessed source (R8). -/
def Config.sourceLen : Nat := 32

/-- `ROUNDS`: table lookups per STEP (R8). -/
def Config.rounds : Nat := 9

/-- `MIXPASSES`: sweeps of the mixing step over the source (R8). -/
def Config.mixPasses : Nat := 3

/-- DESIGN CHOICE, unsafe for statements about `State.reset` alone (log 1): `NSLOTS` of the instance that `State.reset`
describes, the instance of `95_test_vectors.md` section 0. The spec leaves it open (R9); a statement about every state
holds for every number of slots. -/
def Config.resetSlots : Nat := 4

/-- DESIGN CHOICE, unsafe for statements about `State.reset` alone (log 1): `MAPBITS_MAX` of the same instance (R9). -/
def Config.resetMapBitsMax : Fin 64 := 30

/-- The external 256-bit digest function `D` (R7, D9, U2): deterministic and total, otherwise free. Safe (log 2). -/
opaque Config.digest : List Byte → Digest

/-- DESIGN CHOICE, unsafe in one point (log 5): the unspecified value of `A[m]` after the reset numbered `r` (R45, U7). -/
opaque Config.unspecifiedAcc (r m : Nat) : Word

/-- DESIGN CHOICE, unsafe in one point (log 5): the unspecified value of `L[m][i]` after the reset numbered `r` (R45, U7). -/
opaque Config.unspecifiedLane (r m i : Nat) : Word

/-- DESIGN CHOICE, unsafe in one point (log 5): the unspecified value of `SRC[m][j]` after the reset numbered `r` (R45, U7). -/
opaque Config.unspecifiedSrc (r m j : Nat) : Byte

end Sys2Proof
end

