-- ==== Sys2Proof/Machine/State.lean ====
section
/-!
DEFINITION. The state of LXR-CORE as plain data (R20), the reasons a step can stop, and the state after reset (R45).
-/
namespace Sys2Proof.Machine

/-- The four agents of an execution (R4), one constructor each. -/
inductive Agent where
  /-- HOST: reads and writes CSRs, writes command words, owns the message memory; here also the TableProvider -/
  | host
  /-- SEQ: the sequencer, which executes the dispatched operations of a run -/
  | seq
  /-- TBL: the table memory, which answers byte reads -/
  | tbl
  /-- DGST: the external digest unit, which answers a byte sequence with 32 bytes -/
  | dgst
  deriving DecidableEq, Repr

/-- The field `STATE` of `STATUS` (R35): 0, 1, 2. The value 3 never occurs (R35, U16) and has no constructor (log 20). -/
inductive Mode where
  /-- 0 UNCONFIG: no valid configuration -/
  | unconfig
  /-- 1 READY: configuration locked -/
  | ready
  /-- 2 BUSY: a run is active -/
  | busy
  deriving DecidableEq, Repr

/-- `RUNKIND`: 0 single, 1 batch (R24). -/
inductive RunKind where
  /-- 0: the run of a HASH command -/
  | single
  /-- 1: the run of a BATCH command -/
  | batch
  deriving DecidableEq, Repr

/-- One thing the HOST agent does (R4, R27, R42, R97): the block's environment as plain data (log 8). -/
inductive Input where
  /-- a CSR read of index `k` at HOSTP -/
  | read (k : BitVec 12)
  /-- a CSR write of the value `v` to index `k` at HOSTP -/
  | write (k : BitVec 12) (v : Word)
  /-- the host writes a byte of the message memory (R42, R63) -/
  | msgWrite (a : Word) (b : Byte)
  /-- the TableProvider writes a byte of the table memory (R42, R126) -/
  | tblWrite (a : Word) (b : Byte)
  deriving DecidableEq, Repr

/-- A byte memory in canonical form: addresses strictly rising, no entry holding what an unlisted address reads as. -/
abbrev Memory := List Host.Cell

/-- One member slot (R20): accumulator (R22), lanes (R21), source buffer (R23), digest (R36) and descriptor (R39). -/
structure Slot where
  /-- `A[m]` -/
  acc : Word
  /-- `L[m][0..31]` -/
  lanes : Vector Word 32
  /-- `SRC[m][0..31]` -/
  src : Vector Byte 32
  /-- `DIG[m][0..31]` -/
  dig : Digest
  /-- `MSGADDR[m]` -/
  msgAddr : Word
  /-- `MSGLEN[m]` -/
  msgLen : Word
  deriving DecidableEq, Repr

/-- The machine: the block's registers (R20), its parameters and the two memories it reads (log 1, log 3), and its
environment (log 8, log 9). -/
structure State where
  /-- the `NSLOTS` member slots (R9, R20) -/
  slots : List Slot
  /-- CSR `SEED` (R29) -/
  seed : Word
  /-- CSR `MAPSIZE` (R30) -/
  mapSize : Word
  /-- CSR `TBLLEN` (R31) -/
  tblLen : Word
  /-- CSR `HASHSIZE` (R32) -/
  hashSize : Word
  /-- CSR `TPASSES` (R33) -/
  tPasses : Word
  /-- CSR `VARIANT` (R34) -/
  variant : Word
  /-- `STATE`, the field of CSR `STATUS` (R35) -/
  mode : Mode
  /-- CSR `ERR` (R37) -/
  err : Word
  /-- the dispatch index, the block's program counter (R24) -/
  di : BitVec 15
  /-- `RUNKIND` (R24) -/
  runKind : RunKind
  /-- `RUNBASE` (R24) -/
  runBase : BitVec 8
  /-- `RUNCNT` (R24) -/
  runCnt : BitVec 9
  /-- `STG`, the stage register of a STEP (R25) -/
  stg : BitVec 4
  /-- the parameter `MAPBITS_MAX` (R9), constant -/
  mapBitsMax : Fin 64
  /-- the table memory TBL (R62) -/
  tbl : Memory
  /-- the message memory MSG (R63) -/
  msg : Memory
  /-- the model's own: what HOST does next, oldest first (log 8) -/
  inputs : List Input
  /-- the model's own: data answered to CSR reads, oldest first (log 8) -/
  answers : List Word
  /-- the model's own: the level of the pin RESETN at each coming step, false for 0; 1 after the list's end (log 9) -/
  resetn : List Bool
  /-- the model's own: how many resets there were, which picks the free values of A, L, SRC (log 5) -/
  resets : Nat
  deriving DecidableEq, Repr

/-- Why the machine stops. No legal run reaches any of these (R206; log 14). -/
inductive Fault where
  /-- Raised by a dispatched operation handed to the datapath although it is outside the table (slot not below NSLOTS, lane
  not below HASHSIZE), and by `step` for a dispatch word that does not decode: R102 and U9 ask for a fault naming the word. Safe. -/
  | dispatchWord (w : CmdWord)
  /-- Raised by `step` when no operation of the run stands at the dispatch index (past END, or VARIANT neither 1 nor 2). Safe. -/
  | dispatchIndex (di : BitVec 15)
  /-- Raised by INIT, FIN1 and FIN2 when HASHSIZE names more lanes than the 32 a slot has (R9, R21). Safe. -/
  | laneCount (hashSize : Word)
  /-- Raised by STEP when MAPSIZE is 0 or above 2^MAPBITS_MAX, so that a lookup could leave the table memory (R62, R70). Safe. -/
  | tableSize (mapSize : Word)
  /-- Raised by PREP when the descriptor of the slot passes 2^64, so that the message has no address (R39, R64). Safe. -/
  | messageRange (slot : Nat)
  /-- Raised by `step` when the TableProvider writes at an address the table memory of this instance does not have (R9, R62; log 18). Safe. -/
  | tableAddress (a : Word)
  deriving DecidableEq, Repr

/-- Why an instruction has no meaning in the model. -/
inductive Refusal where
  /-- Raised by `exec` for an instruction not modelled yet; no arm of this model raises it. Safe. -/
  | notModelled (mnemonic : String)
  deriving DecidableEq, Repr

/-- Member slot `m` right after the reset numbered `r`: digest and descriptor 0, the rest unspecified (R45; log 5). -/
def Slot.fresh (r m : Nat) : Slot where
  acc := Config.unspecifiedAcc r m
  lanes := Vector.ofFn fun i => Config.unspecifiedLane r m i.val
  src := Vector.ofFn fun j => Config.unspecifiedSrc r m j.val
  dig := Vector.replicate 32 0
  msgAddr := 0
  msgLen := 0

/-- The `n` member slots right after the reset numbered `r`. -/
def freshSlots (r n : Nat) : List Slot := (List.range n).map (Slot.fresh r)

/-- The instance with `n` slots and the given `MAPBITS_MAX` right after hardware reset (R45, R230), its memories
listing nothing and its environment idle. -/
def State.resetOf (n : Nat) (mapBitsMax : Fin 64) : State where
  slots := freshSlots 0 n
  seed := 0
  mapSize := 0
  tblLen := 0
  hashSize := 0
  tPasses := 0
  variant := 0
  mode := .unconfig
  err := 0
  di := 0
  runKind := .single
  runBase := 0
  runCnt := 0
  stg := 0
  mapBitsMax := mapBitsMax
  tbl := []
  msg := []
  inputs := []
  answers := []
  resetn := []
  resets := 0

/-- The machine right after hardware reset (R45, R230), on the instance of `95_test_vectors.md` section 0 (log 1). -/
def State.reset : State := State.resetOf Config.resetSlots Config.resetMapBitsMax

end Sys2Proof.Machine
end

