-- ==== Sys2Proof/Machine/Flags.lean ====
section
/-!
DEFINITION. The block has no condition codes (R26); its only status bits are `STATUS` (R35), `ERR` (R37, R201, R202), the
constant `CAP` (R40) and the output `TBL_LOCK` (R126). This file computes them, and the configuration checks (R124).
-/
namespace Sys2Proof.Machine

/-- The numbers of the three values of `STATE` (R35). -/
def modeBits : Mode → BitVec 2
  | .unconfig => 0
  | .ready => 1
  | .busy => 2

/-- CSR `STATUS`: `STATE` in bits 1:0, the rest 0 (R35). -/
def statusWord (s : State) : Word := (modeBits s.mode).setWidth 64

/-- The output `TBL_LOCK`: 1 exactly while `STATE` is 1 or 2 (R126). -/
def tblLock (s : State) : Bool :=
  match s.mode with
  | .unconfig => false
  | .ready => true
  | .busy => true

/-- The outcome codes of a command (R201). -/
inductive ErrCode where
  /-- 0: accepted -/
  | ok
  /-- 1: a configuration check failed -/
  | cfgInvalid
  /-- 2: no valid configuration -/
  | notReady
  /-- 3: the word matches no row -/
  | illCmd
  /-- 4: slot or count beyond NSLOTS -/
  | badSlot
  /-- 5: a named descriptor passes 2^64 -/
  | badDesc
  /-- 6: a configuration is already locked -/
  | locked
  deriving DecidableEq, Repr

/-- The number of a code (R37, R201). -/
def codeNumber : ErrCode → Nat
  | .ok => 0
  | .cfgInvalid => 1
  | .notReady => 2
  | .illCmd => 3
  | .badSlot => 4
  | .badDesc => 5
  | .locked => 6

/-- The value of `ERR`: `CODE` in bits 7:0, `CFGCAUSE` in bits 15:8, the rest 0 (R37, R202). -/
def errWord (code : ErrCode) (cause : BitVec 8) : Word :=
  BitVec.ofNat 64 (codeNumber code) ||| (cause.setWidth 64 <<< 8)

/-- `NSLOTS`: the number of member slots of this instance (R9). -/
def nslots (s : State) : Nat := s.slots.length

/-- CSR `CAP` (R40): `NSLOTS` in 8:0, `MAPBITS_MAX` in 21:16, `LANES_MAX` in 31:24, `MIXPASSES` in 39:32, `N` in 47:40,
`ROUNDS` in 55:48. -/
def capWord (s : State) : Word :=
  BitVec.ofNat 64 (nslots s) ||| (BitVec.ofNat 64 s.mapBitsMax.val <<< 16) ||| (BitVec.ofNat 64 Config.lanesMax <<< 24) |||
    (BitVec.ofNat 64 Config.mixPasses <<< 32) ||| (BitVec.ofNat 64 Config.sourceLen <<< 40) |||
    (BitVec.ofNat 64 Config.rounds <<< 48)

/-- Check `K_POW2` (R124): `MAPSIZE` is a power of two. -/
def checkPow2 (s : State) : Bool := s.mapSize != 0 && (s.mapSize &&& (s.mapSize - 1)) == 0

/-- Check `K_CAP` (R124): `MAPSIZE` is at most `2^MAPBITS_MAX`. -/
def checkCap (s : State) : Bool := decide (s.mapSize.toNat ≤ 2 ^ s.mapBitsMax.val)

/-- Check `K_LEN` (R124): `TBLLEN` equals `MAPSIZE`. -/
def checkLen (s : State) : Bool := s.tblLen == s.mapSize

/-- Check `K_HS` (R124): `HASHSIZE` is 1 to 32. -/
def checkHashSize (s : State) : Bool := decide (1 ≤ s.hashSize.toNat) && decide (s.hashSize.toNat ≤ Config.lanesMax)

/-- Check `K_VAR` (R124): `VARIANT` is 1 or 2. -/
def checkVariant (s : State) : Bool := s.variant == 1 || s.variant == 2

/-- Check `K_LANE` (R124): `VARIANT` is not 2, or `HASHSIZE` is 32. -/
def checkLane (s : State) : Bool := s.variant != 2 || s.hashSize == 32

/-- The cause bit at position `b` of `CFGCAUSE` when its check fails (R202). -/
def causeBit (holds : Bool) (b : Nat) : BitVec 8 := if holds then 0 else 1 <<< b

/-- `CFGCAUSE`: one bit for every failing check, all together (R123, R202). -/
def cfgCause (s : State) : BitVec 8 :=
  causeBit (checkPow2 s) 0 ||| causeBit (checkCap s) 1 ||| causeBit (checkLen s) 2 ||| causeBit (checkHashSize s) 3 |||
    causeBit (checkVariant s) 4 ||| causeBit (checkLane s) 5

/-- The configuration is valid: all six checks hold (R124). -/
def configValid (s : State) : Bool :=
  checkPow2 s && checkCap s && checkLen s && checkHashSize s && checkVariant s && checkLane s

end Sys2Proof.Machine
end

