-- ==== Sys2Proof/Machine/Ops.lean ====
section
/-!
DEFINITION. The named operations over memory, slots and registers that the meanings share; among them the block's whole
exception entry, the refusal (R203), and the end of a run beside it (R193). There is no return from a refusal (R209).
-/
namespace Sys2Proof.Machine

/-- The byte at address `a` (R62, R63). DESIGN CHOICE, unsafe (log 4): a byte nothing has written reads 0. -/
def memRead : Memory → Nat → Byte
  | [], _ => 0
  | (k, v) :: rest, a => if k = a then v else memRead rest a

/-- Write the byte `v` at address `a`, keeping the canonical form: writing what an unlisted address reads as removes the entry. -/
def memWrite : Memory → Nat → Byte → Memory
  | [], a, v => if v = 0 then [] else [(a, v)]
  | (k, w) :: rest, a, v =>
    if k < a then (k, w) :: memWrite rest a v
    else if k = a then (if v = 0 then rest else (a, v) :: rest)
    else (if v = 0 then (k, w) :: rest else (a, v) :: (k, w) :: rest)

/-- Every address of the memory is above `lo`, addresses rise strictly, and no entry holds 0. -/
def memWfAbove : Nat → Memory → Bool
  | _, [] => true
  | lo, (k, v) :: rest => decide (lo < k) && v != 0 && memWfAbove k rest

/-- The canonical form of a memory. -/
def Memory.wf : Memory → Bool
  | [] => true
  | (k, v) :: rest => v != 0 && memWfAbove k rest

/-- Every listed address is below `bound`. -/
def memBelow (bound : Nat) (mem : Memory) : Bool := mem.all fun cell => decide (cell.1 < bound)

/-- The descriptor names a message that does not pass 2^64 (R39). -/
def descOk (sl : Slot) : Bool := decide (sl.msgAddr.toNat + sl.msgLen.toNat ≤ 2 ^ 64)

/-- Put a slot's new contents back at index `m`; no other slot is touched (R44). -/
def State.putSlot (s : State) (m : Nat) (sl : Slot) : State := { s with slots := s.slots.set m sl }

/-- Advance the dispatch index, as every dispatched operation but END does (R24). -/
def State.advance (s : State) : State := { s with di := s.di + 1 }

/-- What every command writes: its outcome, and nothing else (R37, R201). -/
def State.setErr (s : State) (code : ErrCode) (cause : BitVec 8) : State := { s with err := errWord code cause }

/-- `raise Code(info)` (R203), the block's whole exception entry: `ERR` gets the code, with the failing checks for
`CFGINVALID`, and nothing else changes: no state saved, no mode changed, control goes nowhere. -/
def raiseRefusal (code : ErrCode) (cause : BitVec 8) (s : State) : Host.Outcome State Fault Refusal :=
  .next (s.setErr code cause)

/-- Acceptance of HASH or BATCH (R170, R180): `ERR` 0, the run registers written, `di` 0, `STATE` 2. -/
def State.acceptRun (s : State) (kind : RunKind) (base count : Nat) : State :=
  { s with err := errWord .ok 0, runKind := kind, runBase := BitVec.ofNat 8 base, runCnt := BitVec.ofNat 9 count,
           di := 0, mode := .busy }

/-- END (R193): `STATE` 1, `di` 0, `STG` 0. -/
def State.finishRun (s : State) : State := { s with mode := .ready, di := 0, stg := 0 }

/-- Every state element of the block takes its reset value (R45): the effect of RESETN (R230) and of SRST (R127). The
parameters, the two memories outside the block (R230) and the environment stay. DESIGN CHOICE (log 5): A, L and SRC, which
the spec leaves unspecified, get free values, new ones at every reset. -/
def State.blockReset (s : State) : State :=
  { s with slots := freshSlots (s.resets + 1) s.slots.length, seed := 0, mapSize := 0, tblLen := 0, hashSize := 0,
           tPasses := 0, variant := 0, mode := .unconfig, err := 0, di := 0, runKind := .single, runBase := 0,
           runCnt := 0, stg := 0, resets := s.resets + 1 }

/-- A dispatched operation `i` on slot `m`: read the slot, compute its new contents, write it back and advance `di`.
A slot the instance does not have makes the word one outside the table (R102): a fault naming it. -/
def onSlot (i : Instr) (m : Nat) (f : Slot → Except Fault Slot) (s : State) : Host.Outcome State Fault Refusal :=
  match s.slots[m]? with
  | none => .fault (.dispatchWord (encode i))
  | some sl =>
    match f sl with
    | .error r => .fault r
    | .ok sl' => .next (s.putSlot m sl').advance

end Sys2Proof.Machine
end

