-- ==== Sys2Proof/Machine/Operands.lean ====
section
/-!
DEFINITION. Operand forms and the primitives of the pseudocode (R12, R158): shifts, zero extension, the low byte, the
little-endian prefold word (R143), the shift schedule (R155), the two addressing modes (R160, R64) and the lane index (R173).
-/
namespace Sys2Proof.Machine

/-- `shl64(x, s)`: bits shifted past bit 63 are lost (R12). -/
def shl64 (x : Word) (n : Nat) : Word := x <<< n

/-- `shr64(x, s)`: logical, zeros enter at bit 63 (R12, D13). -/
def shr64 (x : Word) (n : Nat) : Word := x >>> n

/-- `zext_64(b)`: the byte as a 64-bit value, bits 63 to 8 zero (R12, D12). -/
def zext64 (b : Byte) : Word := b.setWidth 64

/-- `low8(x)`: bits 7:0 (R12). -/
def low8 (x : Word) : Byte := x.setWidth 8

/-- The prefold word of R143: four bytes, byte 0 least significant, each widened before it is shifted (D14). -/
def le32 (b0 b1 b2 b3 : Byte) : Word :=
  zext64 b0 ||| shl64 (zext64 b1) 8 ||| shl64 (zext64 b2) 16 ||| shl64 (zext64 b3) 24

/-- `mask = MAPSIZE - 1` (R41). -/
def maskOf (mapSize : Word) : Word := mapSize - 1

/-- The pair (left, right) of lookup round `r`: element `(r - 1) mod 4` of the schedule (R155). -/
def shiftPair (r : Nat) : Nat × Nat :=
  match (r - 1) % 4 with
  | 0 => (13, 1)
  | 1 => (11, 3)
  | 2 => (17, 5)
  | _ => (19, 7)

/-- The table addressing mode: `(zext_64(v) ^ A) & mask` (R160). -/
def lookupAddr (mask : Word) (v : Byte) (a : Word) : Word := (zext64 v ^^^ a) &&& mask

/-- The lane used for source position `j` with `hs` lanes: `j mod hs` (R173, D15). -/
def laneIndex (j hs : Nat) : Nat := j % hs

/-- The message a descriptor names: the bytes from `addr` up, lowest address first (R64, R65). -/
def messageBytes (mem : Memory) (addr len : Nat) : List Byte := (List.range len).map fun k => memRead mem (addr + k)

/-- `msg(s)` of a slot (R64). -/
def slotMessage (s : State) (sl : Slot) : List Byte := messageBytes s.msg sl.msgAddr.toNat sl.msgLen.toNat

/-- The table memory can answer every address below `MAPSIZE`: `MAPSIZE` is 1 to `2^MAPBITS_MAX` (R62, R70). -/
def tableFits (s : State) : Bool := s.mapSize != 0 && checkCap s

end Sys2Proof.Machine
end

