-- ==== Sys2Proof/Machine/ConfigCommands.lean ====
section
/-!
DEFINITION. The commands that do not hash: NOP (R121), CFGLOCK (R123) and SRST (R127).
-/
namespace Sys2Proof.Machine

/-- `NOP`: `ERR` 0 and nothing else, in every `STATE` (R121). -/
def execNop (s : State) : Host.Outcome State Fault Refusal := .next (s.setErr .ok 0)

/-- `CFGLOCK` (R123): while unlocked, lock a valid configuration (`STATE` 1, `ERR` 0) or refuse it with every failing check;
while locked, refuse with `LOCKED`. DESIGN CHOICE, safe (log 13): in `STATE` 2, where no command can arrive (R204), as in `STATE` 1. -/
def execCfglock (s : State) : Host.Outcome State Fault Refusal :=
  match s.mode with
  | .unconfig =>
    if cfgCause s = 0 then .next { s.setErr .ok 0 with mode := .ready }
    else raiseRefusal .cfgInvalid (cfgCause s) s
  | .ready => raiseRefusal .locked 0 s
  | .busy => raiseRefusal .locked 0 s

/-- `SRST`: every state element takes its reset value (R127, R45). -/
def execSrst (s : State) : Host.Outcome State Fault Refusal := .next s.blockReset

end Sys2Proof.Machine
end

