-- ==== Sys2Proof/Machine/Mixer.lean ====
section
/-!
DEFINITION. The table-lookup mixer: STEP and its eleven stages (R150 to R161), as one assignment (R157), which is what the
instruction does, and stage by stage on the state (R25, R152).
-/
namespace Sys2Proof.Machine

/-- Stage S0: fold the lane into the accumulator (R153). -/
def foldStage (a l0 : Word) : Word := a ^^^ shl64 a 23 ^^^ shr64 a 11 ^^^ l0

/-- Stage S`r`: lookup round `r`, 1 to 9 (R154); index and shifted terms use the accumulator before the round. -/
def lookupStage (table : Nat → Byte) (mask : Word) (v : Byte) (r : Nat) (a : Word) : Word :=
  shl64 a (shiftPair r).1 ^^^ shr64 a (shiftPair r).2 ^^^ zext64 (table (lookupAddr mask v a).toNat)

/-- Stage S10, absorb (R156); also one iteration of the variant-2 finalizer (R192). -/
def absorb (x y : Word) : Word := shl64 x 8 ^^^ shr64 x 1 ^^^ y

/-- The accumulator after the first `r` lookup rounds, from its value `a` after stage S0 (R157). -/
def afterRounds (table : Nat → Byte) (mask : Word) (v : Byte) (a : Word) : Nat → Word
  | 0 => a
  | r + 1 => lookupStage table mask v (r + 1) (afterRounds table mask v a r)

/-- `step(T, M, A0, L0, v) = (A', L')` (R157). -/
def mix (table : Nat → Byte) (mask a0 l0 : Word) (v : Byte) : Word × Word :=
  let a9 := afterRounds table mask v (foldStage a0 l0) Config.rounds
  (a9, absorb l0 a9)

/-- The table addresses a STEP reads, in order (R70, R71, R159). -/
def mixAddrs (mask a0 l0 : Word) (v : Byte) (table : Nat → Byte) : List Word :=
  (List.range Config.rounds).map fun r => lookupAddr mask v (afterRounds table mask v (foldStage a0 l0) r)

/-- What STEP does to its slot: one accumulator and one lane change (R150, R157). A lane not below HASHSIZE or a position
beyond the source makes the word one outside the table (R102). -/
def mixSlot (m lane pos : Nat) (s : State) (sl : Slot) : Except Fault Slot :=
  if lane < s.hashSize.toNat then
    match sl.lanes[lane]?, sl.src[pos]? with
    | some l0, some v =>
      if tableFits s then
        let r := mix (memRead s.tbl) (maskOf s.mapSize) sl.acc l0 v
        .ok { sl with acc := r.1, lanes := sl.lanes.setIfInBounds lane r.2 }
      else .error (.tableSize s.mapSize)
    | _, _ => .error (.dispatchWord (encode (.step m lane pos)))
  else .error (.dispatchWord (encode (.step m lane pos)))

/-- `STEP m, lane, pos` (R152), all eleven stages in one assignment (R157; log 15). -/
def execStep (m lane pos : Nat) (s : State) : Host.Outcome State Fault Refusal :=
  onSlot (.step m lane pos) m (mixSlot m lane pos s) s

/-- One stage of a STEP on the slot, the one that `STG` names: 0 fold, 1 to 9 lookups, 10 absorb (R25, R103, R152). The lane is
read anew by S10: no stage before it writes it (R156). `none` past the eleven stages. -/
def stageSlot (lane pos : Nat) (s : State) (sl : Slot) : Option Slot :=
  match sl.lanes[lane]?, sl.src[pos]? with
  | some l0, some v =>
    match s.stg.toNat with
    | 0 => some { sl with acc := foldStage sl.acc l0 }
    | r + 1 =>
      if r + 1 ≤ Config.rounds then
        some { sl with acc := lookupStage (memRead s.tbl) (maskOf s.mapSize) v (r + 1) sl.acc }
      else if r = Config.rounds then some { sl with lanes := sl.lanes.setIfInBounds lane (absorb l0 sl.acc) }
      else none
  | _, _ => none

/-- The dispatch view's smallest step (R13, R25): one stage of `STEP m, lane, pos`. `STG` goes 0, 1, ..., 10; after stage 10
it is 0 and the STEP is complete, so `di` advances. -/
def stageStep (m lane pos : Nat) (s : State) : Option State :=
  match s.slots[m]? with
  | none => none
  | some sl =>
    match stageSlot lane pos s sl with
    | none => none
    | some sl' =>
      if s.stg = 10 then some { (s.putSlot m sl').advance with stg := 0 }
      else some { s.putSlot m sl' with stg := s.stg + 1 }

/-- The first `k` stages of `STEP m, lane, pos`. -/
def runStages (m lane pos : Nat) : Nat → State → Option State
  | 0, s => some s
  | k + 1, s =>
    match stageStep m lane pos s with
    | none => none
    | some s' => runStages m lane pos k s'

end Sys2Proof.Machine
end

