-- ==== Sys2Proof/Machine/Finalizer.lean ====
section
/-!
DEFINITION. The finalizers FIN1 (R191) and FIN2 (R192) and the end of a run, END (R193).
-/
namespace Sys2Proof.Machine

/-- The digest FIN1 writes: byte `i` is the low byte of lane `i` below `hs`, then zeros (R191, D17). -/
def fin1Digest (lanes : Vector Word 32) (hs : Nat) : Digest :=
  Vector.ofFn fun i => if i.val < hs then low8 lanes[i] else 0

/-- `FIN1 m` (R191): the accumulator and the lanes keep their values. -/
def execFin1 (m : Nat) (s : State) : Host.Outcome State Fault Refusal :=
  onSlot (.fin1 m) m (fun sl =>
    if s.hashSize.toNat ≤ Config.lanesMax then .ok { sl with dig := fin1Digest sl.lanes s.hashSize.toNat }
    else .error (.laneCount s.hashSize)) s

/-- The variant-2 chain over lanes listed in ascending order, walked from the last to the first (R192): the accumulator at
the end, and the bytes taken, byte `i` for lane `i`. -/
def finChain (lanes : List Word) (a : Word) : Word × List Byte :=
  lanes.foldr (fun l r => (absorb r.1 l, low8 (absorb r.1 l) :: r.2)) (a, [])

/-- The slot after FIN2: the last accumulator of the chain, and the bytes of the chain, then zeros (R192). -/
def fin2Slot (hs : Nat) (sl : Slot) : Slot :=
  let r := finChain (sl.lanes.toList.take hs) sl.acc
  { sl with acc := r.1, dig := Vector.ofFn fun i => r.2.getD i.val 0 }

/-- `FIN2 m` (R192): the lanes keep their values. -/
def execFin2 (m : Nat) (s : State) : Host.Outcome State Fault Refusal :=
  onSlot (.fin2 m) m (fun sl =>
    if s.hashSize.toNat ≤ Config.lanesMax then .ok (fin2Slot s.hashSize.toNat sl)
    else .error (.laneCount s.hashSize)) s

/-- `END` (R193). -/
def execEndRun (s : State) : Host.Outcome State Fault Refusal := .next s.finishRun

end Sys2Proof.Machine
end

