-- ==== Sys2Proof/Machine/Prologue.lean ====
section
/-!
DEFINITION. The prologue of a run: INIT (R141), PREP (R142) and FOLD4 (R143).
-/
namespace Sys2Proof.Machine

/-- The slot after INIT: accumulator the seed, lanes below `hs` zero, the other lanes as they were (R141). -/
def initSlot (seed : Word) (hs : Nat) (sl : Slot) : Slot :=
  { sl with acc := seed, lanes := Vector.ofFn fun i => if i.val < hs then 0 else sl.lanes[i] }

/-- `INIT m` (R141). -/
def execInit (m : Nat) (s : State) : Host.Outcome State Fault Refusal :=
  onSlot (.init m) m (fun sl =>
    if s.hashSize.toNat ≤ Config.lanesMax then .ok (initSlot s.seed s.hashSize.toNat sl)
    else .error (.laneCount s.hashSize)) s

/-- The preprocessed source: the digest of the digest of the message (R142). -/
def preprocess (digest : List Byte → Digest) (message : List Byte) : Digest := digest (digest message).toList

/-- `PREP m` (R142). -/
def execPrep (m : Nat) (s : State) : Host.Outcome State Fault Refusal :=
  onSlot (.prep m) m (fun sl =>
    if descOk sl then .ok { sl with src := preprocess Config.digest (slotMessage s sl) }
    else .error (.messageRange m)) s

/-- The slot after FOLD4: the first four source bytes folded into the accumulator (R143). -/
def fold4Slot (sl : Slot) : Slot :=
  { sl with acc := sl.acc ^^^ le32 sl.src[0] sl.src[1] sl.src[2] sl.src[3] }

/-- `FOLD4 m` (R143). -/
def execFold4 (m : Nat) (s : State) : Host.Outcome State Fault Refusal :=
  onSlot (.fold4 m) m (fun sl => .ok (fold4Slot sl)) s

end Sys2Proof.Machine
end

