-- ==== Sys2Proof/Machine/Sequencer.lean ====
section
/-!
DEFINITION. The sequencer: the dispatch sequences of HASH and BATCH as lists (R171, R181), the operation at a dispatch index
(R182), the counter form (R183), and the word the sequencer hands to the datapath (R100).
-/
namespace Sys2Proof.Machine

/-- The finalizer of the configuration's variant on slot `m` (R190); none for a value that is no variant (R34). -/
def finOp (variant : Word) (m : Nat) : Option Instr :=
  if variant = 1 then some (.fin1 m)
  else if variant = 2 then some (.fin2 m)
  else none

/-- The operation at index `k` of the dispatch sequence over the `n` slots from `base` up (R171, R181, R182). -/
def opAt (base n hs : Nat) (variant : Word) (k : Nat) : Option Instr :=
  if k < 3 * n then
    match k % 3 with
    | 0 => some (.init (base + k / 3))
    | 1 => some (.prep (base + k / 3))
    | _ => some (.fold4 (base + k / 3))
  else if k < 99 * n then
    let q := k - 3 * n
    some (.step (base + q % n) (laneIndex (q / n % 32) hs) (q / n % 32))
  else if k < 100 * n then finOp variant (base + (k - 99 * n))
  else if k = 100 * n then some .endRun
  else none

/-- First slot of the run: `RUNBASE` for a single run, 0 for a batch (R24). -/
def State.firstSlot (s : State) : Nat :=
  match s.runKind with
  | .single => s.runBase.toNat
  | .batch => 0

/-- Number of members of the run: 1 for a single run, `RUNCNT` for a batch (R24). -/
def State.members (s : State) : Nat :=
  match s.runKind with
  | .single => 1
  | .batch => s.runCnt.toNat

/-- The operation of the active run at the dispatch index. -/
def State.dispatchOp (s : State) : Option Instr :=
  opAt s.firstSlot s.members s.hashSize.toNat s.variant s.di.toNat

/-- The dispatch word the sequencer hands to the datapath (R90, R100). -/
def State.dispatchWord (s : State) : Option CmdWord := s.dispatchOp.map encode

/-- `FIN` of R171 and R181: FIN1 for variant 1, else FIN2. -/
def finOf (variant : Word) (m : Nat) : Instr := if variant = 1 then .fin1 m else .fin2 m

/-- The mixing part: three passes (outer), 32 positions (middle), the members in turn (inner) (R171, R181). -/
def seqMixing (hs : Nat) (members : List Nat) : List Instr :=
  (List.range Config.mixPasses).flatMap fun _ =>
    (List.range Config.sourceLen).flatMap fun j => members.map fun m => .step m (laneIndex j hs) j

/-- The dispatch sequence over the given members: prologues, mixing, finalizers, END (R171, R181). -/
def seqOver (hs : Nat) (variant : Word) (members : List Nat) : List Instr :=
  (members.flatMap fun m => [.init m, .prep m, .fold4 m]) ++ seqMixing hs members ++ members.map (finOf variant) ++ [.endRun]

/-- `seqSingle(slot)` (R171). -/
def seqSingle (hs : Nat) (variant : Word) (slot : Nat) : List Instr := seqOver hs variant [slot]

/-- `seqBatch(n)` (R181). -/
def seqBatch (hs : Nat) (variant : Word) (n : Nat) : List Instr := seqOver hs variant (List.range n)

/-- The phases of the counter form (R183). -/
inductive Phase where
  /-- PRO: prologue -/
  | pro
  /-- MIX: mixing -/
  | mixing
  /-- FIN: finalizers -/
  | fin
  /-- STOP: END -/
  | stop
  deriving DecidableEq, Repr

/-- The counters of R183: phase, prologue counter, pass, position, member. -/
structure Counters where
  ph : Phase
  k : Nat
  p : Nat
  j : Nat
  mi : Nat
  deriving DecidableEq, Repr

/-- The counters at acceptance (R183). -/
def countersAt (n : Nat) : Counters := { ph := if 0 < n then .pro else .stop, k := 0, p := 0, j := 0, mi := 0 }

/-- The operation the counters select on slot `base + MI` (R183). -/
def counterOp (base hs : Nat) (variant : Word) (c : Counters) : Option Instr :=
  match c.ph with
  | .pro =>
    match c.k with
    | 0 => some (.init (base + c.mi))
    | 1 => some (.prep (base + c.mi))
    | _ => some (.fold4 (base + c.mi))
  | .mixing => some (.step (base + c.mi) (laneIndex c.j hs) c.j)
  | .fin => finOp variant (base + c.mi)
  | .stop => some .endRun

/-- The counters after one operation of a run over `n` members (R183). -/
def counterNext (n : Nat) (c : Counters) : Counters :=
  match c.ph with
  | .pro =>
    if c.k + 1 = 3 then
      if c.mi + 1 = n then { c with k := 0, mi := 0, ph := .mixing } else { c with k := 0, mi := c.mi + 1 }
    else { c with k := c.k + 1 }
  | .mixing =>
    if c.mi + 1 = n then
      if c.j + 1 = 32 then
        if c.p + 1 = 3 then { c with mi := 0, j := 0, p := 0, ph := .fin } else { c with mi := 0, j := 0, p := c.p + 1 }
      else { c with mi := 0, j := c.j + 1 }
    else { c with mi := c.mi + 1 }
  | .fin => if c.mi + 1 = n then { c with mi := 0, ph := .stop } else { c with mi := c.mi + 1 }
  | .stop => c

/-- The counters after `k` operations of a run over `n` members (R183). -/
def countersAfter (n : Nat) : Nat → Counters
  | 0 => countersAt n
  | k + 1 => counterNext n (countersAfter n k)

end Sys2Proof.Machine
end

