-- ==== Sys2Proof/Machine/Schedulers.lean ====
section
/-!
DEFINITION. The commands that hash, HASH (R170) and BATCH (R180): the refusal checks in their order and the acceptance of the
run, which the sequencer then executes one operation a step (R13, R172; log 6). Also the closed form of the hash (R174).
-/
namespace Sys2Proof.Machine

/-- `HASH slot` (R170): `NOTREADY`, `BADSLOT`, `BADDESC` in this order, else the run of `seqSingle(slot)` is accepted. -/
def execHash (slot : Nat) (s : State) : Host.Outcome State Fault Refusal :=
  if s.mode = .ready then
    match s.slots[slot]? with
    | none => raiseRefusal .badSlot 0 s
    | some sl => if descOk sl then .next (s.acceptRun .single slot 1) else raiseRefusal .badDesc 0 s
  else raiseRefusal .notReady 0 s

/-- `BATCH count` (R180): `NOTREADY`, `BADSLOT`, `BADDESC` in this order, else the run of `seqBatch(count)` is accepted. -/
def execBatch (count : Nat) (s : State) : Host.Outcome State Fault Refusal :=
  if s.mode = .ready then
    if count ≤ nslots s then
      if (s.slots.take count).all descOk then .next (s.acceptRun .batch 0 count)
      else raiseRefusal .badDesc 0 s
    else raiseRefusal .badSlot 0 s
  else raiseRefusal .notReady 0 s

/-- What the closed form reads of a locked configuration (R174). -/
structure HashConfig where
  seed : Word
  mapSize : Word
  hashSize : Word
  variant : Word
  deriving DecidableEq, Repr

/-- The configuration held in the CSRs (R10). -/
def State.hashConfig (s : State) : HashConfig :=
  { seed := s.seed, mapSize := s.mapSize, hashSize := s.hashSize, variant := s.variant }

/-- One position of the closed form's sweep (R174): `(A, L[j mod hs]) = step(T, M, A, L[j mod hs], src[j])`. -/
def sweepByte (table : Nat → Byte) (mask : Word) (hs : Nat) (src : Digest) (al : Word × List Word) (j : Nat) :
    Word × List Word :=
  let r := mix table mask al.1 (al.2.getD (j % hs) 0) (src[j]?.getD 0)
  (r.1, al.2.set (j % hs) r.2)

/-- Three passes over the 32 positions, from the prefolded seed and lanes of zero (R174). -/
def sweepAll (cfg : HashConfig) (table : Nat → Byte) (src : Digest) : Word × List Word :=
  ((List.range Config.mixPasses).flatMap fun _ => List.range Config.sourceLen).foldl
    (sweepByte table (maskOf cfg.mapSize) cfg.hashSize.toNat src)
    (cfg.seed ^^^ le32 src[0] src[1] src[2] src[3], List.replicate cfg.hashSize.toNat 0)

/-- `LXR(cfg, T, D, msg)`, the closed form of the hash (R6, R174): `hashSize` bytes. -/
def lxr (cfg : HashConfig) (table : Nat → Byte) (digest : List Byte → Digest) (message : List Byte) : List Byte :=
  let al := sweepAll cfg table (preprocess digest message)
  if cfg.variant = 1 then al.2.map low8 else (finChain al.2 al.1).2

end Sys2Proof.Machine
end

