-- ==== Sys2Proof/Machine/Dispatch.lean ====
section
/-!
DEFINITION. The meaning of every instruction, one arm per constructor of Instr.
-/
namespace Sys2Proof.Machine

def exec (i : Instr) (s : State) : Host.Outcome State Fault Refusal :=
  match i with
  -- command words (R92)
  | .nop => Sys2Proof.Machine.execNop s
  | .cfglock => Sys2Proof.Machine.execCfglock s
  | .srst => Sys2Proof.Machine.execSrst s
  | .hash slot => Sys2Proof.Machine.execHash slot s
  | .batch count => Sys2Proof.Machine.execBatch count s
  -- dispatched operations (R101)
  | .init m => Sys2Proof.Machine.execInit m s
  | .prep m => Sys2Proof.Machine.execPrep m s
  | .fold4 m => Sys2Proof.Machine.execFold4 m s
  | .step m lane pos => Sys2Proof.Machine.execStep m lane pos s
  | .fin1 m => Sys2Proof.Machine.execFin1 m s
  | .fin2 m => Sys2Proof.Machine.execFin2 m s
  | .endRun => Sys2Proof.Machine.execEndRun s

end Sys2Proof.Machine
end

