-- ==== Sys2Proof/Machine/HostPort.lean ====
section
/-!
DEFINITION. The host port: the CSR map (R28), CSR reads and writes (R27, R128), the writes of the host to the two memories
(R42, R126), and how a table word is put where the next step runs it (log 12).
-/
namespace Sys2Proof.Machine

/-- The CSRs by name (R28). -/
inductive Csr where
  | status
  | err
  | cmd
  | cap
  | seed
  | mapSize
  | tblLen
  | hashSize
  | tPasses
  | variant
  | msgAddr (slot : Nat)
  | msgLen (slot : Nat)
  | digw (slot w : Nat)
  | reserved
  deriving DecidableEq, Repr

/-- The CSR at an index (R28); the slot a slot index names may still be one the instance does not have (R27). -/
def csrAt (k : BitVec 12) : Csr :=
  match k.toNat with
  | 0x000 => .status
  | 0x001 => .err
  | 0x002 => .cmd
  | 0x003 => .cap
  | 0x008 => .seed
  | 0x009 => .mapSize
  | 0x00A => .tblLen
  | 0x00B => .hashSize
  | 0x00C => .tPasses
  | 0x00D => .variant
  | n =>
    if 0x100 ≤ n then
      match (n - 0x100) % 8 with
      | 0 => .msgAddr ((n - 0x100) / 8)
      | 1 => .msgLen ((n - 0x100) / 8)
      | 2 => .reserved
      | 3 => .reserved
      | w + 4 => .digw ((n - 0x100) / 8) w
    else .reserved

/-- `DIGW[s][w]` (R36): digest bytes `8w` to `8w + 7`, byte `8w` in bits 7:0. -/
def digWord (dig : Digest) (w : Nat) : Word :=
  (List.range 8).foldl (fun acc k => acc ||| (zext64 (dig[8 * w + k]?.getD 0) <<< (8 * k))) 0

/-- The value a slot CSR reads, 0 for a slot the instance does not have (R27). -/
def slotCsr (s : State) (m : Nat) (f : Slot → Word) : Word :=
  match s.slots[m]? with
  | none => 0
  | some sl => f sl

/-- CSR read: no side effect; `CMD` and reserved indices read 0 (R27, R28, R38). -/
def csrRead (s : State) (k : BitVec 12) : Word :=
  match csrAt k with
  | .status => statusWord s
  | .err => s.err
  | .cmd => 0
  | .cap => capWord s
  | .seed => s.seed
  | .mapSize => s.mapSize
  | .tblLen => s.tblLen
  | .hashSize => s.hashSize
  | .tPasses => s.tPasses
  | .variant => s.variant
  | .msgAddr m => slotCsr s m Slot.msgAddr
  | .msgLen m => slotCsr s m Slot.msgLen
  | .digw m w => slotCsr s m fun sl => digWord sl.dig w
  | .reserved => 0

/-- A write to a configuration CSR: performed while `STATE` is 0, without effect while locked (R125, R128). -/
def whileUnlocked (s s' : State) : State :=
  match s.mode with
  | .unconfig => s'
  | .ready => s
  | .busy => s

/-- A write to a descriptor CSR, in every `STATE` (R39); without effect for a slot the instance does not have (R27). -/
def writeSlot (s : State) (m : Nat) (f : Slot → Slot) : State :=
  match s.slots[m]? with
  | none => s
  | some sl => s.putSlot m (f sl)

/-- CSR write other than a command: configuration and descriptor CSRs store all 64 bits, every other write changes nothing
(R27, R128). A write to `CMD` is a command and does not come here. -/
def csrWrite (s : State) (k : BitVec 12) (v : Word) : State :=
  match csrAt k with
  | .status => s
  | .err => s
  | .cmd => s
  | .cap => s
  | .seed => whileUnlocked s { s with seed := v }
  | .mapSize => whileUnlocked s { s with mapSize := v }
  | .tblLen => whileUnlocked s { s with tblLen := v }
  | .hashSize => whileUnlocked s { s with hashSize := v }
  | .tPasses => whileUnlocked s { s with tPasses := v }
  | .variant => whileUnlocked s { s with variant := v }
  | .msgAddr m => writeSlot s m fun sl => { sl with msgAddr := v }
  | .msgLen m => writeSlot s m fun sl => { sl with msgLen := v }
  | .digw _ _ => s
  | .reserved => s

/-- The command word a host access presents: bits 31:0 of a value written to `CMD` (R38, R93). -/
def commandOf : Input → Option CmdWord
  | .read _ => none
  | .write k v => if csrAt k = .cmd then some (v.setWidth 32) else none
  | .msgWrite _ _ => none
  | .tblWrite _ _ => none

/-- A host access that is not a command. A table write while `TBL_LOCK` is 1 is refused by the platform (R126), here without
effect: DESIGN CHOICE (log 10). A table write beyond the instance's table memory faults: DESIGN CHOICE, safe (log 18). -/
def hostAccess (a : Input) (s : State) : Host.Outcome State Fault Refusal :=
  match a with
  | .read k => .next { s with answers := s.answers ++ [csrRead s k] }
  | .write k v => .next (csrWrite s k v)
  | .msgWrite addr b => .next { s with msg := memWrite s.msg addr.toNat b }
  | .tblWrite addr b =>
    if tblLock s then .next s
    else if addr.toNat < 2 ^ s.mapBitsMax.val then .next { s with tbl := memWrite s.tbl addr.toNat b }
    else .fault (.tableAddress addr)

/-- Put a command word where the next step takes it: the host's next access writes it to `CMD`. A run in progress would make
the access wait (R13), so none is; RESETN is 1 (log 12). -/
def placeCommand (w : Nat) (s : State) : State :=
  { s with inputs := .write 0x002 (BitVec.ofNat 64 w) :: s.inputs, resetn := [],
           mode := if s.mode = .busy then .ready else s.mode, di := if s.mode = .busy then 0 else s.di }

/-- A number of lanes 1 to 32 under which source position `pos` uses lane `lane` (R173), 32 where the sequencer never
dispatches that pair. -/
def lanesFor (lane pos : Nat) : Nat :=
  ((List.range 32).map (32 - ·)).find? (fun hs => laneIndex pos hs == lane) |>.getD 32

/-- The state itself where its configuration is valid and serves (`serves`), else with the smallest valid configuration: a
one-byte table (R124) and the given number of lanes and variant. -/
def State.configFor (s : State) (serves : Bool) (hs : Nat) (variant : Word) : State :=
  if configValid s && serves then s
  else { s with mapSize := 1, tblLen := 1, hashSize := BitVec.ofNat 64 hs, variant := variant }

/-- Slot `m` with a descriptor a run can have (R206): its own, or that of the empty message. -/
def State.withGoodDesc (s : State) (m : Nat) : State :=
  writeSlot s m fun sl => if descOk sl then sl else { sl with msgAddr := 0, msgLen := 0 }

/-- The single run of slot `m`, at dispatch index `k`, `STATE` 2 (R170, R171). -/
def State.inRun (s : State) (m k : Nat) : State :=
  { (s.withGoodDesc m).acceptRun .single m 1 with di := BitVec.ofNat 15 k, resetn := [] }

/-- Put a dispatched operation where the next step takes it: the sequencer is in a run whose operation at the dispatch index
it is, under a valid configuration that has it (log 12). A command is none of its business. -/
def placeDispatch (i : Instr) (s : State) : State :=
  match i with
  | .nop => s
  | .cfglock => s
  | .srst => s
  | .hash _ => s
  | .batch _ => s
  | .init m => (s.configFor true 32 1).inRun m 0
  | .prep m => (s.configFor true 32 1).inRun m 1
  | .fold4 m => (s.configFor true 32 1).inRun m 2
  | .step m lane pos =>
    (s.configFor (laneIndex pos s.hashSize.toNat == lane) (lanesFor lane pos) 1).inRun m (3 + pos)
  | .fin1 m => (s.configFor (s.variant == 1) 32 1).inRun m 99
  | .fin2 m => (s.configFor (s.variant == 2) 32 2).inRun m 99
  | .endRun => (s.configFor true 32 1).inRun 0 100

end Sys2Proof.Machine
end

