-- ==== Sys2Proof/Machine/Agents.lean ====
section
/-!
DEFINITION. The agents of an execution (R4): what HOST and SEQ do in a step, whose turn it is (R13), and which agents an
instruction asks for bytes (R5, R60).
-/
namespace Sys2Proof.Machine

/-- A value written to `CMD` (R93): decoded and executed, or refused with `ILLCMD` (R95). -/
def commandStep (w : CmdWord) (s : State) : Host.Outcome State Fault Refusal :=
  match decodeCommand w with
  | .ok i => exec i s
  | .error _ => raiseRefusal .illCmd 0 s

/-- One dispatched operation of the active run (R172): the sequencer forms the word at `di`, the datapath decodes and executes
it. Nothing at `di`, or a word outside the table, faults (R102). -/
def sequencerStep (s : State) : Host.Outcome State Fault Refusal :=
  match s.dispatchWord with
  | none => .fault (.dispatchIndex s.di)
  | some w =>
    match decodeDispatch w with
    | .ok i => exec i s
    | .error _ => .fault (.dispatchWord w)

/-- The host's next access, taken from `inputs`; with none pending the block keeps all state (R216, R231). -/
def hostStep (s : State) : Host.Outcome State Fault Refusal :=
  match s.inputs with
  | [] => .next s
  | a :: rest =>
    match commandOf a with
    | some w => commandStep w { s with inputs := rest }
    | none => hostAccess a { s with inputs := rest }

/-- Whose turn it is: SEQ while a run is active, HOST otherwise. They never run at the same time: a host access waits for the
end of the run (R4, R13, R27). -/
def mover (s : State) : Agent :=
  match s.mode with
  | .busy => .seq
  | .unconfig => .host
  | .ready => .host

/-- A step of each agent. TBL and DGST have no step of their own that changes anything: they answer, inside a step of SEQ, the
reads it makes (`memRead` of `tbl`, `Config.digest`), without side effects (R4, R62, R7). -/
def agentStep (g : Agent) (s : State) : Host.Outcome State Fault Refusal :=
  match g with
  | .host => hostStep s
  | .seq => sequencerStep s
  | .tbl => .next s
  | .dgst => .next s

/-- The agents that an instruction asks for bytes: STEP asks TBL for nine table bytes (port TBLP); PREP asks HOST's message
memory for the message (port MSGP) and DGST for two digests (port DGSTP); nothing else asks anybody (R5, R60, R142, R152). -/
def asked : Instr → List Agent
  | .nop => []
  | .cfglock => []
  | .srst => []
  | .hash _ => []
  | .batch _ => []
  | .init _ => []
  | .prep _ => [.host, .dgst]
  | .fold4 _ => []
  | .step _ _ _ => [.tbl]
  | .fin1 _ => []
  | .fin2 _ => []
  | .endRun => []

end Sys2Proof.Machine
end

