-- ==== Sys2Proof/Machine/Step.lean ====
section
/-!
DEFINITION. One step of the machine: a reset while RESETN is 0 (R230), else a step of the agent whose turn it is (R4, R13).
-/
namespace Sys2Proof.Machine

/-- A step with RESETN at 1: the agent whose turn it is moves (R13). -/
def runningStep (s : State) : Host.Outcome State Fault Refusal := agentStep (mover s) s

/-- One step. While RESETN is 0 every state element has its reset value and a run in progress is abandoned (R230, U14). -/
def step (s : State) : Host.Outcome State Fault Refusal :=
  match s.resetn with
  | false :: rest => .next { s.blockReset with resetn := rest }
  | true :: rest => runningStep { s with resetn := rest }
  | [] => runningStep s

/-- The state with the table word `w` placed where the next step takes its instruction: a command word as the host's next
write to `CMD`, a dispatch word as the operation of a run at its dispatch index, any other word as a write to `CMD` (log 12). -/
def State.withFetchWord (s : State) (nbits w : Nat) : State :=
  match decodeTableWord nbits w with
  | none => placeCommand w s
  | some i =>
    match i.kind with
    | .command => placeCommand w s
    | .dispatch => placeDispatch i s

end Sys2Proof.Machine
end

