-- ==== Sys2Proof/Safety.lean ====
section
/-!
DEFINITION. What claims about LXR-CORE are stated in: when a dispatched operation may run (R102, R206), what an operation on
one slot leaves alone (R44), and the invariant of every state a run from reset can meet.
-/
namespace Sys2Proof.Machine

/-- The operands and the configuration an operation needs to run: inside the table of dispatch words (R102), and only what
a valid configuration and accepted descriptors give (R206). Commands need nothing. -/
def opLegal (s : State) : Instr → Bool
  | .nop => true
  | .cfglock => true
  | .srst => true
  | .hash _ => true
  | .batch _ => true
  | .init m => decide (m < nslots s) && decide (s.hashSize.toNat ≤ 32)
  | .prep m => decide (m < nslots s) && ((s.slots[m]?.map descOk).getD false)
  | .fold4 m => decide (m < nslots s)
  | .step m lane pos =>
    decide (m < nslots s) && decide (lane < s.hashSize.toNat) && decide (lane < 32) && decide (pos < 32) &&
      s.mapSize != 0 && decide (s.mapSize.toNat ≤ 2 ^ s.mapBitsMax.val)
  | .fin1 m => decide (m < nslots s) && decide (s.hashSize.toNat ≤ 32)
  | .fin2 m => decide (m < nslots s) && decide (s.hashSize.toNat ≤ 32)
  | .endRun => true

/-- The slot a dispatched operation works on. -/
def opSlot : Instr → Option Nat
  | .nop => none
  | .cfglock => none
  | .srst => none
  | .hash _ => none
  | .batch _ => none
  | .init m => some m
  | .prep m => some m
  | .fold4 m => some m
  | .step m _ _ => some m
  | .fin1 m => some m
  | .fin2 m => some m
  | .endRun => none

/-- `t` is `s` but for slot `m`, and `di` has advanced (R24, R44): no other slot, no CSR, no run register, no byte of either
memory and nothing of the environment changed. -/
structure SlotFrame (m : Nat) (s t : State) : Prop where
  /-- outside the slots and `di` nothing changed -/
  rest : t = { s with slots := t.slots, di := s.di + 1 }
  /-- the slots are as many as before -/
  count : t.slots.length = s.slots.length
  /-- no other slot changed -/
  others : ∀ k, k ≠ m → t.slots[k]? = s.slots[k]?
  /-- every byte of the table memory reads as before -/
  table : ∀ a, memRead t.tbl a = memRead s.tbl a
  /-- every byte of the message memory reads as before -/
  message : ∀ a, memRead t.msg a = memRead s.msg a

/-- The digest bytes from index `h` up are 0. -/
def digestZeroFrom (h : Nat) (dig : Digest) : Bool :=
  (List.range 32).all fun i => decide (i < h) || dig[i]? == some 0

/-- Below this index a digest may hold nonzero bytes: none before a configuration is locked, `HASHSIZE` after (R36). -/
def digestBound (s : State) : Nat :=
  match s.mode with
  | .unconfig => 0
  | .ready => s.hashSize.toNat
  | .busy => s.hashSize.toNat

/-- A value `ERR` can hold (R37, R201, R202): a code 0 to 6, and causes, of the six, exactly when the code is 1. -/
def errLegal (e : Word) : Bool :=
  let code := e.toNat % 256
  let cause := e.toNat / 256
  decide (code ≤ 6) && (if code = 1 then decide (1 ≤ cause) && decide (cause < 64) else decide (cause = 0))

/-- The run registers name a run that was accepted (R170, R180): members that exist, descriptors that do not wrap, and a
dispatch index within the sequence; `ERR` is 0, as acceptance left it. -/
def runLegal (s : State) : Bool :=
  s.err == 0 && decide (s.di.toNat ≤ 100 * s.members) && decide (s.firstSlot + s.members ≤ nslots s) &&
    ((s.slots.drop s.firstSlot).take s.members).all descOk

/-- The invariant: holds at reset, and every step keeps it. -/
structure Inv (s : State) : Prop where
  /-- `NSLOTS` is at least 1 (R9) -/
  slots_pos : 1 ≤ nslots s
  /-- `NSLOTS` is at most 256 (R9) -/
  slots_max : nslots s ≤ 256
  /-- the table memory is in canonical form -/
  tbl_wf : Memory.wf s.tbl = true
  /-- the message memory is in canonical form -/
  msg_wf : Memory.wf s.msg = true
  /-- the table memory lists only addresses it has (R62) -/
  tbl_below : memBelow (2 ^ s.mapBitsMax.val) s.tbl = true
  /-- the message memory lists only addresses it has (R63) -/
  msg_below : memBelow (2 ^ 64) s.msg = true
  /-- outside a STEP `STG` is 0 (R25) -/
  stage_zero : s.stg = 0
  /-- a locked configuration is valid (R123, R125) -/
  locked_valid : s.mode ≠ .unconfig → configValid s = true
  /-- while no run is active `di` is 0 (R24) -/
  idle_index : s.mode ≠ .busy → s.di = 0
  /-- an active run is one that was accepted (R24) -/
  run_legal : s.mode = .busy → runLegal s = true
  /-- `ERR` holds a value of its table (R37) -/
  err_legal : errLegal s.err = true
  /-- digest bytes at and above the digest's length are 0 (R36) -/
  digest_zero : (s.slots.all fun sl => digestZeroFrom (digestBound s) sl.dig) = true

/-- The next thing the host does, if it is a table write that the platform lets through, is a write the table memory has an
address for (R62, R126). -/
def hostInRange (s : State) : Bool :=
  match s.inputs with
  | .tblWrite a _ :: _ => tblLock s || decide (a.toNat < 2 ^ s.mapBitsMax.val)
  | _ => true

/-- Every state element to which R45 gives a value has it; `A`, `L` and `SRC`, to which it gives none, are not spoken of. -/
structure ResetValues (t : State) : Prop where
  mode : t.mode = .unconfig
  err : t.err = 0
  seed : t.seed = 0
  mapSize : t.mapSize = 0
  tblLen : t.tblLen = 0
  hashSize : t.hashSize = 0
  tPasses : t.tPasses = 0
  variant : t.variant = 0
  di : t.di = 0
  stg : t.stg = 0
  runKind : t.runKind = .single
  runBase : t.runBase = 0
  runCnt : t.runCnt = 0
  /-- descriptors 0 -/
  descriptors : ∀ (m : Nat) (sl : Slot), t.slots[m]? = some sl → sl.msgAddr = 0 ∧ sl.msgLen = 0
  /-- digest bytes 0 -/
  digests : ∀ (m : Nat) (sl : Slot), t.slots[m]? = some sl → ∀ i < 32, sl.dig[i]? = some 0
  /-- the output `TBL_LOCK` is 0 -/
  unlocked : tblLock t = false

/-- The parameters, the two memories outside the block and the host's side are those of `s`: what a reset does not touch
(R9, R230). -/
structure SameOutside (s t : State) : Prop where
  nslots : nslots t = nslots s
  mapBitsMax : t.mapBitsMax = s.mapBitsMax
  table : ∀ a, memRead t.tbl a = memRead s.tbl a
  message : ∀ a, memRead t.msg a = memRead s.msg a
  inputs : t.inputs = s.inputs
  answers : t.answers = s.answers

/-- `k` steps of the machine behind the host's interface. -/
def runSteps (k : Nat) (s : State) : Host.Outcome State Fault Refusal := Host.Core.run Sys2Proof.core k s

/-- RESETN is 1 at the coming step. -/
def running (s : State) : Bool := s.resetn.head? != some false

/-- The state after the host's first access is taken from `inputs` in a step with RESETN at 1. -/
def afterTaking (s : State) (rest : List Input) : State := { s with inputs := rest, resetn := s.resetn.tail }

end Sys2Proof.Machine
end

