-- ==== Sys2Proof/Certificates/Slice0/Obligations.lean ====
section
/-!
DEFINITION. The statements for the provers, each from a numbered rule of the spec or from several.
-/
open Sys2Proof Sys2Proof.Machine

/-! ## Encoding -/

/-- R91, R92, R100, R101: decoding the word of any well-formed instruction, as the kind of word it is, gives it back. -/
def Obligations.DecodeOfEncodeIsTheInstruction : Prop :=
  ∀ i : Instr, i.wellFormed = true → decode i.kind (encode i) = .ok i

/-- R92, R101: every word a decoder accepts is the encoding of the well-formed instruction it gives. -/
def Obligations.AcceptedWordIsItsEncoding : Prop :=
  ∀ (k : WordKind) (w : CmdWord) (i : Instr), decode k w = .ok i → i.wellFormed = true ∧ i.kind = k ∧ encode i = w

/-- Words of the tables of R92 and R101 written out (V-ENC-CMD, V-ENC-UOP of `95_test_vectors.md`). -/
def Obligations.WrittenOutWordsDecode : Prop :=
  decodeCommand 0x00000000 = .ok .nop ∧ decodeCommand 0x01000000 = .ok .cfglock ∧ decodeCommand 0x02000000 = .ok .srst ∧
  decodeCommand 0x10000003 = .ok (.hash 3) ∧ decodeCommand 0x1100FFFF = .ok (.batch 65535) ∧
  decodeDispatch 0x10100000 = .ok (.init 1) ∧ decodeDispatch 0x20300000 = .ok (.prep 3) ∧
  decodeDispatch 0x30300000 = .ok (.fold4 3) ∧ decodeDispatch 0x40001404 = .ok (.step 0 4 20) ∧
  decodeDispatch 0x50200000 = .ok (.fin1 2) ∧ decodeDispatch 0x60300000 = .ok (.fin2 3) ∧
  decodeDispatch 0xF0000000 = .ok .endRun

/-- R95: the command words that match no row are exactly those with an `OPC` other than 0x00, 0x01, 0x02, 0x10, 0x11, with `RSV`
not 0, `NOP`, `CFGLOCK` or `SRST` with `ARG` not 0, and `HASH` with bits 15:8 not 0; written to `CMD` such a word is refused with
`ILLCMD` in every `STATE` in which the host is answered, and has no other effect. Bits 63:32 of the written value do not matter. -/
def Obligations.IllegalCommandWordsAreRefused : Prop :=
  (∀ w : CmdWord, (∃ e, decodeCommand w = .error e) ↔
    ((w.extractLsb' 24 8 ≠ 0x00 ∧ w.extractLsb' 24 8 ≠ 0x01 ∧ w.extractLsb' 24 8 ≠ 0x02 ∧ w.extractLsb' 24 8 ≠ 0x10 ∧
        w.extractLsb' 24 8 ≠ 0x11) ∨
      w.extractLsb' 16 8 ≠ 0 ∨
      ((w.extractLsb' 24 8 = 0x00 ∨ w.extractLsb' 24 8 = 0x01 ∨ w.extractLsb' 24 8 = 0x02) ∧ w.extractLsb' 0 16 ≠ 0) ∨
      (w.extractLsb' 24 8 = 0x10 ∧ w.extractLsb' 8 8 ≠ 0))) ∧
  ∀ (s : State) (v : Word) (rest : List Input), running s = true → s.mode ≠ .busy → s.inputs = .write 0x002 v :: rest →
    (∃ e, decodeCommand (v.extractLsb' 0 32) = .error e) → step s = .next { afterTaking s rest with err := 3 }

/-! ## What a step does -/

/-- R93, R172: with RESETN at 1, a value written to `CMD` whose bits 31:0 decode to an instruction runs that instruction on the
state from which the access is taken; during a run the word at the dispatch index runs the instruction it decodes to. Around
`exec` a step only takes the access and moves RESETN's levels on by one. -/
def Obligations.StepRunsTheDecodedInstruction : Prop :=
  (∀ (s : State) (v : Word) (rest : List Input) (i : Instr), running s = true → s.mode ≠ .busy →
    s.inputs = .write 0x002 v :: rest → decodeCommand (v.extractLsb' 0 32) = .ok i →
    step s = exec i (afterTaking s rest)) ∧
  ∀ (s : State) (w : CmdWord) (i : Instr), running s = true → s.mode = .busy → s.dispatchWord = some w →
    decodeDispatch w = .ok i → step s = exec i { s with resetn := s.resetn.tail }

/-- R230: a step with RESETN at 0, from any state, a run in progress or not, leaves every element at its reset value; the
memories, being outside the block, and the host's pending accesses stay (log 9 for the latter). -/
def Obligations.ResetPinResetsEveryState : Prop :=
  ∀ (s : State) (rest : List Bool), s.resetn = false :: rest →
    ∃ t, step s = .next t ∧ ResetValues t ∧ SameOutside s t ∧ t.resetn = rest

/-- R27, R13: while a run is active no host access is answered or taken, whatever the step does. -/
def Obligations.HostAccessesWaitDuringRun : Prop :=
  ∀ s t : State, running s = true → s.mode = .busy → step s = .next t → t.inputs = s.inputs ∧ t.answers = s.answers

/-- R4, R13, R21 to R23, R240 (H11): HOST and SEQ take turns, SEQ while a run is active and HOST otherwise. A step of SEQ writes no
byte of either memory and takes no host access; a step of HOST, whatever it writes, leaves every accumulator, lane and source byte as it
was, or is an `SRST`. -/
def Obligations.AgentsTakeTurns : Prop :=
  ∀ s t : State, running s = true → step s = .next t →
    (mover s = .seq ↔ s.mode = .busy) ∧ (mover s = .host ↔ s.mode ≠ .busy) ∧
    (mover s = .seq → t.inputs = s.inputs ∧ t.answers = s.answers ∧
      (∀ a, memRead t.tbl a = memRead s.tbl a) ∧ ∀ a, memRead t.msg a = memRead s.msg a) ∧
    (mover s = .host →
      (∀ (m : Nat) (x y : Slot), s.slots[m]? = some x → t.slots[m]? = some y →
        y.acc = x.acc ∧ y.lanes = x.lanes ∧ y.src = x.src) ∨
      ∃ v rest, s.inputs = .write 0x002 v :: rest ∧ decodeCommand (v.extractLsb' 0 32) = .ok .srst)

/-- R27, R128: a CSR read, of any index, answers the value of the CSR and changes nothing else. -/
def Obligations.CsrReadHasNoSideEffect : Prop :=
  ∀ (s : State) (k : BitVec 12) (rest : List Input), running s = true → s.mode ≠ .busy → s.inputs = .read k :: rest →
    step s = .next { afterTaking s rest with answers := s.answers ++ [csrRead s k] }

/-- R216, R231: with no run active and no access pending the block keeps all state. -/
def Obligations.IdleStepKeepsTheState : Prop :=
  ∀ s : State, running s = true → s.mode ≠ .busy → s.inputs = [] → step s = .next { s with resetn := s.resetn.tail }

/-! ## Control and status registers -/

/-- R28, R35, R38: what each index reads: `STATUS` the number of `STATE`, the stored CSRs their value, `CMD` 0, the descriptors
of each slot; reserved indices and the indices of slots the instance does not have 0. -/
def Obligations.CsrReadMapIsTheSpecs : Prop :=
  ∀ s : State,
    (s.mode = .unconfig → csrRead s 0x000 = 0) ∧ (s.mode = .ready → csrRead s 0x000 = 1) ∧
    (s.mode = .busy → csrRead s 0x000 = 2) ∧
    csrRead s 0x001 = s.err ∧ csrRead s 0x002 = 0 ∧ csrRead s 0x008 = s.seed ∧ csrRead s 0x009 = s.mapSize ∧
    csrRead s 0x00A = s.tblLen ∧ csrRead s 0x00B = s.hashSize ∧ csrRead s 0x00C = s.tPasses ∧
    csrRead s 0x00D = s.variant ∧
    (∀ k : BitVec 12, (0x004 ≤ k.toNat ∧ k.toNat ≤ 0x007) ∨ (0x00E ≤ k.toNat ∧ k.toNat ≤ 0x0FF) → csrRead s k = 0) ∧
    (∀ m sl, m < 256 → s.slots[m]? = some sl →
      csrRead s (BitVec.ofNat 12 (0x100 + 8 * m)) = sl.msgAddr ∧
      csrRead s (BitVec.ofNat 12 (0x100 + 8 * m + 1)) = sl.msgLen ∧
      csrRead s (BitVec.ofNat 12 (0x100 + 8 * m + 2)) = 0 ∧ csrRead s (BitVec.ofNat 12 (0x100 + 8 * m + 3)) = 0) ∧
    ∀ k : BitVec 12, 0x100 + 8 * nslots s ≤ k.toNat → csrRead s k = 0

/-- R36: `DIGW[s][w][8k+7 : 8k] = DIG[s][8w + k]`, for every slot, word and byte. -/
def Obligations.DigestWordsAreLittleEndian : Prop :=
  ∀ (s : State) (m w k : Nat) (sl : Slot), m < 256 → s.slots[m]? = some sl → w < 4 → k < 8 →
    sl.dig[8 * w + k]? = some ((csrRead s (BitVec.ofNat 12 (0x100 + 8 * m + 4 + w))).extractLsb' (8 * k) 8)

/-- R40: the fields of `CAP`, and that no step changes it, whatever the host writes. -/
def Obligations.CapHoldsTheParameters : Prop :=
  (∀ s t : State, step s = .next t → csrRead t 0x003 = csrRead s 0x003) ∧
  ∀ s : State, nslots s ≤ 256 →
    ((csrRead s 0x003).extractLsb' 0 9).toNat = nslots s ∧ (csrRead s 0x003).extractLsb' 9 7 = 0 ∧
    ((csrRead s 0x003).extractLsb' 16 6).toNat = s.mapBitsMax.val ∧ (csrRead s 0x003).extractLsb' 22 2 = 0 ∧
    (csrRead s 0x003).extractLsb' 24 8 = 32 ∧ (csrRead s 0x003).extractLsb' 32 8 = 3 ∧
    (csrRead s 0x003).extractLsb' 40 8 = 32 ∧ (csrRead s 0x003).extractLsb' 48 8 = 9 ∧
    (csrRead s 0x003).extractLsb' 56 8 = 0

/-- R29 to R34, R128: while `STATE` is 0 a write to a configuration CSR stores all 64 bits, legal or not, and nothing else. -/
def Obligations.ConfigurationWritesStoreWhileUnlocked : Prop :=
  ∀ (s : State) (v : Word) (rest : List Input), running s = true → s.mode = .unconfig →
    (s.inputs = .write 0x008 v :: rest → step s = .next { afterTaking s rest with seed := v }) ∧
    (s.inputs = .write 0x009 v :: rest → step s = .next { afterTaking s rest with mapSize := v }) ∧
    (s.inputs = .write 0x00A v :: rest → step s = .next { afterTaking s rest with tblLen := v }) ∧
    (s.inputs = .write 0x00B v :: rest → step s = .next { afterTaking s rest with hashSize := v }) ∧
    (s.inputs = .write 0x00C v :: rest → step s = .next { afterTaking s rest with tPasses := v }) ∧
    (s.inputs = .write 0x00D v :: rest → step s = .next { afterTaking s rest with variant := v })

/-- R125: while `STATE` is 1 a write to a configuration CSR changes nothing and is not reported, and while `STATE` is 1 or 2 no
step of any kind changes one, unless it ends the locked period by a reset (`STATE` 0). -/
def Obligations.LockedConfigurationIsImmutable : Prop :=
  (∀ (s : State) (k : BitVec 12) (v : Word) (rest : List Input), running s = true → s.mode = .ready →
    0x008 ≤ k.toNat → k.toNat ≤ 0x00D → s.inputs = .write k v :: rest → step s = .next (afterTaking s rest)) ∧
  ∀ s t : State, s.mode ≠ .unconfig → step s = .next t →
    (t.mode ≠ .unconfig ∧ t.seed = s.seed ∧ t.mapSize = s.mapSize ∧ t.tblLen = s.tblLen ∧ t.hashSize = s.hashSize ∧
      t.tPasses = s.tPasses ∧ t.variant = s.variant) ∨
    (t.mode = .unconfig ∧ ResetValues t)

/-- R39, R27: a write to a descriptor CSR stores all 64 bits in `STATE` 0 and 1 alike, in that slot and nowhere else; for a slot
the instance does not have it changes nothing. -/
def Obligations.DescriptorWritesStoreInEveryState : Prop :=
  ∀ (s : State) (m : Nat) (v : Word) (rest : List Input), running s = true → s.mode ≠ .busy → m < 256 →
    (∀ sl, s.slots[m]? = some sl → s.inputs = .write (BitVec.ofNat 12 (0x100 + 8 * m)) v :: rest →
      step s = .next { afterTaking s rest with slots := s.slots.set m { sl with msgAddr := v } }) ∧
    (∀ sl, s.slots[m]? = some sl → s.inputs = .write (BitVec.ofNat 12 (0x100 + 8 * m + 1)) v :: rest →
      step s = .next { afterTaking s rest with slots := s.slots.set m { sl with msgLen := v } }) ∧
    (nslots s ≤ m → (s.inputs = .write (BitVec.ofNat 12 (0x100 + 8 * m)) v :: rest ∨
        s.inputs = .write (BitVec.ofNat 12 (0x100 + 8 * m + 1)) v :: rest) → step s = .next (afterTaking s rest))

/-- R27, R28, R128: a write to a read-only CSR, to a reserved index or to any index of a slot the instance does not have changes
nothing, `ERR` included. -/
def Obligations.WritesToReadOnlyIndicesChangeNothing : Prop :=
  ∀ (s : State) (k : BitVec 12) (v : Word) (rest : List Input), running s = true → s.mode ≠ .busy →
    (k = 0x000 ∨ k = 0x001 ∨ (0x003 ≤ k.toNat ∧ k.toNat ≤ 0x007) ∨ (0x00E ≤ k.toNat ∧ k.toNat ≤ 0x0FF) ∨
      (0x100 ≤ k.toNat ∧ 2 ≤ (k.toNat - 0x100) % 8) ∨ 0x100 + 8 * nslots s ≤ k.toNat) →
    s.inputs = .write k v :: rest → step s = .next (afterTaking s rest)

/-- R37: `ERR` changes only by a write to `CMD`, taken while no run is active, or by a reset. -/
def Obligations.ErrChangesOnlyByCommandOrReset : Prop :=
  ∀ s t : State, step s = .next t → t.err ≠ s.err →
    s.resetn.head? = some false ∨ (s.mode ≠ .busy ∧ ∃ v rest, s.inputs = .write 0x002 v :: rest)

/-- R126: `TBL_LOCK` is 1 exactly while `STATE` is 1 or 2, and while it is 1 no step changes a byte of the table memory. That a
table write is then refused without effect, and not held, is the model's choice (log 10). -/
def Obligations.TableIsImmutableWhileLocked : Prop :=
  (∀ s : State, tblLock s = true ↔ (s.mode = .ready ∨ s.mode = .busy)) ∧
  ∀ s t : State, tblLock s = true → step s = .next t → ∀ a, memRead t.tbl a = memRead s.tbl a

/-- R42, R63, R126: the host's byte writes: the message memory takes them whenever no run is active, the table memory while
`TBL_LOCK` is 0 and the address is one it has; the byte written then reads back and every other byte reads as before. -/
def Obligations.HostByteWritesReadBack : Prop :=
  ∀ (s : State) (a : Word) (b : Byte) (rest : List Input), running s = true → s.mode ≠ .busy →
    (Memory.wf s.msg = true → s.inputs = .msgWrite a b :: rest →
      ∃ msg', step s = .next { afterTaking s rest with msg := msg' } ∧ Memory.wf msg' = true ∧
        ∀ c, memRead msg' c = if c = a.toNat then b else memRead s.msg c) ∧
    (Memory.wf s.tbl = true → s.mode = .unconfig → a.toNat < 2 ^ s.mapBitsMax.val → s.inputs = .tblWrite a b :: rest →
      ∃ tbl', step s = .next { afterTaking s rest with tbl := tbl' } ∧ Memory.wf tbl' = true ∧
        ∀ c, memRead tbl' c = if c = a.toNat then b else memRead s.tbl c)

/-! ## Configuration commands -/

/-- R121: `NOP` is the word 0 alone among words with `OPC` 0; in every `STATE` it sets `ERR` to 0 and changes nothing else. -/
def Obligations.NopClearsErrOnly : Prop :=
  decodeCommand 0x00000000 = .ok .nop ∧
  (∀ w : CmdWord, w.extractLsb' 24 8 = 0 → w ≠ 0 → decodeCommand w = .error (.illegalCommand w)) ∧
  ∀ s : State, exec .nop s = .next { s with err := 0 }

/-- R123, R124: `CFGLOCK` in `STATE` 0 locks every valid configuration: `MAPSIZE` a power of two not above `2^MAPBITS_MAX`, `TBLLEN`
equal to it, and variant 1 with 1 to 32 lanes or variant 2 with 32. -/
def Obligations.CfglockLocksAValidConfiguration : Prop :=
  ∀ s : State, s.mode = .unconfig → (∃ b, b ≤ s.mapBitsMax.val ∧ s.mapSize.toNat = 2 ^ b) → s.tblLen = s.mapSize →
    ((s.variant = 1 ∧ 1 ≤ s.hashSize.toNat ∧ s.hashSize.toNat ≤ 32) ∨ (s.variant = 2 ∧ s.hashSize = 32)) →
    exec .cfglock s = .next { s with mode := .ready, err := 0 }

/-- R123, R124, R202: `CFGLOCK` in `STATE` 0 refuses every other configuration, with `CODE` 1 and one bit of `ERR` for each failing
check, all together; nothing but `ERR` changes. -/
def Obligations.CfglockReportsEveryFailingCheck : Prop :=
  ∀ s : State, s.mode = .unconfig →
    ((¬ ∃ b, s.mapSize.toNat = 2 ^ b) ∨ 2 ^ s.mapBitsMax.val < s.mapSize.toNat ∨ s.tblLen ≠ s.mapSize ∨
      ¬ (1 ≤ s.hashSize.toNat ∧ s.hashSize.toNat ≤ 32) ∨ (s.variant ≠ 1 ∧ s.variant ≠ 2) ∨
      (s.variant = 2 ∧ s.hashSize ≠ 32)) →
    ∃ e : Word, exec .cfglock s = .next { s with err := e } ∧ e.extractLsb' 0 8 = 1 ∧
      (e.getLsbD 8 = true ↔ ¬ ∃ b, s.mapSize.toNat = 2 ^ b) ∧
      (e.getLsbD 9 = true ↔ 2 ^ s.mapBitsMax.val < s.mapSize.toNat) ∧
      (e.getLsbD 10 = true ↔ s.tblLen ≠ s.mapSize) ∧
      (e.getLsbD 11 = true ↔ ¬ (1 ≤ s.hashSize.toNat ∧ s.hashSize.toNat ≤ 32)) ∧
      (e.getLsbD 12 = true ↔ s.variant ≠ 1 ∧ s.variant ≠ 2) ∧
      (e.getLsbD 13 = true ↔ s.variant = 2 ∧ s.hashSize ≠ 32) ∧ e.toNat < 2 ^ 14

/-- R127, R45: `SRST` in `STATE` 0 and 1 leaves every element at its reset value and touches neither the parameters, the memories
nor the host's side. That `exec` does the same in `STATE` 2, where the rule says it cannot arrive, is the model's choice (log 13). -/
def Obligations.SrstResetsTheBlock : Prop :=
  decodeCommand 0x02000000 = .ok .srst ∧
  ∀ s : State, ∃ t, exec .srst s = .next t ∧ ResetValues t ∧ SameOutside s t ∧ t.resetn = s.resetn

/-- R45, R230: after hardware reset, on an instance of any size, every element has its reset value, and `CAP` its constant. -/
def Obligations.ResetLeavesTheResetValues : Prop :=
  ∀ (n : Nat) (b : Fin 64), ResetValues (State.resetOf n b) ∧ nslots (State.resetOf n b) = n ∧
    (State.resetOf n b).mapBitsMax = b

/-! ## Commands that hash: acceptance and refusal -/

/-- R170: `HASH slot` in `STATE` 1 with a slot the instance has and a descriptor that does not pass 2^64 is accepted: `ERR` 0, the run
registers those of a single run of that slot, `di` 0, `STATE` 2, nothing else changed. -/
def Obligations.HashIsAccepted : Prop :=
  ∀ (s : State) (slot : Nat) (sl : Slot), s.mode = .ready → s.slots[slot]? = some sl →
    sl.msgAddr.toNat + sl.msgLen.toNat ≤ 2 ^ 64 →
    exec (.hash slot) s = .next { s with err := 0, runKind := .single, runBase := BitVec.ofNat 8 slot, runCnt := 1, di := 0, mode := .busy }

/-- R180, R186: `BATCH n` in `STATE` 1 with `n` at most `NSLOTS`, 0 included, and no descriptor of slots below `n` passing 2^64 is
accepted: `ERR` 0, the run registers those of a batch of `n`, `di` 0, `STATE` 2, nothing else changed. -/
def Obligations.BatchIsAccepted : Prop :=
  ∀ (s : State) (n : Nat), s.mode = .ready → n ≤ nslots s →
    (∀ m sl, m < n → s.slots[m]? = some sl → sl.msgAddr.toNat + sl.msgLen.toNat ≤ 2 ^ 64) →
    exec (.batch n) s = .next { s with err := 0, runKind := .batch, runBase := 0, runCnt := BitVec.ofNat 9 n, di := 0, mode := .busy }

/-- R204, R201: which command is accepted in which `STATE`, 0 or 1, and the code of every refusal; in `STATE` 2 no command is taken. -/
def Obligations.AcceptanceByState : Prop :=
  (∀ s t : State, running s = true → s.mode = .busy → step s = .next t → t.inputs = s.inputs) ∧
  (∀ (s : State) (v : Word) (rest : List Input), running s = true → s.mode ≠ .busy → s.inputs = .write 0x002 v :: rest →
    (∃ e, decodeCommand (v.extractLsb' 0 32) = .error e) → step s = .next { afterTaking s rest with err := 3 }) ∧
  ∀ s : State, s.mode ≠ .busy →
    (∃ t, exec .nop s = .next t ∧ t.err = 0) ∧ (∃ t, exec .srst s = .next t ∧ t.err = 0) ∧
    (s.mode = .unconfig → configValid s = true → exec .cfglock s = .next { s with mode := .ready, err := 0 }) ∧
    (s.mode = .unconfig → configValid s = false →
      ∃ e : Word, exec .cfglock s = .next { s with err := e } ∧ e.extractLsb' 0 8 = 1) ∧
    (s.mode = .ready → exec .cfglock s = .next { s with err := 6 }) ∧
    (s.mode = .unconfig → ∀ n, exec (.hash n) s = .next { s with err := 2 } ∧ exec (.batch n) s = .next { s with err := 2 }) ∧
    (s.mode = .ready → ∀ slot, nslots s ≤ slot → exec (.hash slot) s = .next { s with err := 4 }) ∧
    (s.mode = .ready → ∀ slot sl, s.slots[slot]? = some sl → 2 ^ 64 < sl.msgAddr.toNat + sl.msgLen.toNat →
      exec (.hash slot) s = .next { s with err := 5 }) ∧
    (s.mode = .ready → ∀ slot sl, s.slots[slot]? = some sl → sl.msgAddr.toNat + sl.msgLen.toNat ≤ 2 ^ 64 →
      ∃ t, exec (.hash slot) s = .next t ∧ t.mode = .busy ∧ t.err = 0) ∧
    (s.mode = .ready → ∀ n, nslots s < n → exec (.batch n) s = .next { s with err := 4 }) ∧
    (s.mode = .ready → ∀ n m sl, n ≤ nslots s → m < n → s.slots[m]? = some sl →
      2 ^ 64 < sl.msgAddr.toNat + sl.msgLen.toNat → exec (.batch n) s = .next { s with err := 5 }) ∧
    (s.mode = .ready → ∀ n, n ≤ nslots s →
      (∀ m sl, m < n → s.slots[m]? = some sl → sl.msgAddr.toNat + sl.msgLen.toNat ≤ 2 ^ 64) →
      ∃ t, exec (.batch n) s = .next t ∧ t.mode = .busy ∧ t.err = 0)

/-- R203: a refused command leaves the state as it was but for `ERR`, which holds the code, with bits 63:8 zero unless the code is
`CFGINVALID`; and every command answers a next state. What `exec` of a command does in `STATE` 2, where no command arrives (R204), is
the model's choice (log 13). -/
def Obligations.RefusalChangesOnlyErr : Prop :=
  ∀ (i : Instr) (s : State), i.kind = .command →
    ∃ t, exec i s = .next t ∧ errLegal t.err = true ∧ (t.err ≠ 0 → t = { s with err := t.err }) ∧
      (t.err.extractLsb' 0 8 ≠ 1 → t.err.toNat < 256)

/-! ## Dispatched operations -/

/-- R141: `INIT m`: the accumulator is the seed, the lanes below `HASHSIZE` are 0 and the others unchanged, `di` advances; source,
digest and descriptor of the slot, every other slot, every CSR and memory byte unchanged. -/
def Obligations.InitSetsSeedAndZeroLanes : Prop :=
  ∀ (s : State) (m : Nat) (sl : Slot), s.slots[m]? = some sl → s.hashSize.toNat ≤ 32 →
    ∃ t sl', exec (.init m) s = .next t ∧ SlotFrame m s t ∧ t.slots[m]? = some sl' ∧ sl'.acc = s.seed ∧
      (∀ i < 32, i < s.hashSize.toNat → sl'.lanes[i]? = some 0) ∧
      (∀ i, s.hashSize.toNat ≤ i → sl'.lanes[i]? = sl.lanes[i]?) ∧
      sl'.src = sl.src ∧ sl'.dig = sl.dig ∧ sl'.msgAddr = sl.msgAddr ∧ sl'.msgLen = sl.msgLen

/-- R142, R64: `PREP m`: the source buffer takes the digest of the digest of the message, the `MSGLEN` bytes from `MSGADDR` up, the
empty message included; `di` advances; nothing else changes. -/
def Obligations.PrepDigestsTheMessageTwice : Prop :=
  ∀ (s : State) (m : Nat) (sl : Slot) (message : List Byte), s.slots[m]? = some sl →
    sl.msgAddr.toNat + sl.msgLen.toNat ≤ 2 ^ 64 → message.length = sl.msgLen.toNat →
    (∀ k, k < sl.msgLen.toNat → message[k]? = some (memRead s.msg (sl.msgAddr.toNat + k))) →
    ∃ t sl', exec (.prep m) s = .next t ∧ SlotFrame m s t ∧ t.slots[m]? = some sl' ∧
      sl' = { sl with src := Config.digest (Config.digest message).toList }

/-- R143: `FOLD4 m`: the accumulator is xored with `b0 + 2^8 b1 + 2^16 b2 + 2^24 b3`, the little-endian value of source bytes 0 to 3;
so bits 63:32 keep their value; `di` advances; nothing else changes. Its word is `UOP` 0x3 with the slot in bits 27:20. -/
def Obligations.Fold4FoldsFourSourceBytes : Prop :=
  (∀ m, m < 256 → decodeDispatch (BitVec.ofNat 32 (0x30000000 + 2 ^ 20 * m)) = .ok (.fold4 m)) ∧
  ∀ (s : State) (m : Nat) (sl : Slot) (b0 b1 b2 b3 : Byte), s.slots[m]? = some sl → sl.src[0]? = some b0 →
    sl.src[1]? = some b1 → sl.src[2]? = some b2 → sl.src[3]? = some b3 →
    ∃ t sl', exec (.fold4 m) s = .next t ∧ SlotFrame m s t ∧ t.slots[m]? = some sl' ∧
      sl' = { sl with acc := sl.acc ^^^ BitVec.ofNat 64 (b0.toNat + 2 ^ 8 * b1.toNat + 2 ^ 16 * b2.toNat + 2 ^ 24 * b3.toNat) } ∧
      sl'.acc >>> 32 = sl.acc >>> 32

/-- R152 to R156: `STEP m, lane, pos` under a table size the instance has: the eleven stages written out with their shift amounts;
the accumulator and the one lane change, `di` advances, nothing else changes. Its word is `UOP` 0x4 with the slot in bits 27:20, the
position in 12:8 and the lane in 4:0. -/
def Obligations.StepRunsItsElevenStages : Prop :=
  (∀ m lane pos, m < 256 → lane < 32 → pos < 32 →
    decodeDispatch (BitVec.ofNat 32 (0x40000000 + 2 ^ 20 * m + 2 ^ 8 * pos + lane)) = .ok (.step m lane pos)) ∧
  ∀ (s : State) (m lane pos : Nat) (sl : Slot) (l0 : Word) (b : Byte), s.slots[m]? = some sl →
    lane < s.hashSize.toNat → sl.lanes[lane]? = some l0 → sl.src[pos]? = some b →
    s.mapSize ≠ 0 → s.mapSize.toNat ≤ 2 ^ s.mapBitsMax.val →
    let look : Nat → Nat → Word → Word := fun s1 s2 a =>
      (a <<< s1) ^^^ (a >>> s2) ^^^ (memRead s.tbl ((b.setWidth 64 ^^^ a) &&& (s.mapSize - 1)).toNat).setWidth 64
    let a0 := sl.acc ^^^ (sl.acc <<< 23) ^^^ (sl.acc >>> 11) ^^^ l0
    let a4 := look 19 7 (look 17 5 (look 11 3 (look 13 1 a0)))
    let a9 := look 13 1 (look 19 7 (look 17 5 (look 11 3 (look 13 1 a4))))
    ∃ t sl', exec (.step m lane pos) s = .next t ∧ SlotFrame m s t ∧ t.slots[m]? = some sl' ∧ sl'.acc = a9 ∧
      sl'.lanes[lane]? = some ((l0 <<< 8) ^^^ (l0 >>> 1) ^^^ a9) ∧
      (∀ i, i ≠ lane → sl'.lanes[i]? = sl.lanes[i]?) ∧
      sl'.src = sl.src ∧ sl'.dig = sl.dig ∧ sl'.msgAddr = sl.msgAddr ∧ sl'.msgLen = sl.msgLen

/-- R25, R157: a STEP as one assignment and as eleven stage steps agree, and `STG` counts the stages. -/
def Obligations.StageViewAgreesWithStep : Prop :=
  ∀ (s t : State) (m lane pos : Nat), s.stg = 0 → exec (.step m lane pos) s = .next t →
    runStages m lane pos 11 s = some t ∧ t.stg = 0 ∧
    ∀ k, k ≤ 10 → ∃ u, runStages m lane pos k s = some u ∧ u.stg = BitVec.ofNat 4 k ∧ u.di = s.di

/-- R70, R71: a STEP depends on the table at nine addresses only, each below `MAPSIZE`: with any other table memory that agrees
there it has the same effect. -/
def Obligations.StepReadsNineAddressesInRange : Prop :=
  ∀ (s t : State) (m lane pos : Nat) (sl : Slot) (l0 : Word) (b : Byte), s.slots[m]? = some sl →
    sl.lanes[lane]? = some l0 → sl.src[pos]? = some b → exec (.step m lane pos) s = .next t →
    (mixAddrs (s.mapSize - 1) sl.acc l0 b (memRead s.tbl)).length = 9 ∧
    (∀ a ∈ mixAddrs (s.mapSize - 1) sl.acc l0 b (memRead s.tbl), a.toNat < s.mapSize.toNat) ∧
    ∀ other : Memory,
      (∀ a ∈ mixAddrs (s.mapSize - 1) sl.acc l0 b (memRead s.tbl), memRead other a.toNat = memRead s.tbl a.toNat) →
      exec (.step m lane pos) { s with tbl := other } = .next { t with tbl := other }

/-- R155: the shift amounts of the nine rounds. -/
def Obligations.ShiftScheduleOfNineRounds : Prop :=
  (List.range 9).map (fun r => shiftPair (r + 1)) =
    [(13, 1), (11, 3), (17, 5), (19, 7), (13, 1), (11, 3), (17, 5), (19, 7), (13, 1)]

/-- R191: `FIN1 m`: digest byte `i` below `HASHSIZE` is the low byte of lane `i`, the bytes from `HASHSIZE` up are 0; accumulator and
lanes unchanged; `di` advances; nothing else changes. Its word is `UOP` 0x5 with the slot in bits 27:20. -/
def Obligations.Fin1EmitsLowBytesOfLanes : Prop :=
  (∀ m, m < 256 → decodeDispatch (BitVec.ofNat 32 (0x50000000 + 2 ^ 20 * m)) = .ok (.fin1 m)) ∧
  ∀ (s : State) (m : Nat) (sl : Slot), s.slots[m]? = some sl → s.hashSize.toNat ≤ 32 →
    ∃ t sl', exec (.fin1 m) s = .next t ∧ SlotFrame m s t ∧ t.slots[m]? = some sl' ∧ sl' = { sl with dig := sl'.dig } ∧
      (∀ i l, i < s.hashSize.toNat → sl.lanes[i]? = some l → sl'.dig[i]? = some (l.extractLsb' 0 8)) ∧
      ∀ i, s.hashSize.toNat ≤ i → i < 32 → sl'.dig[i]? = some 0

/-- R192: `FIN2 m`: the chain from the last lane to the first: with `a hs` the accumulator on entry and
`a i = shl64(a (i+1), 8) ^ shr64(a (i+1), 1) ^ L[i]`, digest byte `i` below `HASHSIZE` is the low byte of `a i`, the bytes from
`HASHSIZE` up are 0, and the accumulator is left at `a 0`; lanes unchanged; `di` advances; nothing else changes. Its word is `UOP` 0x6
with the slot in bits 27:20. -/
def Obligations.Fin2ChainsFromLastLaneToFirst : Prop :=
  (∀ m, m < 256 → decodeDispatch (BitVec.ofNat 32 (0x60000000 + 2 ^ 20 * m)) = .ok (.fin2 m)) ∧
  ∀ (s : State) (m : Nat) (sl : Slot) (a : Nat → Word), s.slots[m]? = some sl → s.hashSize.toNat ≤ 32 →
    a s.hashSize.toNat = sl.acc →
    (∀ i l, i < s.hashSize.toNat → sl.lanes[i]? = some l → a i = (a (i + 1) <<< 8) ^^^ (a (i + 1) >>> 1) ^^^ l) →
    ∃ t sl', exec (.fin2 m) s = .next t ∧ SlotFrame m s t ∧ t.slots[m]? = some sl' ∧
      sl' = { sl with acc := a 0, dig := sl'.dig } ∧
      (∀ i, i < s.hashSize.toNat → sl'.dig[i]? = some ((a i).extractLsb' 0 8)) ∧
      ∀ i, s.hashSize.toNat ≤ i → i < 32 → sl'.dig[i]? = some 0

/-- R193: `END`: `STATE` 1, `di` 0, `STG` 0; no slot, not `ERR`, and nothing else changes. -/
def Obligations.EndReturnsToReady : Prop :=
  decodeDispatch 0xF0000000 = .ok .endRun ∧
  ∀ s : State, exec .endRun s = .next { s with mode := .ready, di := 0, stg := 0 }

/-- R102, R206: an instruction answers a next state exactly when its operands, the configuration and the slot's descriptor are
legal for it (`opLegal`); handed a word with a slot not below `NSLOTS`, or a STEP with a lane not below `HASHSIZE`, the datapath
faults naming the word; and no instruction is refused by the model. That INIT, PREP, STEP, FIN1 and FIN2 with a word inside the
table stop on a `HASHSIZE`, `MAPSIZE` or descriptor that no accepted run has is the model's choice (log 14), and so is that commands
answer in `STATE` 2 (log 13). -/
def Obligations.InstructionsStopExactlyWhereNotLegal : Prop :=
  ∀ (i : Instr) (s : State),
    ((∃ t, exec i s = .next t) ↔ opLegal s i = true) ∧
    (∀ m, opSlot i = some m → nslots s ≤ m → exec i s = .fault (.dispatchWord (encode i))) ∧
    (∀ m lane pos, i = .step m lane pos → m < nslots s → s.hashSize.toNat ≤ lane →
      exec i s = .fault (.dispatchWord (encode i))) ∧
    ∀ r, exec i s ≠ .refused r

/-- R44: whatever a dispatched operation on slot `m` answers, no other slot, no CSR, no run register but `di`, and no byte of
either memory has changed. -/
def Obligations.OperationsTouchOnlyTheirSlot : Prop :=
  ∀ (i : Instr) (m : Nat) (s t : State), opSlot i = some m → exec i s = .next t → SlotFrame m s t

/-- R60: no instruction writes a byte of either memory, and none changes the parameters or what the host has yet to do. -/
def Obligations.NoInstructionWritesMemory : Prop :=
  ∀ (i : Instr) (s t : State), exec i s = .next t →
    (∀ a, memRead t.tbl a = memRead s.tbl a) ∧ (∀ a, memRead t.msg a = memRead s.msg a) ∧
    nslots t = nslots s ∧ t.mapBitsMax = s.mapBitsMax ∧ t.inputs = s.inputs ∧ t.answers = s.answers ∧ t.resetn = s.resetn

/-- R60, R5: PREP alone depends on the message memory and STEP alone on the table memory: whatever instruction does not ask for the
bytes of a memory has the same effect with any other contents of it. -/
def Obligations.OnlyPrepAndStepReadMemory : Prop :=
  ∀ (i : Instr) (s t : State) (other : Memory), exec i s = .next t →
    (Agent.tbl ∉ asked i → exec i { s with tbl := other } = .next { t with tbl := other }) ∧
    (Agent.host ∉ asked i → exec i { s with msg := other } = .next { t with msg := other })

/-- R44, R185: what an operation on slot `m` does to that slot depends on nothing of the other slots, the run registers or
`ERR`: two states that agree on the slot, the configuration, the table and the message memory agree on it after. -/
def Obligations.OperationsReadOnlyTheirSlot : Prop :=
  ∀ (i : Instr) (m : Nat) (s u t : State), opSlot i = some m → u.slots[m]? = s.slots[m]? → u.seed = s.seed →
    u.mapSize = s.mapSize → u.hashSize = s.hashSize → u.mapBitsMax = s.mapBitsMax → u.tbl = s.tbl → u.msg = s.msg →
    exec i s = .next t → ∃ t', exec i u = .next t' ∧ t'.slots[m]? = t.slots[m]?

/-- R194: under `FIN2` digest byte `i` is a function of the entry accumulator and of lanes `i` to `HASHSIZE - 1`; under `FIN1` of
lane `i` alone. -/
def Obligations.DigestByteDependsOnHigherLanesOnly : Prop :=
  ∀ (s u s' u' : State) (m i : Nat) (x y x' y' : Slot), s.hashSize = u.hashSize → i < s.hashSize.toNat →
    s.slots[m]? = some x → u.slots[m]? = some y → s'.slots[m]? = some x' → u'.slots[m]? = some y' →
    (exec (.fin2 m) s = .next s' → exec (.fin2 m) u = .next u' → x.acc = y.acc →
      (∀ j, i ≤ j → j < s.hashSize.toNat → x.lanes[j]? = y.lanes[j]?) → x'.dig[i]? = y'.dig[i]?) ∧
    (exec (.fin1 m) s = .next s' → exec (.fin1 m) u = .next u' → x.lanes[i]? = y.lanes[i]? → x'.dig[i]? = y'.dig[i]?)

/-! ## The sequencer -/

/-- R171, R173: `seqSingle(s)` has 101 operations: INIT, PREP, FOLD4, the 96 STEPs at `di = 3 + 32 p + j` with lane `j mod hs`, the
finalizer of the variant, END; and the sequencer dispatches exactly these in a single run. -/
def Obligations.SingleSequenceIsTheSpecs : Prop :=
  ∀ (hs slot : Nat) (variant : Word), variant = 1 ∨ variant = 2 →
    (seqSingle hs variant slot).length = 101 ∧
    (seqSingle hs variant slot)[0]? = some (.init slot) ∧ (seqSingle hs variant slot)[1]? = some (.prep slot) ∧
    (seqSingle hs variant slot)[2]? = some (.fold4 slot) ∧
    (∀ p j, p < 3 → j < 32 → (seqSingle hs variant slot)[3 + 32 * p + j]? = some (.step slot (j % hs) j)) ∧
    (seqSingle hs variant slot)[99]? = some (if variant = 1 then .fin1 slot else .fin2 slot) ∧
    (seqSingle hs variant slot)[100]? = some .endRun ∧
    ∀ k, opAt slot 1 hs variant k = (seqSingle hs variant slot)[k]?

/-- R181, R182: `seqBatch(n)` has `100 n + 1` operations, at the indices the rule gives, and the sequencer dispatches exactly these in
a batch run; for `n = 0` it is END alone, for `n = 1` it is `seqSingle(0)`. -/
def Obligations.BatchSequenceIsTheSpecs : Prop :=
  (∀ (hs n : Nat) (variant : Word), variant = 1 ∨ variant = 2 →
    (seqBatch hs variant n).length = 100 * n + 1 ∧
    (∀ m, m < n → (seqBatch hs variant n)[3 * m]? = some (.init m) ∧ (seqBatch hs variant n)[3 * m + 1]? = some (.prep m) ∧
      (seqBatch hs variant n)[3 * m + 2]? = some (.fold4 m)) ∧
    (∀ p j m, p < 3 → j < 32 → m < n →
      (seqBatch hs variant n)[3 * n + (32 * p + j) * n + m]? = some (.step m (j % hs) j)) ∧
    (∀ m, m < n → (seqBatch hs variant n)[99 * n + m]? = some (if variant = 1 then .fin1 m else .fin2 m)) ∧
    (seqBatch hs variant n)[100 * n]? = some .endRun ∧
    ∀ k, opAt 0 n hs variant k = (seqBatch hs variant n)[k]?) ∧
  ∀ (hs : Nat) (variant : Word), seqBatch hs variant 0 = [.endRun] ∧ seqBatch hs variant 1 = seqSingle hs variant 0

/-- R183: the counter form produces the dispatch sequence: after `k` operations the counters select the operation at index `k`. -/
def Obligations.CountersProduceTheSequence : Prop :=
  ∀ (base n hs k : Nat) (variant : Word), k ≤ 100 * n →
    counterOp base hs variant (countersAfter n k) = opAt base n hs variant k

/-! ## Whole-machine rules -/

/-- The invariant holds after hardware reset, on an instance of any legal size (R9, R45). -/
def Obligations.ResetMeetsTheInvariant : Prop :=
  ∀ (n : Nat) (b : Fin 64), 1 ≤ n → n ≤ 256 → Inv (State.resetOf n b)

/-- Every step keeps the invariant: memories canonical, a locked configuration valid, `di` 0 outside a run and within the
sequence inside one, `STG` 0, `ERR` a value of its table, digest bytes past the digest's length 0 (R24, R25, R36, R37, R123). -/
def Obligations.EveryStepKeepsTheInvariant : Prop :=
  ∀ s t : State, Inv s → step s = .next t → Inv t

/-- R206: from every state that meets the invariant the machine goes on: no fault and no refusal, as long as the table provider
writes where the table memory has an address. -/
def Obligations.NothingCanGoWrong : Prop :=
  ∀ s : State, Inv s → hostInRange s = true → ∃ t, step s = .next t

/-- R241, R250: a run that is active, RESETN at 1, ends after the rest of its `100 n + 1` operations: `STATE` 1, `di` 0, `ERR` still 0,
the host's accesses still waiting. -/
def Obligations.EveryRunEnds : Prop :=
  ∀ s : State, Inv s → s.mode = .busy → s.resetn = [] →
    ∃ t, runSteps (100 * s.members + 1 - s.di.toNat) s = .next t ∧ t.mode = .ready ∧ t.di = 0 ∧ t.err = 0 ∧
      t.inputs = s.inputs ∧ t.answers = s.answers

/-- R35: `STATE` goes 0 to 1 by a successful `CFGLOCK`, 1 to 2 by an accepted HASH or BATCH, 2 to 1 by END, and to 0 by `SRST` or
reset; in no other way does a step change it. -/
def Obligations.StateChangesOnlyAsListed : Prop :=
  ∀ s t : State, step s = .next t →
    t.mode = s.mode ∨
    (t.mode = .unconfig ∧ (s.resetn.head? = some false ∨
      ∃ v rest, s.inputs = .write 0x002 v :: rest ∧ decodeCommand (v.extractLsb' 0 32) = .ok .srst)) ∨
    (s.mode = .unconfig ∧ t.mode = .ready ∧ configValid s = true ∧
      ∃ v rest, s.inputs = .write 0x002 v :: rest ∧ decodeCommand (v.extractLsb' 0 32) = .ok .cfglock) ∨
    (s.mode = .ready ∧ t.mode = .busy ∧ t.err = 0 ∧
      ∃ v rest n, s.inputs = .write 0x002 v :: rest ∧
        (decodeCommand (v.extractLsb' 0 32) = .ok (.hash n) ∨ decodeCommand (v.extractLsb' 0 32) = .ok (.batch n))) ∨
    (s.mode = .busy ∧ t.mode = .ready ∧ ∃ w, s.dispatchWord = some w ∧ decodeDispatch w = .ok .endRun)

/-- R36: a digest register changes only by FIN1 or FIN2 on its slot, inside a run, or by being cleared by hardware reset or by an
`SRST` written to `CMD` outside a run. -/
def Obligations.DigestsChangeOnlyByFinalizerOrReset : Prop :=
  ∀ (s t : State) (m : Nat) (x y : Slot), step s = .next t → s.slots[m]? = some x → t.slots[m]? = some y → y.dig ≠ x.dig →
    (s.mode = .busy ∧ ∃ w, s.dispatchWord = some w ∧
      (decodeDispatch w = .ok (.fin1 m) ∨ decodeDispatch w = .ok (.fin2 m))) ∨
    ((∀ i < 32, y.dig[i]? = some 0) ∧ (s.resetn.head? = some false ∨ (s.mode ≠ .busy ∧
      ∃ v rest, s.inputs = .write 0x002 v :: rest ∧ decodeCommand (v.extractLsb' 0 32) = .ok .srst)))

/-! ## The hash -/

/-- R174: an accepted `HASH slot`, written to `CMD` by the host, and the 101 dispatched operations of its run leave in `DIG[slot]` the
`HASHSIZE` bytes of the closed form of the hash, then zeros; the block is ready, `ERR` and `di` are 0, every other slot and the
configuration are as before. -/
def Obligations.HashRunGivesTheClosedForm : Prop :=
  ∀ (s : State) (slot : Nat) (sl : Slot) (rest : List Input), s.resetn = [] → s.mode = .ready → configValid s = true →
    nslots s ≤ 256 → s.slots[slot]? = some sl → sl.msgAddr.toNat + sl.msgLen.toNat ≤ 2 ^ 64 →
    s.inputs = .write 0x002 (BitVec.ofNat 64 (0x10000000 + slot)) :: rest →
    ∃ t sl', runSteps 102 s = .next t ∧ t.slots[slot]? = some sl' ∧
      sl'.dig.toList = lxr s.hashConfig (memRead s.tbl) Config.digest (slotMessage s sl) ++
        List.replicate (32 - s.hashSize.toNat) 0 ∧
      (∀ m, m ≠ slot → t.slots[m]? = s.slots[m]?) ∧ t.mode = .ready ∧ t.err = 0 ∧ t.di = 0 ∧ t.inputs = rest ∧
      t.hashConfig = s.hashConfig

/-- R185, R174: an accepted `BATCH n` and its `100 n + 1` dispatched operations leave in `DIG[m]` of every member the closed form of the
hash of that member's message, then zeros; slots from `n` up are untouched. -/
def Obligations.BatchRunGivesTheClosedForm : Prop :=
  ∀ (s : State) (n : Nat) (rest : List Input), s.resetn = [] → s.mode = .ready → configValid s = true →
    nslots s ≤ 256 → n ≤ nslots s →
    (∀ m sl, m < n → s.slots[m]? = some sl → sl.msgAddr.toNat + sl.msgLen.toNat ≤ 2 ^ 64) →
    s.inputs = .write 0x002 (BitVec.ofNat 64 (0x11000000 + n)) :: rest →
    ∃ t, runSteps (100 * n + 2) s = .next t ∧
      (∀ m sl, m < n → s.slots[m]? = some sl → ∃ sl', t.slots[m]? = some sl' ∧
        sl'.dig.toList = lxr s.hashConfig (memRead s.tbl) Config.digest (slotMessage s sl) ++
          List.replicate (32 - s.hashSize.toNat) 0) ∧
      (∀ m, n ≤ m → t.slots[m]? = s.slots[m]?) ∧ t.mode = .ready ∧ t.err = 0 ∧ t.di = 0 ∧ t.inputs = rest

/-- R185: batch and single agree: for every member the run of `BATCH n` leaves the digest that the run of `HASH m` leaves from the
same state. -/
def Obligations.BatchEqualsSingle : Prop :=
  ∀ (s sb sh : State) (n m : Nat), s.resetn = [] → s.mode = .ready → configValid s = true → nslots s ≤ 256 →
    n ≤ nslots s → m < n →
    (∀ k sl, k < n → s.slots[k]? = some sl → sl.msgAddr.toNat + sl.msgLen.toNat ≤ 2 ^ 64) →
    sb = { s with inputs := [.write 0x002 (BitVec.ofNat 64 (0x11000000 + n))] } →
    sh = { s with inputs := [.write 0x002 (BitVec.ofNat 64 (0x10000000 + m))] } →
    ∃ tb th x y, runSteps (100 * n + 2) sb = .next tb ∧ runSteps 102 sh = .next th ∧ tb.slots[m]? = some x ∧
      th.slots[m]? = some y ∧ x.dig = y.dig

/-- R175: the hash has `HASHSIZE` bytes, whatever the message, the table, the digest function and the seed. -/
def Obligations.HashLengthIsHashSize : Prop :=
  ∀ (cfg : HashConfig) (table : Nat → Byte) (digest : List Byte → Digest) (message : List Byte),
    (lxr cfg table digest message).length = cfg.hashSize.toNat
end

