-- ==== Sys2Proof/Laws/Memory.lean ====
section
/-!
SUPPORT. The memory laws: a read after a write to the same address gives the byte written, every other address reads as
before, and a write keeps the canonical form.
-/
namespace Sys2Proof.Laws

open Sys2Proof.Machine

/-! The five cases of a write. -/

theorem memWrite_nil_zero (a : Nat) : memWrite [] a 0 = [] := rfl

theorem memWrite_nil (a : Nat) {b : Byte} (hb : b ≠ 0) : memWrite [] a b = [(a, b)] := if_neg hb

theorem memWrite_past {k a : Nat} {v b : Byte} {rest : Memory} (h : k < a) :
    memWrite ((k, v) :: rest) a b = (k, v) :: memWrite rest a b := if_pos h

theorem memWrite_here_zero {k : Nat} {v : Byte} {rest : Memory} : memWrite ((k, v) :: rest) k 0 = rest := by
  rw [memWrite, if_neg (lt_irrefl k), if_pos rfl, if_pos rfl]

theorem memWrite_here {k : Nat} {v b : Byte} {rest : Memory} (hb : b ≠ 0) :
    memWrite ((k, v) :: rest) k b = (k, b) :: rest := by
  rw [memWrite, if_neg (lt_irrefl k), if_pos rfl, if_neg hb]

theorem memWrite_before_zero {k a : Nat} {v : Byte} {rest : Memory} (h : a < k) :
    memWrite ((k, v) :: rest) a 0 = (k, v) :: rest := by
  rw [memWrite, if_neg h.le.not_gt, if_neg h.ne', if_pos rfl]

theorem memWrite_before {k a : Nat} {v b : Byte} {rest : Memory} (h : a < k) (hb : b ≠ 0) :
    memWrite ((k, v) :: rest) a b = (a, b) :: (k, v) :: rest := by
  rw [memWrite, if_neg h.le.not_gt, if_neg h.ne', if_neg hb]

/-! Reading a list of cells. -/

theorem memRead_cons_same {k : Nat} {v : Byte} {rest : Memory} : memRead ((k, v) :: rest) k = v := if_pos rfl

theorem memRead_cons_other {k a : Nat} {v : Byte} {rest : Memory} (h : k ≠ a) :
    memRead ((k, v) :: rest) a = memRead rest a := if_neg h

/-! The canonical form, cell by cell. -/

theorem memWfAbove_cons {lo k : Nat} {v : Byte} {rest : Memory} :
    memWfAbove lo ((k, v) :: rest) = true ↔ (lo < k ∧ v ≠ 0) ∧ memWfAbove k rest = true := by
  simp [memWfAbove]

theorem wf_cons {k : Nat} {v : Byte} {rest : Memory} :
    Memory.wf ((k, v) :: rest) = true ↔ v ≠ 0 ∧ memWfAbove k rest = true := by
  simp [Memory.wf]

/-- A lower bound of the addresses can be lowered. -/
theorem memWfAbove_mono {lo lo' : Nat} {mem : Memory} (h : memWfAbove lo mem = true) (hl : lo' ≤ lo) :
    memWfAbove lo' mem = true := by
  cases mem with
  | nil => rfl
  | cons cell rest =>
    obtain ⟨k, v⟩ := cell
    obtain ⟨⟨hk, hv⟩, hrest⟩ := memWfAbove_cons.mp h
    exact memWfAbove_cons.mpr ⟨⟨by omega, hv⟩, hrest⟩

/-- A memory above a bound is canonical. -/
theorem wf_of_above {lo : Nat} {mem : Memory} (h : memWfAbove lo mem = true) : Memory.wf mem = true := by
  cases mem with
  | nil => rfl
  | cons cell rest =>
    obtain ⟨k, v⟩ := cell
    obtain ⟨⟨_, hv⟩, hrest⟩ := memWfAbove_cons.mp h
    exact wf_cons.mpr ⟨hv, hrest⟩

/-- A canonical memory whose addresses are all above `lo` reads 0 up to `lo`. -/
theorem memRead_of_le {lo a : Nat} {mem : Memory} (h : memWfAbove lo mem = true) (ha : a ≤ lo) : memRead mem a = 0 := by
  induction mem generalizing lo with
  | nil => rfl
  | cons cell rest ih =>
    obtain ⟨k, v⟩ := cell
    obtain ⟨⟨hk, _⟩, hrest⟩ := memWfAbove_cons.mp h
    rw [memRead_cons_other (show k ≠ a by omega)]
    exact ih hrest (by omega)

/-- A write above `lo` keeps a memory above `lo` canonical and above `lo`. -/
theorem memWfAbove_memWrite {lo a : Nat} {b : Byte} {mem : Memory} (h : memWfAbove lo mem = true) (ha : lo < a) :
    memWfAbove lo (memWrite mem a b) = true := by
  induction mem generalizing lo with
  | nil =>
    by_cases hb : b = 0
    · rw [hb, memWrite_nil_zero]; rfl
    · rw [memWrite_nil a hb]; exact memWfAbove_cons.mpr ⟨⟨ha, hb⟩, rfl⟩
  | cons cell rest ih =>
    obtain ⟨k, v⟩ := cell
    obtain ⟨⟨hlk, hv⟩, hrest⟩ := memWfAbove_cons.mp h
    rcases lt_trichotomy k a with hka | hka | hka
    · rw [memWrite_past hka]; exact memWfAbove_cons.mpr ⟨⟨hlk, hv⟩, ih hrest hka⟩
    · subst hka
      by_cases hb : b = 0
      · rw [hb, memWrite_here_zero]; exact memWfAbove_mono hrest hlk.le
      · rw [memWrite_here hb]; exact memWfAbove_cons.mpr ⟨⟨ha, hb⟩, hrest⟩
    · by_cases hb : b = 0
      · rw [hb, memWrite_before_zero hka]; exact h
      · rw [memWrite_before hka hb]
        exact memWfAbove_cons.mpr ⟨⟨ha, hb⟩, memWfAbove_cons.mpr ⟨⟨hka, hv⟩, hrest⟩⟩

/-- A write keeps the canonical form. -/
theorem wf_memWrite {mem : Memory} (a : Nat) (b : Byte) (h : Memory.wf mem = true) :
    Memory.wf (memWrite mem a b) = true := by
  cases mem with
  | nil =>
    by_cases hb : b = 0
    · rw [hb, memWrite_nil_zero]; rfl
    · rw [memWrite_nil a hb]; exact wf_cons.mpr ⟨hb, rfl⟩
  | cons cell rest =>
    obtain ⟨k, v⟩ := cell
    obtain ⟨hv, hrest⟩ := wf_cons.mp h
    rcases lt_trichotomy k a with hka | hka | hka
    · rw [memWrite_past hka]; exact wf_cons.mpr ⟨hv, memWfAbove_memWrite hrest hka⟩
    · subst hka
      by_cases hb : b = 0
      · rw [hb, memWrite_here_zero]; exact wf_of_above hrest
      · rw [memWrite_here hb]; exact wf_cons.mpr ⟨hb, hrest⟩
    · by_cases hb : b = 0
      · rw [hb, memWrite_before_zero hka]; exact h
      · rw [memWrite_before hka hb]; exact wf_cons.mpr ⟨hb, memWfAbove_cons.mpr ⟨⟨hka, hv⟩, hrest⟩⟩

/-- Reads after a write to a list whose tail is canonical above its head. -/
theorem memRead_memWrite_cons {k a c : Nat} {v b : Byte} {rest : Memory} (hrest : memWfAbove k rest = true)
    (ih : k < a → memRead (memWrite rest a b) c = if c = a then b else memRead rest c) :
    memRead (memWrite ((k, v) :: rest) a b) c = if c = a then b else memRead ((k, v) :: rest) c := by
  rcases lt_trichotomy k a with hka | hka | hka
  · rw [memWrite_past hka]
    by_cases hkc : k = c
    · subst hkc; rw [memRead_cons_same, memRead_cons_same, if_neg hka.ne]
    · rw [memRead_cons_other hkc, memRead_cons_other hkc]; exact ih hka
  · subst hka
    by_cases hb : b = 0
    · rw [hb, memWrite_here_zero]
      by_cases hc : c = k
      · rw [if_pos hc, hc]; exact memRead_of_le hrest le_rfl
      · rw [if_neg hc, memRead_cons_other (Ne.symm hc)]
    · rw [memWrite_here hb]
      by_cases hc : c = k
      · rw [if_pos hc, hc, memRead_cons_same]
      · rw [if_neg hc, memRead_cons_other (Ne.symm hc), memRead_cons_other (Ne.symm hc)]
  · by_cases hb : b = 0
    · rw [hb, memWrite_before_zero hka]
      by_cases hc : c = a
      · rw [if_pos hc, hc, memRead_cons_other hka.ne']; exact memRead_of_le hrest hka.le
      · rw [if_neg hc]
    · rw [memWrite_before hka hb]
      by_cases hc : c = a
      · rw [if_pos hc, hc, memRead_cons_same]
      · rw [if_neg hc, memRead_cons_other (Ne.symm hc)]

theorem memRead_memWrite_above {lo a c : Nat} {b : Byte} {mem : Memory} (h : memWfAbove lo mem = true) :
    memRead (memWrite mem a b) c = if c = a then b else memRead mem c := by
  induction mem generalizing lo with
  | nil =>
    by_cases hb : b = 0
    · rw [hb, memWrite_nil_zero]; split <;> rfl
    · rw [memWrite_nil a hb]
      by_cases hc : c = a
      · rw [if_pos hc, hc, memRead_cons_same]
      · rw [if_neg hc, memRead_cons_other (Ne.symm hc)]
  | cons cell rest ih =>
    obtain ⟨k, v⟩ := cell
    have hrest := (memWfAbove_cons.mp h).2
    exact memRead_memWrite_cons hrest fun _ => ih hrest

/-- Read after write: the byte written at its address, every other address as before. -/
theorem memRead_memWrite {mem : Memory} (a c : Nat) (b : Byte) (h : Memory.wf mem = true) :
    memRead (memWrite mem a b) c = if c = a then b else memRead mem c := by
  cases mem with
  | nil => exact memRead_memWrite_above (lo := 0) rfl
  | cons cell rest =>
    obtain ⟨k, v⟩ := cell
    have hrest := (wf_cons.mp h).2
    exact memRead_memWrite_cons hrest fun _ => memRead_memWrite_above hrest

/-- A write below a bound keeps every listed address below it. -/
theorem memBelow_memWrite {mem : Memory} {bound a : Nat} (b : Byte) (h : memBelow bound mem = true) (ha : a < bound) :
    memBelow bound (memWrite mem a b) = true := by
  induction mem with
  | nil =>
    by_cases hb : b = 0
    · rw [hb, memWrite_nil_zero]; rfl
    · rw [memWrite_nil a hb]; simp [memBelow, ha]
  | cons cell rest ih =>
    obtain ⟨k, v⟩ := cell
    have hk : k < bound ∧ memBelow bound rest = true := by simpa [memBelow] using h
    have cons_below : ∀ {j : Nat} {w : Byte} {l : Memory}, j < bound → memBelow bound l = true →
        memBelow bound ((j, w) :: l) = true := by
      intro j w l hj hl
      simpa [memBelow, hj] using hl
    rcases lt_trichotomy k a with hka | hka | hka
    · rw [memWrite_past hka]; exact cons_below hk.1 (ih hk.2)
    · subst hka
      by_cases hb : b = 0
      · rw [hb, memWrite_here_zero]; exact hk.2
      · rw [memWrite_here hb]; exact cons_below ha hk.2
    · by_cases hb : b = 0
      · rw [hb, memWrite_before_zero hka]; exact h
      · rw [memWrite_before hka hb]; exact cons_below ha h

/-- The memories after reset are canonical. -/
theorem wf_resetOf (n : Nat) (b : Fin 64) :
    Memory.wf (State.resetOf n b).tbl = true ∧ Memory.wf (State.resetOf n b).msg = true := ⟨rfl, rfl⟩

/-- The memories of `State.reset` are canonical. -/
theorem wf_reset : Memory.wf State.reset.tbl = true ∧ Memory.wf State.reset.msg = true := ⟨rfl, rfl⟩

end Sys2Proof.Laws
end

