-- ==== Sys2Proof/Laws/State.lean ====
section
/-!
SUPPORT. One lemma per field of State for each named update, true by rfl, so that no proof unfolds a record update.
-/
namespace Sys2Proof.Laws

open Sys2Proof.Machine

@[simp] theorem putSlot_slots (s : State) (m : Nat) (sl : Slot) : (s.putSlot m sl).slots = s.slots.set m sl := rfl
@[simp] theorem putSlot_seed (s : State) (m : Nat) (sl : Slot) : (s.putSlot m sl).seed = s.seed := rfl
@[simp] theorem putSlot_mapSize (s : State) (m : Nat) (sl : Slot) : (s.putSlot m sl).mapSize = s.mapSize := rfl
@[simp] theorem putSlot_tblLen (s : State) (m : Nat) (sl : Slot) : (s.putSlot m sl).tblLen = s.tblLen := rfl
@[simp] theorem putSlot_hashSize (s : State) (m : Nat) (sl : Slot) : (s.putSlot m sl).hashSize = s.hashSize := rfl
@[simp] theorem putSlot_tPasses (s : State) (m : Nat) (sl : Slot) : (s.putSlot m sl).tPasses = s.tPasses := rfl
@[simp] theorem putSlot_variant (s : State) (m : Nat) (sl : Slot) : (s.putSlot m sl).variant = s.variant := rfl
@[simp] theorem putSlot_mode (s : State) (m : Nat) (sl : Slot) : (s.putSlot m sl).mode = s.mode := rfl
@[simp] theorem putSlot_err (s : State) (m : Nat) (sl : Slot) : (s.putSlot m sl).err = s.err := rfl
@[simp] theorem putSlot_di (s : State) (m : Nat) (sl : Slot) : (s.putSlot m sl).di = s.di := rfl
@[simp] theorem putSlot_runKind (s : State) (m : Nat) (sl : Slot) : (s.putSlot m sl).runKind = s.runKind := rfl
@[simp] theorem putSlot_runBase (s : State) (m : Nat) (sl : Slot) : (s.putSlot m sl).runBase = s.runBase := rfl
@[simp] theorem putSlot_runCnt (s : State) (m : Nat) (sl : Slot) : (s.putSlot m sl).runCnt = s.runCnt := rfl
@[simp] theorem putSlot_stg (s : State) (m : Nat) (sl : Slot) : (s.putSlot m sl).stg = s.stg := rfl
@[simp] theorem putSlot_mapBitsMax (s : State) (m : Nat) (sl : Slot) : (s.putSlot m sl).mapBitsMax = s.mapBitsMax := rfl
@[simp] theorem putSlot_tbl (s : State) (m : Nat) (sl : Slot) : (s.putSlot m sl).tbl = s.tbl := rfl
@[simp] theorem putSlot_msg (s : State) (m : Nat) (sl : Slot) : (s.putSlot m sl).msg = s.msg := rfl
@[simp] theorem putSlot_inputs (s : State) (m : Nat) (sl : Slot) : (s.putSlot m sl).inputs = s.inputs := rfl
@[simp] theorem putSlot_answers (s : State) (m : Nat) (sl : Slot) : (s.putSlot m sl).answers = s.answers := rfl
@[simp] theorem putSlot_resetn (s : State) (m : Nat) (sl : Slot) : (s.putSlot m sl).resetn = s.resetn := rfl
@[simp] theorem putSlot_resets (s : State) (m : Nat) (sl : Slot) : (s.putSlot m sl).resets = s.resets := rfl

@[simp] theorem advance_slots (s : State) : (s.advance).slots = s.slots := rfl
@[simp] theorem advance_seed (s : State) : (s.advance).seed = s.seed := rfl
@[simp] theorem advance_mapSize (s : State) : (s.advance).mapSize = s.mapSize := rfl
@[simp] theorem advance_tblLen (s : State) : (s.advance).tblLen = s.tblLen := rfl
@[simp] theorem advance_hashSize (s : State) : (s.advance).hashSize = s.hashSize := rfl
@[simp] theorem advance_tPasses (s : State) : (s.advance).tPasses = s.tPasses := rfl
@[simp] theorem advance_variant (s : State) : (s.advance).variant = s.variant := rfl
@[simp] theorem advance_mode (s : State) : (s.advance).mode = s.mode := rfl
@[simp] theorem advance_err (s : State) : (s.advance).err = s.err := rfl
@[simp] theorem advance_di (s : State) : (s.advance).di = s.di + 1 := rfl
@[simp] theorem advance_runKind (s : State) : (s.advance).runKind = s.runKind := rfl
@[simp] theorem advance_runBase (s : State) : (s.advance).runBase = s.runBase := rfl
@[simp] theorem advance_runCnt (s : State) : (s.advance).runCnt = s.runCnt := rfl
@[simp] theorem advance_stg (s : State) : (s.advance).stg = s.stg := rfl
@[simp] theorem advance_mapBitsMax (s : State) : (s.advance).mapBitsMax = s.mapBitsMax := rfl
@[simp] theorem advance_tbl (s : State) : (s.advance).tbl = s.tbl := rfl
@[simp] theorem advance_msg (s : State) : (s.advance).msg = s.msg := rfl
@[simp] theorem advance_inputs (s : State) : (s.advance).inputs = s.inputs := rfl
@[simp] theorem advance_answers (s : State) : (s.advance).answers = s.answers := rfl
@[simp] theorem advance_resetn (s : State) : (s.advance).resetn = s.resetn := rfl
@[simp] theorem advance_resets (s : State) : (s.advance).resets = s.resets := rfl

@[simp] theorem setErr_slots (s : State) (code : ErrCode) (cause : BitVec 8) : (s.setErr code cause).slots = s.slots := rfl
@[simp] theorem setErr_seed (s : State) (code : ErrCode) (cause : BitVec 8) : (s.setErr code cause).seed = s.seed := rfl
@[simp] theorem setErr_mapSize (s : State) (code : ErrCode) (cause : BitVec 8) : (s.setErr code cause).mapSize = s.mapSize := rfl
@[simp] theorem setErr_tblLen (s : State) (code : ErrCode) (cause : BitVec 8) : (s.setErr code cause).tblLen = s.tblLen := rfl
@[simp] theorem setErr_hashSize (s : State) (code : ErrCode) (cause : BitVec 8) : (s.setErr code cause).hashSize = s.hashSize := rfl
@[simp] theorem setErr_tPasses (s : State) (code : ErrCode) (cause : BitVec 8) : (s.setErr code cause).tPasses = s.tPasses := rfl
@[simp] theorem setErr_variant (s : State) (code : ErrCode) (cause : BitVec 8) : (s.setErr code cause).variant = s.variant := rfl
@[simp] theorem setErr_mode (s : State) (code : ErrCode) (cause : BitVec 8) : (s.setErr code cause).mode = s.mode := rfl
@[simp] theorem setErr_err (s : State) (code : ErrCode) (cause : BitVec 8) : (s.setErr code cause).err = errWord code cause := rfl
@[simp] theorem setErr_di (s : State) (code : ErrCode) (cause : BitVec 8) : (s.setErr code cause).di = s.di := rfl
@[simp] theorem setErr_runKind (s : State) (code : ErrCode) (cause : BitVec 8) : (s.setErr code cause).runKind = s.runKind := rfl
@[simp] theorem setErr_runBase (s : State) (code : ErrCode) (cause : BitVec 8) : (s.setErr code cause).runBase = s.runBase := rfl
@[simp] theorem setErr_runCnt (s : State) (code : ErrCode) (cause : BitVec 8) : (s.setErr code cause).runCnt = s.runCnt := rfl
@[simp] theorem setErr_stg (s : State) (code : ErrCode) (cause : BitVec 8) : (s.setErr code cause).stg = s.stg := rfl
@[simp] theorem setErr_mapBitsMax (s : State) (code : ErrCode) (cause : BitVec 8) : (s.setErr code cause).mapBitsMax = s.mapBitsMax := rfl
@[simp] theorem setErr_tbl (s : State) (code : ErrCode) (cause : BitVec 8) : (s.setErr code cause).tbl = s.tbl := rfl
@[simp] theorem setErr_msg (s : State) (code : ErrCode) (cause : BitVec 8) : (s.setErr code cause).msg = s.msg := rfl
@[simp] theorem setErr_inputs (s : State) (code : ErrCode) (cause : BitVec 8) : (s.setErr code cause).inputs = s.inputs := rfl
@[simp] theorem setErr_answers (s : State) (code : ErrCode) (cause : BitVec 8) : (s.setErr code cause).answers = s.answers := rfl
@[simp] theorem setErr_resetn (s : State) (code : ErrCode) (cause : BitVec 8) : (s.setErr code cause).resetn = s.resetn := rfl
@[simp] theorem setErr_resets (s : State) (code : ErrCode) (cause : BitVec 8) : (s.setErr code cause).resets = s.resets := rfl

@[simp] theorem acceptRun_slots (s : State) (kind : RunKind) (base count : Nat) : (s.acceptRun kind base count).slots = s.slots := rfl
@[simp] theorem acceptRun_seed (s : State) (kind : RunKind) (base count : Nat) : (s.acceptRun kind base count).seed = s.seed := rfl
@[simp] theorem acceptRun_mapSize (s : State) (kind : RunKind) (base count : Nat) : (s.acceptRun kind base count).mapSize = s.mapSize := rfl
@[simp] theorem acceptRun_tblLen (s : State) (kind : RunKind) (base count : Nat) : (s.acceptRun kind base count).tblLen = s.tblLen := rfl
@[simp] theorem acceptRun_hashSize (s : State) (kind : RunKind) (base count : Nat) : (s.acceptRun kind base count).hashSize = s.hashSize := rfl
@[simp] theorem acceptRun_tPasses (s : State) (kind : RunKind) (base count : Nat) : (s.acceptRun kind base count).tPasses = s.tPasses := rfl
@[simp] theorem acceptRun_variant (s : State) (kind : RunKind) (base count : Nat) : (s.acceptRun kind base count).variant = s.variant := rfl
@[simp] theorem acceptRun_mode (s : State) (kind : RunKind) (base count : Nat) : (s.acceptRun kind base count).mode = .busy := rfl
@[simp] theorem acceptRun_err (s : State) (kind : RunKind) (base count : Nat) : (s.acceptRun kind base count).err = errWord .ok 0 := rfl
@[simp] theorem acceptRun_di (s : State) (kind : RunKind) (base count : Nat) : (s.acceptRun kind base count).di = 0 := rfl
@[simp] theorem acceptRun_runKind (s : State) (kind : RunKind) (base count : Nat) : (s.acceptRun kind base count).runKind = kind := rfl
@[simp] theorem acceptRun_runBase (s : State) (kind : RunKind) (base count : Nat) : (s.acceptRun kind base count).runBase = BitVec.ofNat 8 base := rfl
@[simp] theorem acceptRun_runCnt (s : State) (kind : RunKind) (base count : Nat) : (s.acceptRun kind base count).runCnt = BitVec.ofNat 9 count := rfl
@[simp] theorem acceptRun_stg (s : State) (kind : RunKind) (base count : Nat) : (s.acceptRun kind base count).stg = s.stg := rfl
@[simp] theorem acceptRun_mapBitsMax (s : State) (kind : RunKind) (base count : Nat) : (s.acceptRun kind base count).mapBitsMax = s.mapBitsMax := rfl
@[simp] theorem acceptRun_tbl (s : State) (kind : RunKind) (base count : Nat) : (s.acceptRun kind base count).tbl = s.tbl := rfl
@[simp] theorem acceptRun_msg (s : State) (kind : RunKind) (base count : Nat) : (s.acceptRun kind base count).msg = s.msg := rfl
@[simp] theorem acceptRun_inputs (s : State) (kind : RunKind) (base count : Nat) : (s.acceptRun kind base count).inputs = s.inputs := rfl
@[simp] theorem acceptRun_answers (s : State) (kind : RunKind) (base count : Nat) : (s.acceptRun kind base count).answers = s.answers := rfl
@[simp] theorem acceptRun_resetn (s : State) (kind : RunKind) (base count : Nat) : (s.acceptRun kind base count).resetn = s.resetn := rfl
@[simp] theorem acceptRun_resets (s : State) (kind : RunKind) (base count : Nat) : (s.acceptRun kind base count).resets = s.resets := rfl

@[simp] theorem finishRun_slots (s : State) : (s.finishRun).slots = s.slots := rfl
@[simp] theorem finishRun_seed (s : State) : (s.finishRun).seed = s.seed := rfl
@[simp] theorem finishRun_mapSize (s : State) : (s.finishRun).mapSize = s.mapSize := rfl
@[simp] theorem finishRun_tblLen (s : State) : (s.finishRun).tblLen = s.tblLen := rfl
@[simp] theorem finishRun_hashSize (s : State) : (s.finishRun).hashSize = s.hashSize := rfl
@[simp] theorem finishRun_tPasses (s : State) : (s.finishRun).tPasses = s.tPasses := rfl
@[simp] theorem finishRun_variant (s : State) : (s.finishRun).variant = s.variant := rfl
@[simp] theorem finishRun_mode (s : State) : (s.finishRun).mode = .ready := rfl
@[simp] theorem finishRun_err (s : State) : (s.finishRun).err = s.err := rfl
@[simp] theorem finishRun_di (s : State) : (s.finishRun).di = 0 := rfl
@[simp] theorem finishRun_runKind (s : State) : (s.finishRun).runKind = s.runKind := rfl
@[simp] theorem finishRun_runBase (s : State) : (s.finishRun).runBase = s.runBase := rfl
@[simp] theorem finishRun_runCnt (s : State) : (s.finishRun).runCnt = s.runCnt := rfl
@[simp] theorem finishRun_stg (s : State) : (s.finishRun).stg = 0 := rfl
@[simp] theorem finishRun_mapBitsMax (s : State) : (s.finishRun).mapBitsMax = s.mapBitsMax := rfl
@[simp] theorem finishRun_tbl (s : State) : (s.finishRun).tbl = s.tbl := rfl
@[simp] theorem finishRun_msg (s : State) : (s.finishRun).msg = s.msg := rfl
@[simp] theorem finishRun_inputs (s : State) : (s.finishRun).inputs = s.inputs := rfl
@[simp] theorem finishRun_answers (s : State) : (s.finishRun).answers = s.answers := rfl
@[simp] theorem finishRun_resetn (s : State) : (s.finishRun).resetn = s.resetn := rfl
@[simp] theorem finishRun_resets (s : State) : (s.finishRun).resets = s.resets := rfl

@[simp] theorem blockReset_slots (s : State) : (s.blockReset).slots = freshSlots (s.resets + 1) s.slots.length := rfl
@[simp] theorem blockReset_seed (s : State) : (s.blockReset).seed = 0 := rfl
@[simp] theorem blockReset_mapSize (s : State) : (s.blockReset).mapSize = 0 := rfl
@[simp] theorem blockReset_tblLen (s : State) : (s.blockReset).tblLen = 0 := rfl
@[simp] theorem blockReset_hashSize (s : State) : (s.blockReset).hashSize = 0 := rfl
@[simp] theorem blockReset_tPasses (s : State) : (s.blockReset).tPasses = 0 := rfl
@[simp] theorem blockReset_variant (s : State) : (s.blockReset).variant = 0 := rfl
@[simp] theorem blockReset_mode (s : State) : (s.blockReset).mode = .unconfig := rfl
@[simp] theorem blockReset_err (s : State) : (s.blockReset).err = 0 := rfl
@[simp] theorem blockReset_di (s : State) : (s.blockReset).di = 0 := rfl
@[simp] theorem blockReset_runKind (s : State) : (s.blockReset).runKind = .single := rfl
@[simp] theorem blockReset_runBase (s : State) : (s.blockReset).runBase = 0 := rfl
@[simp] theorem blockReset_runCnt (s : State) : (s.blockReset).runCnt = 0 := rfl
@[simp] theorem blockReset_stg (s : State) : (s.blockReset).stg = 0 := rfl
@[simp] theorem blockReset_mapBitsMax (s : State) : (s.blockReset).mapBitsMax = s.mapBitsMax := rfl
@[simp] theorem blockReset_tbl (s : State) : (s.blockReset).tbl = s.tbl := rfl
@[simp] theorem blockReset_msg (s : State) : (s.blockReset).msg = s.msg := rfl
@[simp] theorem blockReset_inputs (s : State) : (s.blockReset).inputs = s.inputs := rfl
@[simp] theorem blockReset_answers (s : State) : (s.blockReset).answers = s.answers := rfl
@[simp] theorem blockReset_resetn (s : State) : (s.blockReset).resetn = s.resetn := rfl
@[simp] theorem blockReset_resets (s : State) : (s.blockReset).resets = s.resets + 1 := rfl

/-- Putting a slot keeps their number. -/
@[simp] theorem nslots_putSlot (s : State) (m : Nat) (sl : Slot) : nslots (s.putSlot m sl) = nslots s :=
  List.length_set

@[simp] theorem nslots_advance (s : State) : nslots s.advance = nslots s := rfl

@[simp] theorem nslots_setErr (s : State) (code : ErrCode) (cause : BitVec 8) :
    nslots (s.setErr code cause) = nslots s := rfl

@[simp] theorem nslots_acceptRun (s : State) (kind : RunKind) (base count : Nat) :
    nslots (s.acceptRun kind base count) = nslots s := rfl

@[simp] theorem nslots_finishRun (s : State) : nslots s.finishRun = nslots s := rfl

@[simp] theorem length_freshSlots (r n : Nat) : (freshSlots r n).length = n := by simp [freshSlots]

@[simp] theorem nslots_blockReset (s : State) : nslots s.blockReset = nslots s := by
  simp [nslots]

/-- The slot at an index below the number of slots, after a reset (R45). -/
theorem freshSlots_getElem? (r n m : Nat) (h : m < n) : (freshSlots r n)[m]? = some (Slot.fresh r m) := by
  simp [freshSlots, h]

end Sys2Proof.Laws
end

