-- ==== Sys2Proof/Laws/Ops.lean ====
section
/-!
SUPPORT. For each shared operation, once, everything it can do: a dispatched operation on a slot, a refusal, a host access, a
step. Later proofs cite these instead of unfolding the operations.
-/
namespace Sys2Proof.Laws

open Sys2Proof.Machine

/-! Operations on one slot. -/

/-- A dispatched operation answers a next state exactly when its slot exists and its effect on it is defined; the slot is then
replaced and `di` advanced. -/
theorem onSlot_next {i : Instr} {m : Nat} {f : Slot → Except Fault Slot} {s t : State} :
    onSlot i m f s = .next t ↔
      ∃ sl sl', s.slots[m]? = some sl ∧ f sl = .ok sl' ∧ t = (s.putSlot m sl').advance := by
  unfold onSlot
  split
  · simp_all
  · rename_i sl hsl
    rw [hsl]
    split
    · rename_i r hr
      simp only [reduceCtorEq, Option.some.injEq, false_iff, not_exists, not_and]
      rintro x y rfl hxy
      rw [hr] at hxy; cases hxy
    · rename_i sl' hsl'
      simp only [Host.Outcome.next.injEq, Option.some.injEq]
      constructor
      · rintro rfl; exact ⟨sl, sl', rfl, hsl', rfl⟩
      · rintro ⟨x, y, rfl, hxy, rfl⟩
        rw [hsl'] at hxy; cases hxy; rfl

/-- It faults exactly when the slot does not exist, naming the word (R102), or its effect on the slot faults. -/
theorem onSlot_fault {i : Instr} {m : Nat} {f : Slot → Except Fault Slot} {s : State} {r : Fault} :
    onSlot i m f s = .fault r ↔
      (s.slots[m]? = none ∧ r = .dispatchWord (encode i)) ∨ ∃ sl, s.slots[m]? = some sl ∧ f sl = .error r := by
  unfold onSlot
  split
  · simp_all [eq_comm]
  · rename_i sl hsl
    split <;> simp_all

/-- It never refuses. -/
theorem onSlot_not_refused {i : Instr} {m : Nat} {f : Slot → Except Fault Slot} {s : State} {r : Refusal} :
    onSlot i m f s ≠ .refused r := by
  unfold onSlot
  split
  · simp
  · split <;> simp

/-- The slot a dispatched operation replaced holds its new contents; every other slot is as before (R44). -/
theorem getElem?_putSlot_advance {s : State} {m k : Nat} {sl sl' : Slot} (h : s.slots[m]? = some sl) :
    (s.putSlot m sl').advance.slots[k]? = if k = m then some sl' else s.slots[k]? := by
  have hm : m < s.slots.length := (List.getElem?_eq_some_iff.mp h).1
  by_cases hk : k = m
  · subst hk; simp [hm]
  · simp [hk, Ne.symm hk]

/-- A slot that an operation read is one of the instance's. -/
theorem lt_nslots_of_getElem? {s : State} {m : Nat} {sl : Slot} (h : s.slots[m]? = some sl) : m < nslots s :=
  (List.getElem?_eq_some_iff.mp h).1

/-- An index below `NSLOTS` has a slot. -/
theorem exists_slot {s : State} {m : Nat} (h : m < nslots s) : ∃ sl, s.slots[m]? = some sl :=
  ⟨s.slots[m]'h, List.getElem?_eq_getElem h⟩

/-- What any dispatched operation on a slot leaves alone (R44). -/
theorem onSlot_frame {i : Instr} {m : Nat} {f : Slot → Except Fault Slot} {s t : State}
    (h : onSlot i m f s = .next t) : SlotFrame m s t := by
  obtain ⟨sl, sl', hsl, _, rfl⟩ := onSlot_next.mp h
  refine ⟨rfl, by simp, fun k hk => ?_, fun _ => rfl, fun _ => rfl⟩
  rw [getElem?_putSlot_advance hsl, if_neg hk]

/-! The configuration checks. -/

/-- No cause bit is set exactly when the configuration is valid (R123, R124). -/
theorem cfgCause_eq_zero_iff {s : State} : cfgCause s = 0 ↔ configValid s = true := by
  unfold cfgCause configValid causeBit
  cases checkPow2 s <;> cases checkCap s <;> cases checkLen s <;> cases checkHashSize s <;> cases checkVariant s <;>
    cases checkLane s <;> decide

/-- The cause field uses six bits: 7:6 are 0 (R202). -/
theorem cfgCause_lt {s : State} : (cfgCause s).toNat < 64 := by
  unfold cfgCause causeBit
  cases checkPow2 s <;> cases checkCap s <;> cases checkLen s <;> cases checkHashSize s <;> cases checkVariant s <;>
    cases checkLane s <;> decide

/-! The host port. -/

/-- What a write to a configuration CSR leaves: the new state while unlocked, else the old one (R125, R128). -/
theorem whileUnlocked_cases (s s' : State) :
    (s.mode = .unconfig ∧ whileUnlocked s s' = s') ∨ (s.mode ≠ .unconfig ∧ whileUnlocked s s' = s) := by
  unfold whileUnlocked
  cases h : s.mode <;> simp

/-- What a write to a descriptor leaves: one slot replaced, or nothing for a slot that does not exist (R27, R39). -/
theorem writeSlot_cases (s : State) (m : Nat) (f : Slot → Slot) :
    (∃ sl, s.slots[m]? = some sl ∧ writeSlot s m f = s.putSlot m (f sl)) ∨
      (s.slots[m]? = none ∧ writeSlot s m f = s) := by
  unfold writeSlot
  cases h : s.slots[m]? <;> simp

/-- The state with the six configuration CSRs holding the given values. -/
def setConfig (s : State) (seed mapSize tblLen hashSize tPasses variant : Word) : State :=
  { s with
    seed := seed
    mapSize := mapSize
    tblLen := tblLen
    hashSize := hashSize
    tPasses := tPasses
    variant := variant }

/-- A write to one configuration CSR, as a write of all six (R125, R128). -/
theorem configWrite_cases (s : State) (seed mapSize tblLen hashSize tPasses variant : Word) {P : Prop} :
    whileUnlocked s (setConfig s seed mapSize tblLen hashSize tPasses variant) = s ∨
      (s.mode = .unconfig ∧ ∃ c1 c2 c3 c4 c5 c6,
        whileUnlocked s (setConfig s seed mapSize tblLen hashSize tPasses variant) = setConfig s c1 c2 c3 c4 c5 c6) ∨ P := by
  rcases whileUnlocked_cases s (setConfig s seed mapSize tblLen hashSize tPasses variant) with ⟨hm, he⟩ | ⟨_, he⟩
  · exact .inr (.inl ⟨hm, _, _, _, _, _, _, he⟩)
  · exact .inl he

/-- Everything a CSR write can do (R27, R128): nothing, one configuration CSR while unlocked, or one descriptor. -/
theorem csrWrite_cases (s : State) (k : BitVec 12) (v : Word) :
    csrWrite s k v = s ∨
      (s.mode = .unconfig ∧ ∃ c1 c2 c3 c4 c5 c6, csrWrite s k v = setConfig s c1 c2 c3 c4 c5 c6) ∨
      ∃ m sl sl', s.slots[m]? = some sl ∧ sl'.dig = sl.dig ∧ sl'.acc = sl.acc ∧ sl'.lanes = sl.lanes ∧
        sl'.src = sl.src ∧ csrWrite s k v = s.putSlot m sl' := by
  unfold csrWrite
  cases hk : csrAt k with
  | status => exact .inl rfl
  | err => exact .inl rfl
  | cmd => exact .inl rfl
  | cap => exact .inl rfl
  | seed => exact configWrite_cases s v s.mapSize s.tblLen s.hashSize s.tPasses s.variant
  | mapSize => exact configWrite_cases s s.seed v s.tblLen s.hashSize s.tPasses s.variant
  | tblLen => exact configWrite_cases s s.seed s.mapSize v s.hashSize s.tPasses s.variant
  | hashSize => exact configWrite_cases s s.seed s.mapSize s.tblLen v s.tPasses s.variant
  | tPasses => exact configWrite_cases s s.seed s.mapSize s.tblLen s.hashSize v s.variant
  | variant => exact configWrite_cases s s.seed s.mapSize s.tblLen s.hashSize s.tPasses v
  | msgAddr m =>
    rcases writeSlot_cases s m fun sl => { sl with msgAddr := v } with ⟨sl, hsl, he⟩ | ⟨_, he⟩
    · exact .inr (.inr ⟨m, sl, { sl with msgAddr := v }, hsl, rfl, rfl, rfl, rfl, he⟩)
    · exact .inl he
  | msgLen m =>
    rcases writeSlot_cases s m fun sl => { sl with msgLen := v } with ⟨sl, hsl, he⟩ | ⟨_, he⟩
    · exact .inr (.inr ⟨m, sl, { sl with msgLen := v }, hsl, rfl, rfl, rfl, rfl, he⟩)
    · exact .inl he
  | digw m w => exact .inl rfl
  | reserved => exact .inl rfl

/-- Everything a host access that is no command can do when it answers a next state. -/
theorem hostAccess_next {a : Input} {s t : State} (h : hostAccess a s = .next t) :
    (∃ k, a = .read k ∧ t = { s with answers := s.answers ++ [csrRead s k] }) ∨
    (∃ k v, a = .write k v ∧ t = csrWrite s k v) ∨
    (∃ x b, a = .msgWrite x b ∧ t = { s with msg := memWrite s.msg x.toNat b }) ∨
    (∃ x b, a = .tblWrite x b ∧ tblLock s = true ∧ t = s) ∨
    (∃ x b, a = .tblWrite x b ∧ tblLock s = false ∧ x.toNat < 2 ^ s.mapBitsMax.val ∧
      t = { s with tbl := memWrite s.tbl x.toNat b }) := by
  cases a with
  | read k => exact .inl ⟨k, rfl, by simpa [hostAccess] using h.symm⟩
  | write k v => exact .inr (.inl ⟨k, v, rfl, by simpa [hostAccess] using h.symm⟩)
  | msgWrite x b => exact .inr (.inr (.inl ⟨x, b, rfl, by simpa [hostAccess] using h.symm⟩))
  | tblWrite x b =>
    simp only [hostAccess] at h
    split at h
    · rename_i hl
      exact .inr (.inr (.inr (.inl ⟨x, b, rfl, hl, by simpa using h.symm⟩)))
    · rename_i hl
      split at h
      · rename_i hx
        exact .inr (.inr (.inr (.inr ⟨x, b, rfl, by simpa using hl, hx, by simpa using h.symm⟩)))
      · cases h

/-! A step. -/

/-- Everything the host's turn can do when it answers a next state: nothing, a command, a refused illegal word, or a host
access that is no command. -/
theorem hostStep_next {s t : State} (h : hostStep s = .next t) :
    (s.inputs = [] ∧ t = s) ∨
    (∃ a rest w i, s.inputs = a :: rest ∧ commandOf a = some w ∧ decodeCommand w = .ok i ∧
      exec i { s with inputs := rest } = .next t) ∨
    (∃ a rest w e, s.inputs = a :: rest ∧ commandOf a = some w ∧ decodeCommand w = .error e ∧
      t = State.setErr { s with inputs := rest } .illCmd 0) ∨
    (∃ a rest, s.inputs = a :: rest ∧ commandOf a = none ∧ hostAccess a { s with inputs := rest } = .next t) := by
  unfold hostStep at h
  split at h
  · rename_i hin
    exact .inl ⟨hin, by simpa using h.symm⟩
  · rename_i a rest hin
    split at h
    · rename_i w hw
      unfold commandStep at h
      split at h
      · rename_i i hi
        exact .inr (.inl ⟨a, rest, w, i, hin, hw, hi, h⟩)
      · rename_i e he
        exact .inr (.inr (.inl ⟨a, rest, w, e, hin, hw, he, by simpa [raiseRefusal] using h.symm⟩))
    · rename_i hw
      exact .inr (.inr (.inr ⟨a, rest, hin, hw, h⟩))

/-- A dispatched operation that answers a next state is the decoded word of the sequencer. -/
theorem sequencerStep_next {s t : State} (h : sequencerStep s = .next t) :
    ∃ w i, s.dispatchWord = some w ∧ decodeDispatch w = .ok i ∧ exec i s = .next t := by
  unfold sequencerStep at h
  split at h
  · cases h
  · rename_i w hw
    split at h
    · rename_i i hi
      exact ⟨w, i, hw, hi, h⟩
    · cases h

/-- It is SEQ's turn exactly while a run is active. -/
theorem mover_eq_seq_iff {s : State} : mover s = .seq ↔ s.mode = .busy := by
  unfold mover
  split <;> simp [*]

/-- It is HOST's turn exactly while no run is active: TBL and DGST never have a turn. -/
theorem mover_eq_host_iff {s : State} : mover s = .host ↔ s.mode ≠ .busy := by
  unfold mover
  split <;> simp [*]

theorem runningStep_of_busy {s : State} (h : s.mode = .busy) : runningStep s = sequencerStep s := by
  rw [runningStep, mover_eq_seq_iff.mpr h, agentStep]

theorem runningStep_of_not_busy {s : State} (h : s.mode ≠ .busy) : runningStep s = hostStep s := by
  rw [runningStep, mover_eq_host_iff.mpr h, agentStep]

/-- Everything a step with RESETN at 1 can do when it answers a next state: one dispatched operation of the active run, or,
with no run active, the host's turn. -/
theorem runningStep_next {s t : State} (h : runningStep s = .next t) :
    (s.mode = .busy ∧ ∃ w i, s.dispatchWord = some w ∧ decodeDispatch w = .ok i ∧ exec i s = .next t) ∨
    (s.mode ≠ .busy ∧ hostStep s = .next t) := by
  by_cases hm : s.mode = .busy
  · exact .inl ⟨hm, sequencerStep_next (by rwa [runningStep_of_busy hm] at h)⟩
  · exact .inr ⟨hm, by rwa [runningStep_of_not_busy hm] at h⟩

/-- Everything a step can do when it answers a next state: a reset while RESETN is 0 (R230), or a step with RESETN at 1 of the
state whose RESETN levels have moved on by one. -/
theorem step_next {s t : State} (h : step s = .next t) :
    (∃ rest, s.resetn = false :: rest ∧ t = { s.blockReset with resetn := rest }) ∨
    (s.resetn.head? ≠ some false ∧ runningStep { s with resetn := s.resetn.tail } = .next t) := by
  unfold step at h
  split at h
  · rename_i rest hr
    exact .inl ⟨rest, hr, by simpa using h.symm⟩
  · rename_i rest hr
    exact .inr ⟨by simp [hr], by simpa [hr] using h⟩
  · rename_i hr
    refine .inr ⟨by simp [hr], ?_⟩
    have : { s with resetn := s.resetn.tail } = s := by cases s; simp_all
    rw [this]; exact h

end Sys2Proof.Laws
end

