-- ==== Sys2Proof/Laws/PerInstr.lean ====
section
/-!
SUPPORT. Statements made once per instruction. Family EncodeInRow: the word of a well-formed instruction lies in the row of the
opcode table that its mnemonic names, `(w & mask) = match` (R92, R101).
-/
namespace Sys2Proof.Laws

/-- A field of `n` bits placed at bit 0 has no bit at or above `n`. -/
theorem ofNat_bit_ge {n x i : Nat} (hx : x < 2 ^ n) (hi : n ≤ i) : (BitVec.ofNat 32 x).getLsbD i = false := by
  rw [BitVec.getLsbD_ofNat, Nat.testBit_lt_two_pow (lt_of_lt_of_le hx (Nat.pow_le_pow_right (by omega) hi)), Bool.and_false]

/-- A field whose bits the mask does not cover vanishes under it. -/
theorem and_mask_eq_zero {n x sh : Nat} {mask : CmdWord} (hx : x < 2 ^ n)
    (hm : ∀ i < 32, sh ≤ i → i < sh + n → mask.getLsbD i = false) : (BitVec.ofNat 32 x <<< sh) &&& mask = 0 := by
  apply BitVec.eq_of_getLsbD_eq
  intro i hi
  simp only [BitVec.getLsbD_and, BitVec.getLsbD_shiftLeft, BitVec.ofNat_eq_ofNat, BitVec.getLsbD_zero, hi, decide_true,
    Bool.true_and]
  by_cases h1 : i < sh
  · simp [h1]
  · by_cases h2 : i < sh + n
    · rw [hm i hi (by omega) h2, Bool.and_false]
    · rw [ofNat_bit_ge hx (by omega : n ≤ i - sh)]; simp

/-- A word of format U under a mask that covers none of its three operand fields keeps only its operation code. -/
theorem formatU_and_mask {uop m pos lane : Nat} {mask : CmdWord} (hm : m < 256) (hp : pos < 32) (hl : lane < 32)
    (h20 : ∀ i < 32, 20 ≤ i → i < 28 → mask.getLsbD i = false)
    (h8 : ∀ i < 32, 8 ≤ i → i < 13 → mask.getLsbD i = false)
    (h0 : ∀ i < 32, 0 ≤ i → i < 5 → mask.getLsbD i = false) :
    formatU uop m pos lane &&& mask = (BitVec.ofNat 32 uop <<< 28) &&& mask := by
  have e1 := and_mask_eq_zero (n := 8) (sh := 20) hm h20
  have e2 := and_mask_eq_zero (n := 5) (sh := 8) hp h8
  have e3 := and_mask_eq_zero (n := 5) (sh := 0) hl h0
  rw [BitVec.shiftLeft_zero] at e3
  unfold formatU
  rw [BitVec.and_comm, BitVec.and_or_distrib_left, BitVec.and_or_distrib_left, BitVec.and_or_distrib_left,
    BitVec.and_comm mask (BitVec.ofNat 32 m <<< 20), BitVec.and_comm mask (BitVec.ofNat 32 pos <<< 8),
    BitVec.and_comm mask (BitVec.ofNat 32 lane),
    e1, e2, e3, BitVec.and_comm]
  simp

/-- The same with no position and no lane: the mask need not spare their fields. -/
theorem formatU_slot_and_mask {uop m : Nat} {mask : CmdWord} (hm : m < 256)
    (h20 : ∀ i < 32, 20 ≤ i → i < 28 → mask.getLsbD i = false) :
    formatU uop m 0 0 &&& mask = (BitVec.ofNat 32 uop <<< 28) &&& mask := by
  have e1 := and_mask_eq_zero (n := 8) (sh := 20) hm h20
  unfold formatU
  rw [BitVec.and_comm, BitVec.and_or_distrib_left, BitVec.and_or_distrib_left, BitVec.and_or_distrib_left,
    BitVec.and_comm mask (BitVec.ofNat 32 m <<< 20), e1, BitVec.and_comm]
  simp

/-- A word of format C under a mask that does not cover the low `n` bits keeps only its operation code. -/
theorem formatC_and_mask {n opc arg : Nat} {mask : CmdWord} (ha : arg < 2 ^ n)
    (h0 : ∀ i < 32, 0 ≤ i → i < 0 + n → mask.getLsbD i = false) :
    formatC opc arg &&& mask = (BitVec.ofNat 32 opc <<< 24) &&& mask := by
  have e := and_mask_eq_zero (n := n) (sh := 0) ha h0
  rw [BitVec.shiftLeft_zero] at e
  unfold formatC
  rw [BitVec.and_comm, BitVec.and_or_distrib_left, BitVec.and_comm mask (BitVec.ofNat 32 arg), e, BitVec.and_comm]
  simp

/-- Family EncodeInRow: the word of a well-formed instruction lies in its mnemonic's row of the opcode table (R92, R101). -/
def EncodeInRow.Statement (i : Instr) : Prop := i.wellFormed = true → encode i &&& (tableRow i).1 = (tableRow i).2

theorem EncodeInRow.nop : EncodeInRow.Statement .nop := fun _ => by decide

theorem EncodeInRow.cfglock : EncodeInRow.Statement .cfglock := fun _ => by decide

theorem EncodeInRow.srst : EncodeInRow.Statement .srst := fun _ => by decide

theorem EncodeInRow.hash (slot : Nat) : EncodeInRow.Statement (.hash slot) := fun h => by
  have hs : slot < 2 ^ 8 := by simpa [Instr.wellFormed] using h
  show formatC 0x10 slot &&& 0xFFFFFF00 = 0x10000000
  rw [formatC_and_mask hs (by decide)]
  decide

theorem EncodeInRow.batch (count : Nat) : EncodeInRow.Statement (.batch count) := fun h => by
  have hc : count < 2 ^ 16 := by simpa [Instr.wellFormed] using h
  show formatC 0x11 count &&& 0xFFFF0000 = 0x11000000
  rw [formatC_and_mask hc (by decide)]
  decide

theorem EncodeInRow.init (m : Nat) : EncodeInRow.Statement (.init m) := fun h => by
  have hm : m < 256 := by simpa [Instr.wellFormed] using h
  show formatU 0x1 m 0 0 &&& 0xF00FFFFF = 0x10000000
  rw [formatU_slot_and_mask hm (by decide)]
  decide

theorem EncodeInRow.prep (m : Nat) : EncodeInRow.Statement (.prep m) := fun h => by
  have hm : m < 256 := by simpa [Instr.wellFormed] using h
  show formatU 0x2 m 0 0 &&& 0xF00FFFFF = 0x20000000
  rw [formatU_slot_and_mask hm (by decide)]
  decide

theorem EncodeInRow.fold4 (m : Nat) : EncodeInRow.Statement (.fold4 m) := fun h => by
  have hm : m < 256 := by simpa [Instr.wellFormed] using h
  show formatU 0x3 m 0 0 &&& 0xF00FFFFF = 0x30000000
  rw [formatU_slot_and_mask hm (by decide)]
  decide

theorem EncodeInRow.step (m lane pos : Nat) : EncodeInRow.Statement (.step m lane pos) := fun h => by
  obtain ⟨⟨hm, hl⟩, hp⟩ : (m < 256 ∧ lane < 32) ∧ pos < 32 := by simpa [Instr.wellFormed] using h
  show formatU 0x4 m pos lane &&& 0xF00FE0E0 = 0x40000000
  rw [formatU_and_mask hm hp hl (by decide) (by decide) (by decide)]
  decide

theorem EncodeInRow.fin1 (m : Nat) : EncodeInRow.Statement (.fin1 m) := fun h => by
  have hm : m < 256 := by simpa [Instr.wellFormed] using h
  show formatU 0x5 m 0 0 &&& 0xF00FFFFF = 0x50000000
  rw [formatU_slot_and_mask hm (by decide)]
  decide

theorem EncodeInRow.fin2 (m : Nat) : EncodeInRow.Statement (.fin2 m) := fun h => by
  have hm : m < 256 := by simpa [Instr.wellFormed] using h
  show formatU 0x6 m 0 0 &&& 0xF00FFFFF = 0x60000000
  rw [formatU_slot_and_mask hm (by decide)]
  decide

theorem EncodeInRow.endRun : EncodeInRow.Statement .endRun := fun _ => by decide

end Sys2Proof.Laws
end

