-- ==== Sys2Proof/Tests/Slice0.lean ====
section
/-!
SUPPORT. Tests of the model on values the spec gives (`95_test_vectors.md`, named in each comment), and for every statement with
hypotheses a witness that meets them.
-/
namespace Sys2Proof.Tests
open Sys2Proof Sys2Proof.Machine

/-! ## Ill-formed terms are refused, one for each check -/

theorem test_hash_slot_too_wide : (Instr.hash 256).wellFormed = false := by decide
theorem test_batch_count_too_wide : (Instr.batch 65536).wellFormed = false := by decide
theorem test_init_slot_too_wide : (Instr.init 256).wellFormed = false := by decide
theorem test_prep_slot_too_wide : (Instr.prep 256).wellFormed = false := by decide
theorem test_fold4_slot_too_wide : (Instr.fold4 256).wellFormed = false := by decide
theorem test_step_operands_too_wide :
    (Instr.step 256 0 0).wellFormed = false ∧ (Instr.step 0 32 0).wellFormed = false ∧
      (Instr.step 0 0 32).wellFormed = false := by decide
theorem test_fin1_slot_too_wide : (Instr.fin1 256).wellFormed = false := by decide
theorem test_fin2_slot_too_wide : (Instr.fin2 256).wellFormed = false := by decide

/-! ## Decoding of words written out (V-ENC-CMD, V-ENC-UOP; the bits by R91, R92, R100, R101) -/

/-- OPC = 0x00, RSV = 0, ARG = 0. -/
theorem test_decode_nop : decodeCommand 0b00000000_00000000_0000000000000000 = .ok .nop := by decide
/-- OPC = 0x01, RSV = 0, ARG = 0. -/
theorem test_decode_cfglock : decodeCommand 0b00000001_00000000_0000000000000000 = .ok .cfglock := by decide
/-- OPC = 0x02, RSV = 0, ARG = 0. -/
theorem test_decode_srst : decodeCommand 0b00000010_00000000_0000000000000000 = .ok .srst := by decide
/-- OPC = 0x10, RSV = 0, bits 15:8 = 0, slot = 3. -/
theorem test_decode_hash : decodeCommand 0b00010000_00000000_00000000_00000011 = .ok (.hash 3) := by decide
/-- OPC = 0x11, RSV = 0, count = 0xFFFF. -/
theorem test_decode_batch : decodeCommand 0b00010001_00000000_1111111111111111 = .ok (.batch 65535) := by decide
/-- UOP = 0x1, M = 1, LANE and POS 0. -/
theorem test_decode_init : decodeDispatch 0b0001_00000001_0000000_00000_000_00000 = .ok (.init 1) := by decide
/-- UOP = 0x2, M = 3. -/
theorem test_decode_prep : decodeDispatch 0b0010_00000011_0000000_00000_000_00000 = .ok (.prep 3) := by decide
/-- UOP = 0x3, M = 3. -/
theorem test_decode_fold4 : decodeDispatch 0b0011_00000011_0000000_00000_000_00000 = .ok (.fold4 3) := by decide
/-- UOP = 0x4, M = 0, POS = 20 in bits 12:8, LANE = 4 in bits 4:0. -/
theorem test_decode_step : decodeDispatch 0b0100_00000000_0000000_10100_000_00100 = .ok (.step 0 4 20) := by decide
/-- UOP = 0x5, M = 2. -/
theorem test_decode_fin1 : decodeDispatch 0b0101_00000010_0000000_00000_000_00000 = .ok (.fin1 2) := by decide
/-- UOP = 0x6, M = 3. -/
theorem test_decode_fin2 : decodeDispatch 0b0110_00000011_0000000_00000_000_00000 = .ok (.fin2 3) := by decide
/-- UOP = 0xF, all the rest 0. -/
theorem test_decode_end : decodeDispatch 0b1111_00000000_0000000_00000_000_00000 = .ok .endRun := by decide
/-- V-ENC-CMD, the illegal rows. -/
theorem test_illegal_commands :
    [0x00000001, 0x01000001, 0x02008000, 0x10000100, 0x10010000, 0x11010000, 0x03000000, 0x12000000, 0xFFFFFFFF].map decodeCommand =
      [0x00000001, 0x01000001, 0x02008000, 0x10000100, 0x10010000, 0x11010000, 0x03000000, 0x12000000, 0xFFFFFFFF].map
        fun w => Except.error (DecodeError.illegalCommand w) := by decide
/-- V-ENC-UOP, the words never produced. -/
theorem test_outside_dispatch_table :
    [0x00000000, 0x70000000, 0x10000001, 0x40002000, 0x40000020].map decodeDispatch =
      [0x00000000, 0x70000000, 0x10000001, 0x40002000, 0x40000020].map
        fun w => Except.error (DecodeError.outsideDispatchTable w) := by decide
/-- V-ENC-UOP, the STEP rows, from the operands to the word. -/
theorem test_encode_step :
    encode (.step 0 0 0) = 0x40000000 ∧ encode (.step 1 1 1) = 0x40100101 ∧ encode (.step 3 31 31) = 0x40301F1F ∧
      encode (.step 255 0 31) = 0x4FF01F00 := by decide

/-! ## States the tests start from -/

/-- A slot of zeros. -/
def slot0 : Slot where
  acc := 0
  lanes := Vector.replicate 32 0
  src := Vector.replicate 32 0
  dig := Vector.replicate 32 0
  msgAddr := 0
  msgLen := 0

/-- The instance of `95_test_vectors.md` section 0 (four slots, `MAPBITS_MAX` 30) with slots of zeros, `STATE` 0. -/
def idle : State := { State.reset with slots := List.replicate 4 slot0 }

/-- The same with the configuration MAPSIZE 256, HASHSIZE 32, VARIANT 2 written. -/
def configured : State := { idle with mapSize := 256, tblLen := 256, hashSize := 32, variant := 2 }

/-- The same locked: `STATE` 1. -/
def locked : State := { configured with mode := .ready }

/-- The single run of slot 3 at dispatch index `k`: `STATE` 2. -/
def busyAt (k : Nat) : State := { locked.acceptRun .single 3 1 with di := BitVec.ofNat 15 k }

/-- The host's next access is `a`. -/
def given (s : State) (a : Input) : State := { s with inputs := [a] }

/-- The state an outcome gives, if it is a next state. -/
def nextOf : Host.Outcome State Fault Refusal → Option State
  | .next t => some t
  | .fault _ => none
  | .refused _ => none

theorem exists_next : ∀ {o : Host.Outcome State Fault Refusal}, (nextOf o).isSome = true → ∃ t, o = .next t
  | .next t, _ => ⟨t, rfl⟩
  | .fault _, h => nomatch h
  | .refused _, h => nomatch h

/-- A value of the state an outcome gives. -/
def seen {α : Type} (o : Host.Outcome State Fault Refusal) (f : State → α) : Option α := (nextOf o).map f

/-! ## Configuration commands -/

/-- V-NOP. -/
theorem test_nop_clears_err : seen (exec .nop { idle with err := 3 }) State.err = some 0 := by decide
/-- V-CFG, the refused row with the most causes and VARIANT 2, and the row of the state after reset. -/
theorem test_cfglock_refuses :
    seen (exec .cfglock { idle with mapSize := 0xC0000000, tblLen := 5, hashSize := 40, variant := 2 })
      (fun t => (t.err, t.mode)) = some (0x2F01, .unconfig) ∧
    seen (exec .cfglock State.reset) (fun t => (t.err, t.mode)) = some (0x1901, .unconfig) := by decide
/-- V-CFG, the largest table an instance takes, and V-CFG-LOCKED. -/
theorem test_cfglock_locks_once :
    seen (exec .cfglock { configured with mapSize := 0x40000000, tblLen := 0x40000000 })
      (fun t => (t.err, t.mode)) = some (0, .ready) ∧
    seen (exec .cfglock locked) (fun t => (t.err, t.mode)) = some (6, .ready) := by decide
/-- V-SRST: `STATE`, `SEED`, `MAPSIZE` and the last digest word of a slot. -/
theorem test_srst :
    seen (exec .srst { locked with seed := 5, slots := List.replicate 4 { slot0 with dig := Vector.replicate 32 0xFF } })
      (fun t => (t.mode, t.seed, t.mapSize, csrRead t 0x107, tblLock t)) = some (.unconfig, 0, 0, 0, false) := by decide

/-! ## Commands that hash -/

/-- V-REF (`60_exceptions.md` R205): the refusals of HASH, in their order. -/
theorem test_hash_refusals :
    seen (exec (.hash 4) idle) State.err = some 2 ∧ seen (exec (.hash 4) locked) State.err = some 4 ∧
    seen (exec (.hash 0) { locked with slots := [{ slot0 with msgAddr := 0xFFFFFFFFFFFFFFFF, msgLen := 2 }] }) State.err =
      some 5 := by decide
/-- R170: acceptance; a message may end exactly at 2^64 (R39). -/
theorem test_hash_accepts :
    seen (exec (.hash 0) { locked with err := 3, slots := [{ slot0 with msgAddr := 0xFFFFFFFFFFFFFFFF, msgLen := 1 }] })
      (fun t => (t.err, t.mode, t.di, t.runKind)) = some (0, .busy, 0, .single) := by decide
/-- R180, R186: `BATCH 0` and `BATCH NSLOTS` are accepted, `BATCH NSLOTS + 1` is not. -/
theorem test_batch_counts :
    seen (exec (.batch 0) locked) (fun t => (t.err, t.mode, t.runCnt)) = some (0, .busy, 0) ∧
    seen (exec (.batch 4) locked) (fun t => (t.err, t.mode, t.runCnt)) = some (0, .busy, 4) ∧
    seen (exec (.batch 5) locked) (fun t => (t.err, t.mode)) = some (4, .ready) := by decide

/-! ## The prologue -/

/-- V-INIT: four lanes cleared, lane 4 not written. -/
theorem test_init :
    seen (exec (.init 0) { locked with seed := 0x0123456789ABCDEF, hashSize := 4, slots := [{ slot0 with lanes := Vector.replicate 32 7 }] })
      (fun t => (t.slots.map fun sl => (sl.acc, sl.lanes[3], sl.lanes[4]), t.di)) = some ([(0x0123456789ABCDEF, 0, 7)], 1) := by decide

/-- `TOYD`, the stand-in for the digest function (`95_test_vectors.md` section 0). -/
def toyDigest (bytes : List Byte) : Digest :=
  Vector.ofFn fun i => BitVec.ofNat 8 (7 * i.val + bytes.length + (bytes.map BitVec.toNat).sum)

/-- V-PREP-TOYD, "one test": the first and the last source byte. -/
theorem test_prep_source :
    (preprocess toyDigest [0x6f, 0x6e, 0x65, 0x20, 0x74, 0x65, 0x73, 0x74])[0] = 0xf0 ∧
    (preprocess toyDigest [0x6f, 0x6e, 0x65, 0x20, 0x74, 0x65, 0x73, 0x74])[31] = 0xc9 := by decide
/-- R64, R142: the message is the bytes from `MSGADDR` up, and PREP moves on. -/
theorem test_prep_message :
    messageBytes [(0x1000, 0x6f), (0x1001, 0x6e), (0x1003, 0x65)] 0x1000 3 = [0x6f, 0x6e, 0] ∧
    seen (exec (.prep 0) locked) State.di = some 1 := ⟨by decide, rfl⟩
/-- V-FOLD4, rows 3 and 5: no sign extension, and the prologue of program P1. -/
theorem test_fold4 :
    (fold4Slot { slot0 with acc := 0x1122334455667788, src := (slot0.src.set 0 0x80).set 3 0x80 }).acc = 0x11223344D5667708 ∧
    seen (exec (.fold4 0) { locked with slots := [{ slot0 with acc := 0x0123456789ABCDEF, src := (((slot0.src.set 0 0xf0).set 1 0xf7).set 2 0xfe).set 3 0x05 }] })
      (fun t => t.slots.map Slot.acc) = some [0x012345678C553A1F] := by decide

/-! ## The mixer -/

/-- V-STEP-1: the nine table bytes the vector reads, and the whole STEP. -/
theorem test_step_from_zero :
    seen (exec (.step 0 31 31) { locked with
        slots := [slot0]
        tbl := [(0x00, 0x0d), (0x0D, 0x88), (0x1D, 0xf8), (0x23, 0xe2), (0x28, 0x25), (0x89, 0x6c), (0x97, 0x8e), (0xCC, 0x21), (0xF3, 0x92)] })
      (fun t => (t.slots.map fun sl => (sl.acc, sl.lanes[31], sl.lanes[30]), t.di)) =
    some ([(0x7721D0E6425B2CF6, 0x7721D0E6425B2CF6, 0)], 1) := by decide
/-- V-STEP-2: the accumulator and the lane end differently. -/
theorem test_step_mixed :
    mix (memRead [(0x25, 0x30), (0x30, 0x5d), (0x32, 0xab), (0x49, 0xac), (0x4E, 0xef), (0x7C, 0xf1), (0x88, 0xc5), (0xDC, 0x91), (0xF2, 0xeb)])
      (maskOf 256) 0x0123456789ABCDEF 0xFEDCBA9876543210 0x5A = (0x4A6368BB1EA77965, 0xE9B7AD8171BF706D) := by decide

/-! ## The finalizers and END -/

/-- A slot with the last two of 32 lanes and the accumulator of V-MIX after STEP 96, the other lanes 0. -/
def finSlot : Slot :=
  { slot0 with acc := 0xB736E2458DE45A0C, dig := Vector.replicate 32 0xAA,
               lanes := (slot0.lanes.set 30 0x114739487F29678E).set 31 0x207F28ECB67346B8 }

/-- V-MIX: the digest's last bytes under FIN1 are b8 and 8e; under 31 lanes byte 31 is cleared (R191). -/
theorem test_fin1 :
    seen (exec (.fin1 0) { locked with slots := [finSlot] }) (fun t => t.slots.map fun sl => (sl.dig[30], sl.dig[31], sl.acc)) =
      some [(0x8e, 0xb8, 0xB736E2458DE45A0C)] ∧
    seen (exec (.fin1 0) { locked with hashSize := 31, slots := [finSlot] }) (fun t => t.slots.map fun sl => (sl.dig[30], sl.dig[31])) =
      some [(0x8e, 0)] := by decide
/-- V-MIX: the digest's last bytes under FIN2, the first two of the chain, are 51 and be. -/
theorem test_fin2 :
    seen (exec (.fin2 0) { locked with slots := [finSlot] }) (fun t => t.slots.map fun sl => (sl.dig[30], sl.dig[31])) =
      some [(0x51, 0xbe)] := by decide
/-- R193. -/
theorem test_end :
    seen (exec .endRun { busyAt 100 with stg := 3 }) (fun t => (t.mode, t.di, t.stg, t.err)) = some (.ready, 0, 0, 0) := by decide

/-! ## Registers, reset and the sequencer -/

/-- Section 0 and V-CSR: `CAP` of the instance, reserved indices, an index of a slot it does not have. -/
theorem test_csr_reads :
    csrRead State.reset 0x003 = 0x00092003201E0004 ∧ [0x004, 0x00E, 0x102, 0x103, 0x120].map (csrRead State.reset) = [0, 0, 0, 0, 0] := by
  decide
/-- V-MIX, FIN1: the first digest word. -/
theorem test_digest_word :
    digWord ((((((((slot0.dig.set 0 0xfc).set 1 0x0e).set 2 0x47).set 3 0x48).set 4 0xb4).set 5 0x93).set 6 0x71).set 7 0x27) 0 =
      0x277193B448470EFC := by decide
/-- V-SEQ-SINGLE: the words at 0, 34, 35, 99 and 100 of the run of slot 3. -/
theorem test_sequence_words :
    [0, 34, 35, 99, 100].map (fun k => (busyAt k).dispatchWord) =
      [some 0x10300000, some 0x40301F1F, some 0x40300000, some 0x60300000, some 0xF0000000] := by decide
/-- V-CFG-LOCKED: `SEED` is not writable while locked, `MSGLEN[0]` is. -/
theorem test_locked_writes :
    seen (step (given { locked with seed := 0x0123456789ABCDEF } (.write 0x008 5))) State.seed = some 0x0123456789ABCDEF ∧
    seen (step (given locked (.write 0x101 8))) (fun t => csrRead t 0x101) = some 8 := by decide
/-- The table's words run as the first instruction after reset. -/
theorem test_fetch_word :
    seen (step (State.reset.withFetchWord 32 0x10000003)) State.err = some 2 ∧
    seen (step (State.reset.withFetchWord 32 0xF0000000)) (fun t => (t.mode, t.di)) = some (.ready, 0) := by decide

/-! ## Witnesses: for every statement with hypotheses, and for each of its clauses, states and operands that meet them -/

/-- An instance with 256 slots. -/
def wide : State := { locked with slots := List.replicate 256 slot0 }

/-- A slot whose message ends exactly at 2^64, and one whose message would pass it. -/
def slotAtEnd : Slot := { slot0 with msgAddr := 0xFFFFFFFFFFFFFFFF, msgLen := 1 }
def slotPastEnd : Slot := { slot0 with msgAddr := 0xFFFFFFFFFFFFFFFF, msgLen := 2 }

/-- DecodeOfEncodeIsTheInstruction, and the ranges of the operand fields in the statements of FOLD4, STEP, FIN1 and FIN2. -/
theorem witness_wellFormed :
    (Instr.hash 255).wellFormed = true ∧ (Instr.batch 65535).wellFormed = true ∧ (Instr.init 255).wellFormed = true ∧
      (Instr.step 255 31 31).wellFormed = true ∧ (Instr.fin2 0).wellFormed = true ∧ Instr.endRun.wellFormed = true := by decide
/-- AcceptedWordIsItsEncoding. -/
theorem witness_accepted_word :
    decode .command 0x100000FF = .ok (.hash 255) ∧ decode .dispatch 0x4FF01F1F = .ok (.step 255 31 31) := by decide
/-- IllegalCommandWordsAreRefused, AcceptanceByState (second clause): bits 63:32 set, in `STATE` 0 and 1. -/
theorem witness_illegal_write :
    ∃ s u : State, ∃ v : Word, running s = true ∧ s.mode = .unconfig ∧ s.inputs = .write 0x002 v :: [] ∧
      running u = true ∧ u.mode = .ready ∧ u.inputs = .write 0x002 v :: [] ∧ ∃ e, decodeCommand (v.extractLsb' 0 32) = .error e :=
  ⟨given idle (.write 0x002 0xFFFFFFFF00000001), given locked (.write 0x002 0xFFFFFFFF00000001), 0xFFFFFFFF00000001,
    rfl, rfl, rfl, rfl, rfl, rfl, _, rfl⟩
/-- IllegalCommandWordsAreRefused: a word of each kind, and the highest legal word of HASH. -/
theorem witness_illegal_kinds :
    (∃ e, decodeCommand 0x03000000 = .error e) ∧ (∃ e, decodeCommand 0x11010000 = .error e) ∧
    (∃ e, decodeCommand 0x00000001 = .error e) ∧ (∃ e, decodeCommand 0x10000100 = .error e) ∧
    decodeCommand 0x100000FF = .ok (.hash 255) := ⟨⟨_, rfl⟩, ⟨_, rfl⟩, ⟨_, rfl⟩, ⟨_, rfl⟩, rfl⟩
/-- StepRunsTheDecodedInstruction, first clause: RESETN listed as 1, then the end of the list. -/
theorem witness_command_step :
    running { given idle (.write 0x002 0xFFFFFFFF10000001) with resetn := [true] } = true ∧
      (given idle (.write 0x002 0xFFFFFFFF10000001)).inputs = .write 0x002 0xFFFFFFFF10000001 :: [] ∧ idle.mode ≠ .busy ∧
      decodeCommand ((0xFFFFFFFF10000001 : Word).extractLsb' 0 32) = .ok (.hash 1) := by decide
/-- StepRunsTheDecodedInstruction, second clause: the first and the last operation of a run. -/
theorem witness_sequencer_step :
    running (busyAt 0) = true ∧ (busyAt 0).mode = .busy ∧ (busyAt 0).dispatchWord = some 0x10300000 ∧
      decodeDispatch 0x10300000 = .ok (.init 3) ∧
      running (busyAt 100) = true ∧ (busyAt 100).dispatchWord = some 0xF0000000 ∧
      decodeDispatch 0xF0000000 = .ok .endRun := by decide
/-- ResetPinResetsEveryState: in the middle of a run, with a level left. -/
theorem witness_reset_pin : ({ busyAt 50 with resetn := [false, true] } : State).resetn = false :: [true] := rfl
/-- HostAccessesWaitDuringRun, AcceptanceByState (first clause), CapHoldsTheParameters (first clause), LockedConfigurationIsImmutable: a step of a run with an access pending. -/
theorem witness_busy_step :
    ∃ s t : State, running s = true ∧ s.mode = .busy ∧ s.inputs ≠ [] ∧ step s = .next t :=
  ⟨given (busyAt 0) (.read 0x000), _, rfl, rfl, by decide, rfl⟩
/-- AgentsTakeTurns: a step of SEQ, a step of HOST that writes a descriptor, and SRST. -/
theorem witness_turns :
    (running (busyAt 0) = true ∧ mover (busyAt 0) = .seq ∧ ∃ t, step (busyAt 0) = .next t) ∧
      (running (given locked (.write 0x118 1)) = true ∧ mover (given locked (.write 0x118 1)) = .host ∧
        (given locked (.write 0x118 1)).slots[3]? = some slot0 ∧ ∃ t, step (given locked (.write 0x118 1)) = .next t) ∧
      decodeCommand ((0x02000000 : Word).extractLsb' 0 32) = .ok .srst :=
  ⟨⟨rfl, rfl, _, rfl⟩, ⟨rfl, rfl, rfl, _, rfl⟩, rfl⟩
/-- CsrReadHasNoSideEffect: the first and the last index. -/
theorem witness_csr_read :
    running (given idle (.read 0x000)) = true ∧ idle.mode ≠ .busy ∧ (given idle (.read 0x000)).inputs = .read 0x000 :: [] ∧
      running (given locked (.read 0xFFF)) = true ∧ locked.mode ≠ .busy ∧
      (given locked (.read 0xFFF)).inputs = .read 0xFFF :: [] := by decide
/-- IdleStepKeepsTheState. -/
theorem witness_idle :
    running idle = true ∧ idle.mode ≠ .busy ∧ idle.inputs = [] ∧ running locked = true ∧ locked.mode ≠ .busy ∧
      locked.inputs = [] := by decide
/-- CsrReadMapIsTheSpecs: the three modes, the ends of the reserved ranges, the first and last slot of an instance, and the first
index past its slots. -/
theorem witness_csr_map :
    idle.mode = .unconfig ∧ locked.mode = .ready ∧ (busyAt 0).mode = .busy ∧
      (0x004 ≤ (0x004 : BitVec 12).toNat ∧ (0x007 : BitVec 12).toNat ≤ 0x007) ∧
      (0x00E ≤ (0x00E : BitVec 12).toNat ∧ (0x0FF : BitVec 12).toNat ≤ 0x0FF) ∧
      idle.slots[0]? = some slot0 ∧ idle.slots[3]? = some slot0 ∧ 0x100 + 8 * nslots idle ≤ (0x120 : BitVec 12).toNat := by decide
/-- CsrReadMapIsTheSpecs, DigestWordsAreLittleEndian, CapHoldsTheParameters: the last slot of the largest instance. -/
theorem witness_last_slot : nslots wide ≤ 256 ∧ 255 < 256 ∧ wide.slots[255]? = some slot0 :=
  ⟨(List.length_replicate (n := 256) (a := slot0)).le, by decide, List.getElem?_replicate_of_lt (by decide)⟩
/-- DigestWordsAreLittleEndian: the first and the last byte. -/
theorem witness_digest_byte :
    idle.slots[0]? = some slot0 ∧ 8 * 0 + 0 < 32 ∧ idle.slots[3]? = some slot0 ∧ 3 < 4 ∧ 7 < 8 := by decide
/-- ConfigurationWritesStoreWhileUnlocked: the first and the last of the six indices, an illegal value among them. -/
theorem witness_config_write :
    running (given idle (.write 0x008 5)) = true ∧ idle.mode = .unconfig ∧
      (given idle (.write 0x008 5)).inputs = .write 0x008 5 :: [] ∧ (given idle (.write 0x009 255)).inputs = .write 0x009 255 :: [] ∧
      (given idle (.write 0x00A 255)).inputs = .write 0x00A 255 :: [] ∧ (given idle (.write 0x00B 33)).inputs = .write 0x00B 33 :: [] ∧
      (given idle (.write 0x00C 0)).inputs = .write 0x00C 0 :: [] ∧ (given idle (.write 0x00D 3)).inputs = .write 0x00D 3 :: [] := by
  decide
/-- LockedConfigurationIsImmutable, first clause: both ends of the range. -/
theorem witness_locked_write :
    running (given locked (.write 0x008 5)) = true ∧ locked.mode = .ready ∧ 0x008 ≤ (0x008 : BitVec 12).toNat ∧
      (0x00D : BitVec 12).toNat ≤ 0x00D ∧ (given locked (.write 0x00D 5)).inputs = .write 0x00D 5 :: [] := by decide
/-- LockedConfigurationIsImmutable (second clause), TableIsImmutableWhileLocked: a table write while locked, a step of a run, and the
way out by SRST. -/
theorem witness_locked_step :
    (∃ t, locked.mode ≠ .unconfig ∧ tblLock locked = true ∧ step (given locked (.tblWrite 0 1)) = .next t) ∧
      (∃ t, (busyAt 100).mode ≠ .unconfig ∧ tblLock (busyAt 100) = true ∧ step (busyAt 100) = .next t) ∧
      ∃ t, step (given locked (.write 0x002 0x02000000)) = .next t ∧ t.mode = .unconfig :=
  ⟨⟨_, by decide, rfl, rfl⟩, ⟨_, by decide, rfl, rfl⟩, ⟨_, rfl, rfl⟩⟩
/-- DescriptorWritesStoreInEveryState: slot 3 in `STATE` 0 and 1, and slots 4 and 255 which the instance does not have. -/
theorem witness_descriptor_write :
    idle.slots[3]? = some slot0 ∧ locked.slots[3]? = some slot0 ∧
      (given idle (.write 0x118 1)).inputs = .write (BitVec.ofNat 12 (0x100 + 8 * 3)) 1 :: [] ∧
      (given locked (.write 0x119 1)).inputs = .write (BitVec.ofNat 12 (0x100 + 8 * 3 + 1)) 1 :: [] ∧
      nslots idle ≤ 4 ∧ 255 < 256 ∧ (given idle (.write 0x120 1)).inputs = .write (BitVec.ofNat 12 (0x100 + 8 * 4)) 1 :: [] ∧
      (given idle (.write 0x8F9 1)).inputs = .write (BitVec.ofNat 12 (0x100 + 8 * 255 + 1)) 1 :: [] := by decide
/-- WritesToReadOnlyIndicesChangeNothing: the ends of each range, the first index past the slots of this instance, and the first past
those of the largest. -/
theorem witness_read_only_write :
    running (given idle (.write 0x000 3)) = true ∧ (given idle (.write 0x001 3)).inputs = .write 0x001 3 :: [] ∧
      (0x003 ≤ (0x003 : BitVec 12).toNat ∧ (0x007 : BitVec 12).toNat ≤ 0x007) ∧
      (0x00E ≤ (0x00E : BitVec 12).toNat ∧ (0x0FF : BitVec 12).toNat ≤ 0x0FF) ∧
      (0x100 ≤ (0x102 : BitVec 12).toNat ∧ 2 ≤ ((0x102 : BitVec 12).toNat - 0x100) % 8) ∧
      (0x100 ≤ (0xFFF : BitVec 12).toNat ∧ 2 ≤ ((0xFFF : BitVec 12).toNat - 0x100) % 8) ∧
      0x100 + 8 * nslots idle ≤ (0x120 : BitVec 12).toNat ∧ 0x100 + 8 * nslots idle ≤ (0x900 : BitVec 12).toNat ∧
      running (given idle (.write 0x900 3)) = true ∧ idle.mode ≠ .busy ∧
      (given idle (.write 0x900 3)).inputs = .write 0x900 3 :: [] := by decide
/-- WritesToReadOnlyIndicesChangeNothing: 0x900 is past the slots of the largest instance too. -/
theorem witness_write_past_largest : 0x100 + 8 * nslots wide ≤ (0x900 : BitVec 12).toNat := by
  rw [nslots, wide, List.length_replicate]
  decide
/-- ErrChangesOnlyByCommandOrReset. -/
theorem witness_err_changes :
    (∃ t, step (given idle (.write 0x002 1)) = .next t ∧ t.err ≠ idle.err) ∧
      ∃ t, step { idle with err := 3, resetn := [false] } = .next t ∧ t.err ≠ 3 := ⟨⟨_, rfl, by decide⟩, ⟨_, rfl, by decide⟩⟩
/-- HostByteWritesReadBack: a locked and an unlocked state, the top address of either memory. -/
theorem witness_byte_writes :
    running (given locked (.msgWrite 0xFFFFFFFFFFFFFFFF 1)) = true ∧ locked.mode ≠ .busy ∧ Memory.wf locked.msg = true ∧
      (given locked (.msgWrite 0xFFFFFFFFFFFFFFFF 1)).inputs = .msgWrite 0xFFFFFFFFFFFFFFFF 1 :: [] ∧
      running (given idle (.tblWrite 0x3FFFFFFF 1)) = true ∧ idle.mode = .unconfig ∧ Memory.wf idle.tbl = true ∧
      (0x3FFFFFFF : Word).toNat < 2 ^ idle.mapBitsMax.val ∧
      (given idle (.tblWrite 0x3FFFFFFF 1)).inputs = .tblWrite 0x3FFFFFFF 1 :: [] := by decide
/-- NopClearsErrOnly, second clause. -/
theorem witness_nop_with_argument : (0x0000FFFF : CmdWord).extractLsb' 24 8 = 0 ∧ (0x0000FFFF : CmdWord) ≠ 0 := by decide
/-- CfglockLocksAValidConfiguration: the smallest and the largest table, 1 and 32 lanes, both variants. -/
theorem witness_valid_configuration :
    (idle.mode = .unconfig ∧ 0 ≤ idle.mapBitsMax.val ∧ (1 : Word).toNat = 2 ^ 0 ∧
      1 ≤ (1 : Word).toNat ∧ (1 : Word).toNat ≤ 32) ∧
    (configured.mode = .unconfig ∧ 30 ≤ configured.mapBitsMax.val ∧ (0x40000000 : Word).toNat = 2 ^ 30 ∧
      configured.variant = 2 ∧ configured.hashSize = 32 ∧ configured.tblLen = configured.mapSize) := by decide
/-- CfglockReportsEveryFailingCheck: each check by a value next to the legal ones (V-CFG). -/
theorem witness_invalid_configuration :
    idle.mode = .unconfig ∧ 2 ^ idle.mapBitsMax.val < (0x80000000 : Word).toNat ∧ (255 : Word) ≠ 256 ∧
      ¬(1 ≤ (33 : Word).toNat ∧ (33 : Word).toNat ≤ 32) ∧ ¬(1 ≤ (0 : Word).toNat ∧ (0 : Word).toNat ≤ 32) ∧
      ((3 : Word) ≠ 1 ∧ (3 : Word) ≠ 2) ∧ (16 : Word) ≠ 32 ∧ ¬ ∃ b, (0 : Word).toNat = 2 ^ b :=
  ⟨rfl, by decide, by decide, by decide, by decide, by decide, by decide, fun h => by
    obtain ⟨b, hb⟩ := h
    exact absurd hb (Nat.two_pow_pos b).ne⟩
/-- HashIsAccepted, HashRunGivesTheClosedForm (descriptor): a message that ends at 2^64. -/
theorem witness_hash_accepted :
    locked.mode = .ready ∧ ({ locked with slots := [slot0, slotAtEnd] } : State).slots[1]? = some slotAtEnd ∧
      slotAtEnd.msgAddr.toNat + slotAtEnd.msgLen.toNat ≤ 2 ^ 64 := by decide
/-- Every slot of `locked` is a slot of zeros. -/
theorem locked_slot {m : Nat} {sl : Slot} (h : locked.slots[m]? = some sl) : sl = slot0 := by
  have h' : (List.replicate 4 slot0)[m]? = some sl := h
  rw [List.getElem?_replicate] at h'
  split at h' <;> simp_all
/-- BatchIsAccepted, BatchRunGivesTheClosedForm, BatchEqualsSingle: the largest batch, and the empty one. -/
theorem witness_batch_accepted :
    locked.mode = .ready ∧ configValid locked = true ∧ locked.resetn = [] ∧ nslots locked ≤ 256 ∧ 4 ≤ nslots locked ∧
      0 ≤ nslots locked ∧ 3 < 4 ∧
      (given locked (.write 0x002 0x11000004)).inputs = .write 0x002 (BitVec.ofNat 64 (0x11000000 + 4)) :: [] ∧
      ∀ m sl, m < 4 → locked.slots[m]? = some sl → sl.msgAddr.toNat + sl.msgLen.toNat ≤ 2 ^ 64 :=
  ⟨rfl, by decide, rfl, by decide, by decide, by decide, by decide, by decide, fun m sl _ h => by
    rw [locked_slot h]; decide⟩
/-- AcceptanceByState: each refusal at the value next to acceptance. -/
theorem witness_refusals :
    idle.mode ≠ .busy ∧ configValid idle = false ∧ configured.mode = .unconfig ∧ configValid configured = true ∧
      locked.mode = .ready ∧ nslots locked ≤ 4 ∧ nslots locked < 5 ∧
      ({ locked with slots := [slot0, slotPastEnd] } : State).slots[1]? = some slotPastEnd ∧
      2 ^ 64 < slotPastEnd.msgAddr.toNat + slotPastEnd.msgLen.toNat ∧
      2 ≤ nslots { locked with slots := [slot0, slotPastEnd] } := by decide
/-- RefusalChangesOnlyErr: a command that is refused, and one that is not. -/
theorem witness_refused_command :
    (Instr.hash 4).kind = .command ∧ seen (exec (.hash 4) locked) State.err = some 4 ∧
      seen (exec .nop locked) State.err = some 0 := by decide
/-- InitSetsSeedAndZeroLanes, Fin1EmitsLowBytesOfLanes: HASHSIZE 32 and 0, and the lanes on both sides of HASHSIZE 31. -/
theorem witness_lane_operations :
    locked.slots[3]? = some slot0 ∧ locked.hashSize.toNat ≤ 32 ∧ idle.hashSize.toNat ≤ 32 ∧
      30 < ({ locked with hashSize := 31 } : State).hashSize.toNat ∧ ({ locked with hashSize := 31 } : State).hashSize.toNat ≤ 31 ∧
      slot0.lanes[31]? = some 0 := by decide
/-- PrepDigestsTheMessageTwice: the empty message, and one byte at the top of the message memory. -/
theorem witness_prep :
    (locked.slots[0]? = some slot0 ∧ slot0.msgAddr.toNat + slot0.msgLen.toNat ≤ 2 ^ 64 ∧ ([] : List Byte).length = slot0.msgLen.toNat) ∧
    (({ locked with slots := [slotAtEnd], msg := [(0xFFFFFFFFFFFFFFFF, 7)] } : State).slots[0]? = some slotAtEnd ∧
      slotAtEnd.msgAddr.toNat + slotAtEnd.msgLen.toNat ≤ 2 ^ 64 ∧ ([7] : List Byte).length = slotAtEnd.msgLen.toNat ∧
      ∀ k, k < slotAtEnd.msgLen.toNat →
        ([7] : List Byte)[k]? = some (memRead [(0xFFFFFFFFFFFFFFFF, 7)] (slotAtEnd.msgAddr.toNat + k))) := by decide
/-- Fold4FoldsFourSourceBytes. -/
theorem witness_fold4 :
    locked.slots[3]? = some slot0 ∧ slot0.src[0]? = some 0 ∧ slot0.src[1]? = some 0 ∧ slot0.src[2]? = some 0 ∧
      slot0.src[3]? = some 0 := by decide
/-- StepRunsItsElevenStages, StepReadsNineAddressesInRange: the last lane and position, and the largest table. -/
theorem witness_step :
    locked.slots[3]? = some slot0 ∧ 31 < locked.hashSize.toNat ∧ slot0.lanes[31]? = some 0 ∧ slot0.src[31]? = some 0 ∧
      locked.mapSize ≠ 0 ∧ locked.mapSize.toNat ≤ 2 ^ locked.mapBitsMax.val ∧
      (0x40000000 : Word).toNat ≤ 2 ^ locked.mapBitsMax.val := by decide
/-- StageViewAgreesWithStep, StepReadsNineAddressesInRange: a STEP that answers a next state. -/
theorem witness_step_next : locked.stg = 0 ∧ ∃ t, exec (.step 3 31 31) locked = .next t := ⟨rfl, exists_next (by decide)⟩
/-- StepReadsNineAddressesInRange, last clause: with the one-byte table every address read is 0, so a table that differs at 1 will do. -/
theorem witness_other_table :
    ∀ a ∈ mixAddrs (1 - 1) 0 0 0 (memRead []), memRead [(1, 9)] a.toNat = memRead [] a.toNat := fun a ha => by
  obtain ⟨r, -, rfl⟩ := List.mem_map.mp ha
  simp [lookupAddr, memRead]
/-- Fin2ChainsFromLastLaneToFirst: the chain over lanes of zeros from an accumulator of 0, with 32 lanes. -/
theorem witness_fin2 :
    locked.slots[0]? = some slot0 ∧ locked.hashSize.toNat ≤ 32 ∧ (fun _ : Nat => (0 : Word)) locked.hashSize.toNat = slot0.acc ∧
      ∀ i, i < locked.hashSize.toNat → slot0.lanes[i]? = some (((0 : Word) <<< 8) ^^^ ((0 : Word) >>> 1)) := by decide
/-- InstructionsStopExactlyWhereNotLegal: slot and lane at the bound. -/
theorem witness_outside_table :
    opSlot (.fin1 4) = some 4 ∧ nslots locked ≤ 4 ∧ 3 < nslots locked ∧ locked.hashSize.toNat ≤ 32 ∧
      opLegal locked (.step 3 31 31) = true ∧ opLegal locked (.step 3 32 31) = false := by decide
/-- NoInstructionWritesMemory, OperationsTouchOnlyTheirSlot, OperationsReadOnlyTheirSlot: an operation and a command that answer. -/
theorem witness_operation :
    (opSlot (.prep 3) = some 3 ∧ ∃ t, exec (.prep 3) locked = .next t) ∧ (∃ t, exec .srst locked = .next t) ∧
      ({ locked with slots := [slotPastEnd, slot0, slot0, slot0], err := 3, mode := .busy } : State).slots[3]? = locked.slots[3]? :=
  ⟨⟨rfl, _, rfl⟩, ⟨_, rfl⟩, rfl⟩
/-- OnlyPrepAndStepReadMemory: a PREP, which reads no table byte, and a STEP, which reads no message byte. -/
theorem witness_asked :
    (Agent.tbl ∉ asked (.prep 3) ∧ ∃ t, exec (.prep 3) locked = .next t) ∧
      (Agent.host ∉ asked (.step 3 31 31) ∧ ∃ t, exec (.step 3 31 31) locked = .next t) :=
  ⟨⟨by decide, _, rfl⟩, by decide, exists_next (by decide)⟩
/-- DigestByteDependsOnHigherLanesOnly: two states that differ in a lane below the byte looked at, the last byte. -/
theorem witness_digest_dependence :
    ∃ s u s' u' s1 u1 x' y', s = { locked with slots := [slot0] } ∧
      u = { locked with slots := [{ slot0 with lanes := slot0.lanes.set 30 1 }] } ∧ 31 < s.hashSize.toNat ∧
      exec (.fin2 0) s = .next s' ∧ exec (.fin2 0) u = .next u' ∧ exec (.fin1 0) s = .next s1 ∧ exec (.fin1 0) u = .next u1 ∧
      s'.slots[0]? = some x' ∧ u'.slots[0]? = some y' ∧ slot0.lanes[31]? = (slot0.lanes.set 30 1)[31]? :=
  ⟨_, _, _, _, _, _, _, _, rfl, rfl, by decide, rfl, rfl, rfl, rfl, rfl, rfl, by decide⟩
/-- SingleSequenceIsTheSpecs, BatchSequenceIsTheSpecs, CountersProduceTheSequence: the last pass, position and member; the last index. -/
theorem witness_sequence : ((2 : Word) = 1 ∨ (2 : Word) = 2) ∧ 2 < 3 ∧ 31 < 32 ∧ 3 < 4 ∧ 400 ≤ 100 * 4 := by decide
/-- ResetMeetsTheInvariant: the smallest and the largest instance. -/
theorem witness_instance_sizes : 1 ≤ 1 ∧ 256 ≤ 256 := by decide
/-- EveryStepKeepsTheInvariant, NothingCanGoWrong, EveryRunEnds: the invariant holds at END of an active run of the last slot. -/
theorem witness_inv_busy : Inv (busyAt 100) :=
  ⟨by decide, by decide, by decide, by decide, by decide, by decide, by decide, by decide, by decide, by decide, by decide, by decide⟩
/-- The same in `STATE` 1, with an access pending, and in `STATE` 0 with the highest table write the memory takes. -/
theorem witness_inv_idle :
    Inv (given locked (.write 0x002 0x10000003)) ∧ Inv (given idle (.tblWrite 0x3FFFFFFF 1)) ∧
      hostInRange (given idle (.tblWrite 0x3FFFFFFF 1)) = true ∧ hostInRange (given locked (.tblWrite 0xFFFFFFFFFFFFFFFF 1)) = true :=
  ⟨⟨by decide, by decide, by decide, by decide, by decide, by decide, by decide, by decide, by decide, by decide, by decide, by decide⟩,
    ⟨by decide, by decide, by decide, by decide, by decide, by decide, by decide, by decide, by decide, by decide, by decide, by decide⟩,
    by decide, by decide⟩
/-- EveryStepKeepsTheInvariant: the last step of a run; EveryRunEnds: RESETN stays 1. -/
theorem witness_run_end : (busyAt 100).mode = .busy ∧ (busyAt 100).resetn = [] ∧ ∃ t, step (busyAt 100) = .next t := ⟨rfl, rfl, _, rfl⟩
/-- StateChangesOnlyAsListed: the four changes that are no reset. -/
theorem witness_state_changes :
    seen (step (given configured (.write 0x002 0x01000000))) State.mode = some .ready ∧
      seen (step (given locked (.write 0x002 0x10000003))) State.mode = some .busy ∧
      seen (step (busyAt 100)) State.mode = some .ready ∧
      seen (step (given locked (.write 0x002 0x02000000))) State.mode = some .unconfig := by decide
/-- DigestsChangeOnlyByFinalizerOrReset: FIN2 of a run, and SRST. -/
theorem witness_digest_changes :
    (∃ t x y, step { busyAt 99 with slots := [slot0, slot0, slot0, finSlot] } = .next t ∧ x = finSlot ∧
      t.slots[3]? = some y ∧ y.dig ≠ x.dig) ∧
    ∃ t y, step { given locked (.write 0x002 0x02000000) with slots := [finSlot] } = .next t ∧ t.slots[0]? = some y ∧ y.dig ≠ finSlot.dig :=
  ⟨⟨_, _, _, rfl, rfl, rfl, by decide⟩, ⟨_, _, rfl, rfl, by decide⟩⟩
/-- HashRunGivesTheClosedForm: the last slot of the instance. -/
theorem witness_hash_run :
    (given locked (.write 0x002 0x10000003)).resetn = [] ∧ locked.mode = .ready ∧ configValid locked = true ∧ nslots locked ≤ 256 ∧
      locked.slots[3]? = some slot0 ∧ slot0.msgAddr.toNat + slot0.msgLen.toNat ≤ 2 ^ 64 ∧
      (given locked (.write 0x002 0x10000003)).inputs = .write 0x002 (BitVec.ofNat 64 (0x10000000 + 3)) :: [] := by decide

end Sys2Proof.Tests
end

/-!
The agents of a step: which words decode to which kind of instruction, what a command and a dispatched operation leave
unchanged, and what HOST's and SEQ's turns do to the hidden state, the memories and the host port (R4, R13, R21 to R23). Then the invariant at reset (R9, R45).
-/
namespace Sys2Proof.Proofs

open Sys2Proof.Machine Sys2Proof.Laws

/-! ## The kind of a decoded instruction -/

/-- A command word decodes to a command (R92). -/
theorem kind_of_decodeCommand {w : CmdWord} {i : Instr} (h : decodeCommand w = .ok i) : i.kind = .command := by
  unfold decodeCommand at h
  split_ifs at h <;> cases h <;> rfl

/-- A dispatch word decodes to a dispatched operation (R101). -/
theorem kind_of_decodeDispatch {w : CmdWord} {i : Instr} (h : decodeDispatch w = .ok i) : i.kind = .dispatch := by
  unfold decodeDispatch at h
  split_ifs at h <;> cases h <;> rfl

/-! ## What a command can do -/

/-- Everything `CFGLOCK` can do: lock a valid configuration, report the failing checks, or refuse with `LOCKED` (R123). -/
theorem execCfglock_next {s t : State} (h : execCfglock s = .next t) :
    (s.mode = .unconfig ∧ configValid s = true ∧ t = { s.setErr .ok 0 with mode := .ready }) ∨
    (s.mode = .unconfig ∧ configValid s = false ∧ t = s.setErr .cfgInvalid (cfgCause s)) ∨
    (s.mode ≠ .unconfig ∧ t = s.setErr .locked 0) := by
  unfold execCfglock raiseRefusal at h
  split at h
  next hm =>
    split_ifs at h with hc <;> cases h
    · exact .inl ⟨hm, cfgCause_eq_zero_iff.mp hc, rfl⟩
    · exact .inr (.inl ⟨hm, by rwa [cfgCause_eq_zero_iff, Bool.not_eq_true] at hc, rfl⟩)
  next hm => cases h; exact .inr (.inr ⟨by simp [hm], rfl⟩)
  next hm => cases h; exact .inr (.inr ⟨by simp [hm], rfl⟩)

/-- Everything `HASH` can do: accept the run of a slot with a good descriptor, or refuse (R170). -/
theorem execHash_next {slot : Nat} {s t : State} (h : execHash slot s = .next t) :
    (∃ sl, s.mode = .ready ∧ s.slots[slot]? = some sl ∧ descOk sl = true ∧ t = s.acceptRun .single slot 1) ∨
    (s.mode = .ready ∧ ∃ sl, s.slots[slot]? = some sl ∧ descOk sl = false ∧ t = s.setErr .badDesc 0) ∨
    (s.mode = .ready ∧ s.slots[slot]? = none ∧ t = s.setErr .badSlot 0) ∨
    (s.mode ≠ .ready ∧ t = s.setErr .notReady 0) := by
  unfold execHash raiseRefusal at h
  split_ifs at h with hm
  · split at h
    next hs => cases h; exact .inr (.inr (.inl ⟨hm, hs, rfl⟩))
    next sl hs =>
      split_ifs at h with hd <;> cases h
      · exact .inl ⟨sl, hm, hs, hd, rfl⟩
      · exact .inr (.inl ⟨hm, sl, hs, by simpa using hd, rfl⟩)
  · cases h; exact .inr (.inr (.inr ⟨hm, rfl⟩))

/-- Everything `BATCH` can do: accept the run of slots with good descriptors, or refuse (R180). -/
theorem execBatch_next {count : Nat} {s t : State} (h : execBatch count s = .next t) :
    (s.mode = .ready ∧ count ≤ nslots s ∧ (s.slots.take count).all descOk = true ∧ t = s.acceptRun .batch 0 count) ∨
    (s.mode = .ready ∧ count ≤ nslots s ∧ (s.slots.take count).all descOk = false ∧ t = s.setErr .badDesc 0) ∨
    (s.mode = .ready ∧ nslots s < count ∧ t = s.setErr .badSlot 0) ∨
    (s.mode ≠ .ready ∧ t = s.setErr .notReady 0) := by
  unfold execBatch raiseRefusal at h
  split_ifs at h with hm hc hd <;> cases h
  · exact .inl ⟨hm, hc, hd, rfl⟩
  · exact .inr (.inl ⟨hm, hc, by simpa using hd, rfl⟩)
  · exact .inr (.inr (.inl ⟨hm, Nat.lt_of_not_le hc, rfl⟩))
  · exact .inr (.inr (.inr ⟨hm, rfl⟩))

/-- No command but `SRST` touches a slot (R44, R127). -/
theorem slots_of_exec_command {i : Instr} {s t : State} (hk : i.kind = .command) (h : exec i s = .next t) :
    i = .srst ∨ t.slots = s.slots := by
  cases i with
  | nop => cases h; exact .inr rfl
  | cfglock =>
    rcases execCfglock_next h with ⟨_, _, rfl⟩ | ⟨_, _, rfl⟩ | ⟨_, rfl⟩ <;> exact .inr rfl
  | srst => exact .inl rfl
  | hash slot =>
    rcases execHash_next h with ⟨_, _, _, _, rfl⟩ | ⟨_, _, _, _, rfl⟩ | ⟨_, _, rfl⟩ | ⟨_, rfl⟩ <;> exact .inr rfl
  | batch count =>
    rcases execBatch_next h with ⟨_, _, _, rfl⟩ | ⟨_, _, _, rfl⟩ | ⟨_, _, rfl⟩ | ⟨_, rfl⟩ <;> exact .inr rfl
  | init | prep | fold4 | step | fin1 | fin2 | endRun => cases hk

/-! ## What a dispatched operation can do -/

/-- Everything a dispatched operation can do: work on its slot and advance `di`, or, `END`, finish the run (R24, R44, R193). -/
theorem exec_dispatch_next {i : Instr} {s t : State} (hk : i.kind = .dispatch) (h : exec i s = .next t) :
    (∃ m, opSlot i = some m ∧ SlotFrame m s t) ∨ (i = .endRun ∧ t = s.finishRun) := by
  cases i with
  | nop | cfglock | srst | hash | batch => cases hk
  | init m => exact .inl ⟨m, rfl, onSlot_frame h⟩
  | prep m => exact .inl ⟨m, rfl, onSlot_frame h⟩
  | fold4 m => exact .inl ⟨m, rfl, onSlot_frame (f := fun sl => .ok (fold4Slot sl)) h⟩
  | step m lane pos => exact .inl ⟨m, rfl, onSlot_frame h⟩
  | fin1 m => exact .inl ⟨m, rfl, onSlot_frame h⟩
  | fin2 m => exact .inl ⟨m, rfl, onSlot_frame h⟩
  | endRun => cases h; exact .inr ⟨rfl, rfl⟩

/-- The host port and both memories stand as they were: what SEQ cannot touch (R13, R60). -/
structure HostSideKept (s t : State) : Prop where
  inputs : t.inputs = s.inputs
  answers : t.answers = s.answers
  table : ∀ a, memRead t.tbl a = memRead s.tbl a
  message : ∀ a, memRead t.msg a = memRead s.msg a

/-- An operation on one slot keeps the host's side. -/
theorem hostSideKept_of_slotFrame {m : Nat} {s t : State} (h : SlotFrame m s t) : HostSideKept s t where
  inputs := by rw [h.rest]
  answers := by rw [h.rest]
  table := h.table
  message := h.message

/-- The end of a run keeps the host's side. -/
theorem hostSideKept_finishRun (s : State) : HostSideKept s s.finishRun := ⟨rfl, rfl, fun _ => rfl, fun _ => rfl⟩

/-- Every dispatched operation keeps the host's side. -/
theorem hostSideKept_of_exec_dispatch {i : Instr} {s t : State} (hk : i.kind = .dispatch) (h : exec i s = .next t) :
    HostSideKept s t := by
  rcases exec_dispatch_next hk h with ⟨_, _, hf⟩ | ⟨_, rfl⟩
  · exact hostSideKept_of_slotFrame hf
  · exact hostSideKept_finishRun s

/-- SEQ's turn keeps the host's side. -/
theorem hostSideKept_of_sequencerStep {s t : State} (h : sequencerStep s = .next t) : HostSideKept s t := by
  obtain ⟨_, _, _, hi, hx⟩ := sequencerStep_next h
  exact hostSideKept_of_exec_dispatch (kind_of_decodeDispatch hi) hx

/-! ## The command a host access presents -/

/-- `CMD` is index 2 and no other (R28). -/
theorem csrAt_eq_cmd_iff {k : BitVec 12} : csrAt k = .cmd ↔ k = 0x002 := by
  constructor
  · intro h
    unfold csrAt at h
    split at h
    case h_3 hk => exact BitVec.eq_of_toNat_eq hk
    case h_11 =>
      split at h
      · split at h <;> cases h
      · cases h
    all_goals cases h
  · rintro rfl; rfl

/-- The only host access that presents a command is a write to `CMD`; the command is bits 31:0 of its value (R38, R93). -/
theorem commandOf_eq_some_iff {a : Input} {w : CmdWord} :
    commandOf a = some w ↔ ∃ v, a = .write 0x002 v ∧ w = v.extractLsb' 0 32 := by
  have low (v : Word) : v.setWidth 32 = v.extractLsb' 0 32 := BitVec.setWidth_eq_extractLsb' (by decide)
  cases a with
  | read k => simp [commandOf]
  | write k v => simp [commandOf, csrAt_eq_cmd_iff, low, eq_comm (a := w)]
  | msgWrite x b => simp [commandOf]
  | tblWrite x b => simp [commandOf]

/-! ## The hidden state -/

/-- Every accumulator, lane and source byte of `s` is in `t` as it was: the state with no port at the host (R21 to R23). -/
def HiddenKept (s t : State) : Prop :=
  ∀ (m : Nat) (x y : Slot), s.slots[m]? = some x → t.slots[m]? = some y →
    y.acc = x.acc ∧ y.lanes = x.lanes ∧ y.src = x.src

theorem hiddenKept_of_slots_eq {s t : State} (h : t.slots = s.slots) : HiddenKept s t := by
  intro m x y hx hy
  rw [h, hx] at hy
  cases hy
  exact ⟨rfl, rfl, rfl⟩

/-- A slot put back with its hidden part as it was. -/
theorem hiddenKept_putSlot {s : State} {m : Nat} {sl sl' : Slot} (hsl : s.slots[m]? = some sl)
    (h : sl'.acc = sl.acc ∧ sl'.lanes = sl.lanes ∧ sl'.src = sl.src) : HiddenKept s (s.putSlot m sl') := by
  intro k x y hx hy
  have hy' : (if k = m then some sl' else s.slots[k]?) = some y := (getElem?_putSlot_advance hsl).symm.trans hy
  split_ifs at hy' with hk
  · cases hy'
    obtain rfl : sl = x := by rw [hk, hsl] at hx; exact Option.some.inj hx
    exact h
  · rw [hx] at hy'
    cases hy'
    exact ⟨rfl, rfl, rfl⟩

/-- No CSR write reaches the hidden state (R27). -/
theorem hiddenKept_csrWrite (s : State) (k : BitVec 12) (v : Word) : HiddenKept s (csrWrite s k v) := by
  rcases csrWrite_cases s k v with he | ⟨_, _, _, _, _, _, _, he⟩ | ⟨m, sl, sl', hsl, _, ha, hl, hs, he⟩ <;> rw [he]
  · exact hiddenKept_of_slots_eq rfl
  · exact hiddenKept_of_slots_eq rfl
  · exact hiddenKept_putSlot hsl ⟨ha, hl, hs⟩

/-- No host access that is not a command reaches the hidden state. -/
theorem hiddenKept_of_hostAccess {a : Input} {s t : State} (h : hostAccess a s = .next t) : HiddenKept s t := by
  rcases hostAccess_next h with
    ⟨_, _, rfl⟩ | ⟨k, v, _, rfl⟩ | ⟨_, _, _, rfl⟩ | ⟨_, _, _, _, rfl⟩ | ⟨_, _, _, _, _, rfl⟩
  · exact hiddenKept_of_slots_eq rfl
  · exact hiddenKept_csrWrite s k v
  · exact hiddenKept_of_slots_eq rfl
  · exact hiddenKept_of_slots_eq rfl
  · exact hiddenKept_of_slots_eq rfl

/-- HOST's turn keeps the hidden state, or is an `SRST` (R21 to R23, R127). -/
theorem hiddenKept_of_hostStep {s t : State} (h : hostStep s = .next t) :
    HiddenKept s t ∨ ∃ v rest, s.inputs = .write 0x002 v :: rest ∧ decodeCommand (v.extractLsb' 0 32) = .ok .srst := by
  rcases hostStep_next h with
    ⟨_, rfl⟩ | ⟨a, rest, w, i, hin, ha, hi, hx⟩ | ⟨_, _, _, _, _, _, _, rfl⟩ | ⟨a, rest, _, _, hx⟩
  · exact .inl (hiddenKept_of_slots_eq rfl)
  · rcases slots_of_exec_command (kind_of_decodeCommand hi) hx with rfl | hs
    · obtain ⟨v, rfl, rfl⟩ := commandOf_eq_some_iff.mp ha
      exact .inr ⟨v, rest, hin, hi⟩
    · exact .inl (hiddenKept_of_slots_eq hs)
  · exact .inl (hiddenKept_of_slots_eq rfl)
  · exact .inl (hiddenKept_of_hostAccess (s := { s with inputs := rest }) hx)

/-! ## The turns -/

/-- With RESETN at 1 a step is the moving agent's, its RESETN levels moved on by one (R13). -/
theorem step_of_running {s : State} (h : running s = true) :
    step s = runningStep { s with resetn := s.resetn.tail } := by
  obtain ⟨_, _, _, _, _, _, _, _, _, _, _, _, _, _, _, _, _, _, _, resetn, _⟩ := s
  rcases resetn with _ | ⟨level, rest⟩
  · rfl
  · cases level with
    | false => simp [running] at h
    | true => rfl

/-- With RESETN at 1 and a run active a step is SEQ's (R13). -/
theorem step_of_busy {s : State} (hr : running s = true) (hm : s.mode = .busy) :
    step s = sequencerStep { s with resetn := s.resetn.tail } :=
  (step_of_running hr).trans (runningStep_of_busy hm)

/-- With RESETN at 1 and no run active a step is HOST's (R13). -/
theorem step_of_not_busy {s : State} (hr : running s = true) (hm : s.mode ≠ .busy) :
    step s = hostStep { s with resetn := s.resetn.tail } :=
  (step_of_running hr).trans (runningStep_of_not_busy hm)

/-- Settles O8: SEQ's step is a dispatched operation, which keeps the host's side; HOST's is a command or an access, and of
these only `SRST` reaches the hidden state. -/
theorem agentsTakeTurns : Obligations.AgentsTakeTurns := by
  intro s t hr h
  refine ⟨mover_eq_seq_iff, mover_eq_host_iff, fun hseq => ?_, fun hhost => ?_⟩
  · rw [step_of_busy hr (mover_eq_seq_iff.mp hseq)] at h
    obtain ⟨hin, hans, htbl, hmsg⟩ := hostSideKept_of_sequencerStep h
    exact ⟨hin, hans, htbl, hmsg⟩
  · rw [step_of_not_busy hr (mover_eq_host_iff.mp hhost)] at h
    exact hiddenKept_of_hostStep (s := { s with resetn := s.resetn.tail }) h

/-! ## The invariant at reset -/

/-- The digest of a fresh slot is 0 from any index up (R36, R45). -/
theorem digestZeroFrom_fresh (h r m : Nat) : digestZeroFrom h (Slot.fresh r m).dig = true := by
  have zero : ∀ i ∈ List.range 32, (Slot.fresh r m).dig[i]? = some 0 := by
    intro i hi
    have hi : i < 32 := List.mem_range.mp hi
    simp [Slot.fresh, hi]
  refine List.all_eq_true.mpr fun i hi => ?_
  simp [zero i hi]

/-- All slots right after a reset meet the digest part of the invariant. -/
theorem all_digestZeroFrom_freshSlots (h r n : Nat) :
    ((freshSlots r n).all fun sl => digestZeroFrom h sl.dig) = true := by
  simp [freshSlots, digestZeroFrom_fresh]

@[simp] theorem nslots_resetOf (n : Nat) (b : Fin 64) : nslots (State.resetOf n b) = n := length_freshSlots 0 n

/-- Settles O49: at reset the memories list nothing, no configuration is locked, no run is active and every digest is 0. -/
theorem resetMeetsTheInvariant : Obligations.ResetMeetsTheInvariant := by
  intro n b hpos hmax
  exact {
    slots_pos := (nslots_resetOf n b).symm ▸ hpos
    slots_max := (nslots_resetOf n b).symm ▸ hmax
    tbl_wf := (wf_resetOf n b).1
    msg_wf := (wf_resetOf n b).2
    tbl_below := rfl
    msg_below := rfl
    stage_zero := rfl
    locked_valid := fun h => absurd rfl h
    idle_index := fun _ => rfl
    run_legal := fun h => nomatch h
    err_legal := show errLegal 0 = true by decide
    digest_zero := all_digestZeroFrom_freshSlots 0 0 n }

end Sys2Proof.Proofs

/-!
What a step can do, said once: the effect of every dispatched operation on its slot (R44), the effect of every command
(R203, R127, R170, R180), what a host access that is no command keeps, and from these the cases of a step.
-/
namespace Sys2Proof.Proofs

open Sys2Proof.Machine Sys2Proof.Laws

/-! ## Dispatched operations as functions of their slot -/

/-- What an instruction makes of the slot it works on; an instruction that works on no slot leaves it (R141 to R143, R150,
R191, R192). -/
def slotEffect (s : State) : Instr → Slot → Except Fault Slot
  | .init _, sl =>
    if s.hashSize.toNat ≤ Config.lanesMax then .ok (initSlot s.seed s.hashSize.toNat sl) else .error (.laneCount s.hashSize)
  | .prep m, sl =>
    if descOk sl then .ok { sl with src := preprocess Config.digest (slotMessage s sl) } else .error (.messageRange m)
  | .fold4 _, sl => .ok (fold4Slot sl)
  | .step m lane pos, sl => mixSlot m lane pos s sl
  | .fin1 _, sl =>
    if s.hashSize.toNat ≤ Config.lanesMax then .ok { sl with dig := fin1Digest sl.lanes s.hashSize.toNat }
    else .error (.laneCount s.hashSize)
  | .fin2 _, sl =>
    if s.hashSize.toNat ≤ Config.lanesMax then .ok (fin2Slot s.hashSize.toNat sl) else .error (.laneCount s.hashSize)
  | .nop, sl | .cfglock, sl | .srst, sl | .hash _, sl | .batch _, sl | .endRun, sl => .ok sl

/-- An instruction with a slot applies its effect to that slot and advances `di`. -/
theorem exec_eq_onSlot {i : Instr} {m : Nat} (h : opSlot i = some m) (s : State) :
    exec i s = onSlot i m (slotEffect s i) s := by
  cases i with
  | nop | cfglock | srst | hash | batch | endRun => cases h
  | init | prep | fold4 | step | fin1 | fin2 => cases h; rfl

/-- STEP answers for a lane below HASHSIZE and a position of the source, under a table size the block has; then the
accumulator and the one lane are what `mix` makes of them (R150, R157). -/
theorem mixSlot_eq_ok {m lane pos : Nat} {s : State} {sl sl' : Slot} (h : mixSlot m lane pos s sl = .ok sl') :
    ∃ l0 v, sl.lanes[lane]? = some l0 ∧ sl.src[pos]? = some v ∧
      sl' = { sl with
        acc := (mix (memRead s.tbl) (maskOf s.mapSize) sl.acc l0 v).1
        lanes := sl.lanes.setIfInBounds lane (mix (memRead s.tbl) (maskOf s.mapSize) sl.acc l0 v).2 } := by
  unfold mixSlot at h
  split at h
  · split at h
    · next l0 v hl hv =>
      split at h
      · cases h; exact ⟨l0, v, hl, hv, rfl⟩
      · cases h
    · cases h
  · cases h

/-- Every effect on a slot keeps its descriptor (R39). -/
theorem slotEffect_descriptor {i : Instr} {s : State} {sl sl' : Slot} (h : slotEffect s i sl = .ok sl') :
    sl'.msgAddr = sl.msgAddr ∧ sl'.msgLen = sl.msgLen := by
  cases i with
  | init | prep | fin1 | fin2 => simp only [slotEffect] at h; split at h <;> cases h; exact ⟨rfl, rfl⟩
  | step => obtain ⟨_, _, _, _, rfl⟩ := mixSlot_eq_ok h; exact ⟨rfl, rfl⟩
  | nop | cfglock | srst | hash | batch | fold4 | endRun => cases h; exact ⟨rfl, rfl⟩

/-- Only the finalizers write the digest (R36, R191, R192). -/
theorem slotEffect_dig {i : Instr} {s : State} {sl sl' : Slot} (h : slotEffect s i sl = .ok sl') :
    sl'.dig = sl.dig ∨ (∃ m, i = .fin1 m ∧ sl'.dig = fin1Digest sl.lanes s.hashSize.toNat) ∨
      ∃ m, i = .fin2 m ∧ sl'.dig = (fin2Slot s.hashSize.toNat sl).dig := by
  cases i with
  | init | prep => simp only [slotEffect] at h; split at h <;> cases h; exact .inl rfl
  | step => obtain ⟨_, _, _, _, rfl⟩ := mixSlot_eq_ok h; exact .inl rfl
  | fin1 m => simp only [slotEffect] at h; split at h <;> cases h; exact .inr (.inl ⟨m, rfl, rfl⟩)
  | fin2 m => simp only [slotEffect] at h; split at h <;> cases h; exact .inr (.inr ⟨m, rfl, rfl⟩)
  | nop | cfglock | srst | hash | batch | fold4 | endRun => cases h; exact .inl rfl

/-- Everything a dispatched operation can do: apply its effect to its slot and advance `di`, or, `END`, finish the run. -/
theorem exec_dispatch_cases {i : Instr} {s t : State} (hk : i.kind = .dispatch) (h : exec i s = .next t) :
    (∃ m sl sl', opSlot i = some m ∧ s.slots[m]? = some sl ∧ slotEffect s i sl = .ok sl' ∧
      t = (s.putSlot m sl').advance) ∨ (i = .endRun ∧ t = s.finishRun) := by
  rcases exec_dispatch_next hk h with ⟨m, hm, _⟩ | hend
  · rw [exec_eq_onSlot hm] at h
    obtain ⟨sl, sl', hsl, he, ht⟩ := onSlot_next.mp h
    exact .inl ⟨m, sl, sl', hm, hsl, he, ht⟩
  · exact .inr hend

/-! ## Slots put back -/

/-- A slot read after another was put back is the one put back or the one that stood there. -/
theorem getElem?_putSlot {s : State} {m k : Nat} {sl sl' x y : Slot} (hsl : s.slots[m]? = some sl)
    (hx : s.slots[k]? = some x) (hy : (s.putSlot m sl').slots[k]? = some y) : (k = m ∧ x = sl ∧ y = sl') ∨ y = x := by
  have hput : (if k = m then some sl' else s.slots[k]?) = some y := (getElem?_putSlot_advance hsl).symm.trans hy
  split_ifs at hput with hk
  · subst hk
    exact .inl ⟨rfl, by rw [hsl] at hx; exact (Option.some.inj hx).symm, (Option.some.inj hput).symm⟩
  · exact .inr (Option.some.inj (hput.symm.trans hx))

/-! ## Commands -/

/-- A field placed above all bits of the rest of a word adds its value, shifted. -/
theorem toNat_or_shiftLeft {x y : Word} {n : Nat} (hx : x.toNat < 2 ^ n) (hy : y.toNat * 2 ^ n < 2 ^ 64) :
    (x ||| y <<< n).toNat = x.toNat + y.toNat * 2 ^ n := by
  rw [BitVec.toNat_or, BitVec.toNat_shiftLeft, Nat.mod_eq_of_lt (by rwa [Nat.shiftLeft_eq]), Nat.or_comm,
    ← Nat.shiftLeft_add_eq_or_of_lt hx, Nat.shiftLeft_eq, Nat.add_comm]

/-- `ERR` as a number: the code, and the causes in the byte above it (R37, R202). -/
theorem toNat_errWord (code : ErrCode) (cause : BitVec 8) :
    (errWord code cause).toNat = codeNumber code + cause.toNat * 2 ^ 8 := by
  have hcode : (BitVec.ofNat 64 (codeNumber code)).toNat = codeNumber code ∧ codeNumber code < 2 ^ 8 := by
    cases code <;> decide
  have hcause : (cause.setWidth 64).toNat = cause.toNat := BitVec.toNat_setWidth_of_le (by decide)
  rw [errWord, toNat_or_shiftLeft (by omega) (by omega), hcode.1, hcause]

/-- An accepted command leaves `ERR` 0 (R201). -/
theorem errWord_ok : errWord .ok 0 = 0 := by decide

/-- A refusal without causes leaves a value of `ERR`'s table. -/
theorem errLegal_errWord_zero {code : ErrCode} (h : code ≠ .cfgInvalid) : errLegal (errWord code 0) = true := by
  cases code with
  | cfgInvalid => exact absurd rfl h
  | ok | notReady | illCmd | badSlot | badDesc | locked => decide

/-- So does `CFGINVALID` with some of the six causes. -/
theorem errLegal_errWord_cfgInvalid {cause : BitVec 8} (hpos : cause ≠ 0) (hlt : cause.toNat < 64) :
    errLegal (errWord .cfgInvalid cause) = true := by
  have hne : cause.toNat ≠ 0 := fun h => hpos (BitVec.eq_of_toNat_eq h)
  have hcode : (1 + cause.toNat * 2 ^ 8) % 256 = 1 := by omega
  have hcause : (1 + cause.toNat * 2 ^ 8) / 256 = cause.toNat := by omega
  simp only [errLegal, toNat_errWord, codeNumber, hcode, hcause]
  simpa [hlt, Nat.one_le_iff_ne_zero] using hne

/-- What a command makes of a state: an outcome in `ERR` alone, a locked configuration, a reset, or an accepted run
(R123, R127, R170, R180, R203). -/
inductive CommandEffect (s : State) : Instr → State → Prop
  | outcome {i : Instr} {code : ErrCode} {cause : BitVec 8} (legal : errLegal (errWord code cause) = true) :
      CommandEffect s i (s.setErr code cause)
  | lock (mode : s.mode = .unconfig) (valid : configValid s = true) :
      CommandEffect s .cfglock { s.setErr .ok 0 with mode := .ready }
  | reset : CommandEffect s .srst s.blockReset
  | single {slot : Nat} {sl : Slot} (mode : s.mode = .ready) (exists_slot : s.slots[slot]? = some sl)
      (desc : descOk sl = true) : CommandEffect s (.hash slot) (s.acceptRun .single slot 1)
  | batch {count : Nat} (mode : s.mode = .ready) (count_le : count ≤ nslots s)
      (desc : (s.slots.take count).all descOk = true) : CommandEffect s (.batch count) (s.acceptRun .batch 0 count)

/-- Every command that answers a next state has such an effect. -/
theorem commandEffect_of_exec {i : Instr} {s t : State} (hk : i.kind = .command) (h : exec i s = .next t) :
    CommandEffect s i t := by
  cases i with
  | init | prep | fold4 | step | fin1 | fin2 | endRun => cases hk
  | nop => cases h; exact .outcome (by decide)
  | srst => cases h; exact .reset
  | cfglock =>
    rcases execCfglock_next h with ⟨hm, hv, rfl⟩ | ⟨_, hv, rfl⟩ | ⟨_, rfl⟩
    · exact .lock hm hv
    · have hcause : cfgCause s ≠ 0 := fun hz => by simp [cfgCause_eq_zero_iff.mp hz] at hv
      exact .outcome (errLegal_errWord_cfgInvalid hcause cfgCause_lt)
    · exact .outcome (by decide)
  | hash slot =>
    rcases execHash_next h with ⟨sl, hm, hsl, hd, rfl⟩ | ⟨_, _, _, _, rfl⟩ | ⟨_, _, rfl⟩ | ⟨_, rfl⟩
    · exact .single hm hsl hd
    all_goals exact .outcome (by decide)
  | batch count =>
    rcases execBatch_next h with ⟨hm, hc, hd, rfl⟩ | ⟨_, _, _, rfl⟩ | ⟨_, _, rfl⟩ | ⟨_, rfl⟩
    · exact .batch hm hc hd
    all_goals exact .outcome (by decide)

/-! ## Host accesses that are no command -/

/-- Two states have the same `STATE`, `ERR`, parameters, and the same digest in every slot. -/
structure StatusKept (s t : State) : Prop where
  mode : t.mode = s.mode
  err : t.err = s.err
  nslots : nslots t = nslots s
  mapBitsMax : t.mapBitsMax = s.mapBitsMax
  digests : ∀ (m : Nat) (x y : Slot), s.slots[m]? = some x → t.slots[m]? = some y → y.dig = x.dig

/-- A state that differs neither in slots, `STATE` and `ERR` nor in the parameters. -/
theorem statusKept_of_slots_eq {s t : State} (hs : t.slots = s.slots) (hm : t.mode = s.mode) (he : t.err = s.err)
    (hb : t.mapBitsMax = s.mapBitsMax) : StatusKept s t where
  mode := hm
  err := he
  nslots := congrArg List.length hs
  mapBitsMax := hb
  digests m x y hx hy := by rw [hs, hx] at hy; rw [Option.some.inj hy]

/-- A slot put back with its digest as it was. -/
theorem statusKept_putSlot {s : State} {m : Nat} {sl sl' : Slot} (hsl : s.slots[m]? = some sl) (hd : sl'.dig = sl.dig) :
    StatusKept s (s.putSlot m sl') where
  mode := rfl
  err := rfl
  nslots := nslots_putSlot s m sl'
  mapBitsMax := rfl
  digests k x y hx hy := by
    rcases getElem?_putSlot hsl hx hy with ⟨_, rfl, rfl⟩ | rfl
    · exact hd
    · rfl

/-- No CSR write but a command reaches `STATE`, `ERR`, a parameter or a digest (R27, R36, R37). -/
theorem statusKept_csrWrite (s : State) (k : BitVec 12) (v : Word) : StatusKept s (csrWrite s k v) := by
  rcases csrWrite_cases s k v with he | ⟨_, _, _, _, _, _, _, he⟩ | ⟨m, sl, sl', hsl, hd, _, _, _, he⟩ <;> rw [he]
  · exact statusKept_of_slots_eq rfl rfl rfl rfl
  · exact statusKept_of_slots_eq rfl rfl rfl rfl
  · exact statusKept_putSlot hsl hd

/-- Nor does any other host access that is no command. -/
theorem statusKept_of_hostAccess {a : Input} {s t : State} (h : hostAccess a s = .next t) : StatusKept s t := by
  rcases hostAccess_next h with
    ⟨_, _, rfl⟩ | ⟨k, v, _, rfl⟩ | ⟨_, _, _, rfl⟩ | ⟨_, _, _, _, rfl⟩ | ⟨_, _, _, _, _, rfl⟩
  · exact statusKept_of_slots_eq rfl rfl rfl rfl
  · exact statusKept_csrWrite s k v
  · exact statusKept_of_slots_eq rfl rfl rfl rfl
  · exact statusKept_of_slots_eq rfl rfl rfl rfl
  · exact statusKept_of_slots_eq rfl rfl rfl rfl

/-! ## The cases of a step -/

/-- What a step from `s` can lead to: a reset (R230); with a run active, the effect of the dispatched operation on its slot, or
the end of the run (R172); with none active, no change, a command's effect, the refusal of an illegal word (R95), or another
host access. -/
inductive StepEffect (s : State) : State → Prop
  | reset {levels : List Bool} (pin : s.resetn = false :: levels) : StepEffect s { s.blockReset with resetn := levels }
  | operation {w : CmdWord} {i : Instr} {m : Nat} {sl sl' : Slot} (mode : s.mode = .busy)
      (word : s.dispatchWord = some w) (dec : decodeDispatch w = .ok i) (slot : opSlot i = some m)
      (exists_slot : s.slots[m]? = some sl) (effect : slotEffect s i sl = .ok sl') :
      StepEffect s { (s.putSlot m sl').advance with resetn := s.resetn.tail }
  | finish {w : CmdWord} (mode : s.mode = .busy) (word : s.dispatchWord = some w) (dec : decodeDispatch w = .ok .endRun) :
      StepEffect s { s.finishRun with resetn := s.resetn.tail }
  | idle (mode : s.mode ≠ .busy) : StepEffect s { s with resetn := s.resetn.tail }
  | command {v : Word} {rest : List Input} {i : Instr} {t : State} (mode : s.mode ≠ .busy)
      (input : s.inputs = .write 0x002 v :: rest) (dec : decodeCommand (v.extractLsb' 0 32) = .ok i)
      (effect : CommandEffect (afterTaking s rest) i t) : StepEffect s t
  | illegal {v : Word} {rest : List Input} (mode : s.mode ≠ .busy) (input : s.inputs = .write 0x002 v :: rest) :
      StepEffect s ((afterTaking s rest).setErr .illCmd 0)
  | access {a : Input} {rest : List Input} {t : State} (mode : s.mode ≠ .busy) (input : s.inputs = a :: rest)
      (answer : hostAccess a (afterTaking s rest) = .next t) : StepEffect s t

/-- Moving RESETN's levels on changes the effect of no operation. -/
theorem slotEffect_resetn (s : State) (levels : List Bool) (i : Instr) (sl : Slot) :
    slotEffect { s with resetn := levels } i sl = slotEffect s i sl := by cases i <;> rfl

/-- Every step that answers a next state has such an effect. -/
theorem stepEffect_of_step {s t : State} (h : step s = .next t) : StepEffect s t := by
  rcases step_next h with ⟨_, hpin, rfl⟩ | ⟨_, hrun⟩
  · exact .reset hpin
  rcases runningStep_next hrun with ⟨hm, w, i, hw, hi, hx⟩ | ⟨hm, hhost⟩
  · rcases exec_dispatch_cases (kind_of_decodeDispatch hi) hx with ⟨m, sl, sl', hslot, hsl, he, rfl⟩ | ⟨rfl, rfl⟩
    · exact .operation hm hw hi hslot hsl (slotEffect_resetn s _ i sl ▸ he)
    · exact .finish hm hw hi
  · rcases hostStep_next hhost with
      ⟨_, rfl⟩ | ⟨a, rest, w, i, hin, ha, hi, hx⟩ | ⟨a, rest, w, _, hin, ha, _, rfl⟩ | ⟨a, rest, hin, _, hx⟩
    · exact .idle hm
    · obtain ⟨v, rfl, rfl⟩ := commandOf_eq_some_iff.mp ha
      exact .command hm hin hi (commandEffect_of_exec (kind_of_decodeCommand hi) hx)
    · obtain ⟨v, rfl, rfl⟩ := commandOf_eq_some_iff.mp ha
      exact .illegal hm hin
    · exact .access hm hin hx

end Sys2Proof.Proofs

/-!
The invariant along every step (R9, R24, R25, R36, R37, R62, R63, R123, R125): what each part of a step, a reset, a command, a
host access and a dispatched operation, keeps of it.
-/
namespace Sys2Proof.Proofs

open Sys2Proof.Machine Sys2Proof.Laws

/-! ## Digests past their length -/

theorem digestZeroFrom_iff {h : Nat} {dig : Digest} :
    digestZeroFrom h dig = true ↔ ∀ i, h ≤ i → i < 32 → dig[i]? = some 0 := by
  simp only [digestZeroFrom, List.all_eq_true, List.mem_range, Bool.or_eq_true, decide_eq_true_eq, beq_iff_eq]
  exact ⟨fun hd i hi h32 => (hd i h32).resolve_left (by omega), fun hd i h32 => (lt_or_ge i h).imp_right (hd i · h32)⟩

/-- A digest that is 0 from one index up is 0 from every higher one up. -/
theorem digestZeroFrom_mono {h h' : Nat} {dig : Digest} (hd : digestZeroFrom h dig = true) (hle : h ≤ h') :
    digestZeroFrom h' dig = true :=
  digestZeroFrom_iff.mpr fun i hi => digestZeroFrom_iff.mp hd i (by omega)

/-- FIN1 writes 0 to the bytes from the number of lanes up (R191). -/
theorem digestZeroFrom_fin1Digest (lanes : Vector Word 32) (hs : Nat) :
    digestZeroFrom hs (fin1Digest lanes hs) = true := by
  refine digestZeroFrom_iff.mpr fun i hi h32 => ?_
  simp [fin1Digest, h32, hi]

/-- The chain of FIN2 takes one byte for each lane (R192). -/
theorem length_finChain (lanes : List Word) (a : Word) : (finChain lanes a).2.length = lanes.length := by
  induction lanes with
  | nil => rfl
  | cons l rest ih => exact congrArg (· + 1) ih

/-- FIN2 writes 0 to the bytes from the number of lanes up (R192). -/
theorem digestZeroFrom_fin2Slot (hs : Nat) (sl : Slot) : digestZeroFrom hs (fin2Slot hs sl).dig = true := by
  refine digestZeroFrom_iff.mpr fun i hi h32 => ?_
  have hlen : (finChain (sl.lanes.toList.take hs) sl.acc).2.length ≤ i := by
    rw [length_finChain, List.length_take]; omega
  simp [fin2Slot, h32, List.getElem?_eq_none hlen]

/-- Every effect on a slot keeps the digest bytes from HASHSIZE up at 0 (R36). -/
theorem slotEffect_keeps_digestZero {i : Instr} {s : State} {sl sl' : Slot} (h : slotEffect s i sl = .ok sl')
    (hd : digestZeroFrom s.hashSize.toNat sl.dig = true) : digestZeroFrom s.hashSize.toNat sl'.dig = true := by
  rcases slotEffect_dig h with hdig | ⟨_, _, hdig⟩ | ⟨_, _, hdig⟩ <;> rw [hdig]
  · exact hd
  · exact digestZeroFrom_fin1Digest sl.lanes _
  · exact digestZeroFrom_fin2Slot _ sl

/-! ## Lists of slots with one replaced -/

/-- A property of all slots survives replacing one by a slot that has it. -/
theorem all_set_of_all {p : Slot → Bool} {slots : List Slot} {m : Nat} {sl' : Slot} (h : slots.all p = true)
    (hp : p sl' = true) : (slots.set m sl').all p = true := by
  rw [List.all_eq_true] at h ⊢
  intro x hx
  rcases List.mem_or_eq_of_mem_set hx with hx | rfl
  · exact h x hx
  · exact hp

/-- Whether all descriptors of a run's members are good depends only on which slots have a good one. -/
theorem all_descOk_members (slots : List Slot) (first n : Nat) :
    ((slots.drop first).take n).all descOk = (((slots.map descOk).drop first).take n).all id := by
  simp [← List.map_drop, ← List.map_take, List.all_map]

/-- Replacing a slot by one whose descriptor is as good leaves the list of good descriptors. -/
theorem map_descOk_set {slots : List Slot} {m : Nat} {sl sl' : Slot} (hsl : slots[m]? = some sl)
    (hd : descOk sl' = descOk sl) : (slots.set m sl').map descOk = slots.map descOk := by
  have hm : (slots.map descOk)[m]? = some (descOk sl') := by rw [List.getElem?_map, hsl, hd]; rfl
  obtain ⟨_, hget⟩ := List.getElem?_eq_some_iff.mp hm
  rw [List.map_set, ← hget, List.set_getElem_self]

/-! ## Updates that keep the invariant -/

/-- The host's pending accesses, its answers and the levels of RESETN are not part of the invariant. -/
theorem inv_withEnvironment {s : State} (h : Inv s) (inputs : List Input) (answers : List Word) (resetn : List Bool) :
    Inv { s with inputs := inputs, answers := answers, resetn := resetn } := { h with }

/-- A reset, by RESETN or by `SRST`, leads into the invariant (R45, R127, R230). -/
theorem inv_blockReset {s : State} (h : Inv s) : Inv s.blockReset where
  slots_pos := (nslots_blockReset s).symm ▸ h.slots_pos
  slots_max := (nslots_blockReset s).symm ▸ h.slots_max
  tbl_wf := h.tbl_wf
  msg_wf := h.msg_wf
  tbl_below := h.tbl_below
  msg_below := h.msg_below
  stage_zero := rfl
  locked_valid hm := absurd rfl hm
  idle_index _ := rfl
  run_legal hm := nomatch hm
  err_legal := show errLegal 0 = true by decide
  digest_zero := all_digestZeroFrom_freshSlots _ _ _

/-- With no run active `ERR` may take any value of its table (R37). -/
theorem inv_setErr {s : State} (h : Inv s) (hm : s.mode ≠ .busy) {code : ErrCode} {cause : BitVec 8}
    (hlegal : errLegal (errWord code cause) = true) : Inv (s.setErr code cause) :=
  { h with
    run_legal := fun hb => absurd hb hm
    err_legal := hlegal }

/-- Locking a valid configuration keeps the invariant (R123). -/
theorem inv_lock {s : State} (h : Inv s) (hm : s.mode = .unconfig) (hv : configValid s = true) :
    Inv { s.setErr .ok 0 with mode := .ready } :=
  { h with
    locked_valid := fun _ => hv
    idle_index := fun _ => h.idle_index (by simp [hm])
    run_legal := fun hb => nomatch hb
    err_legal := errLegal_errWord_zero (by decide)
    digest_zero := by
      have hzero := h.digest_zero
      rw [List.all_eq_true] at hzero ⊢
      exact fun sl hsl => digestZeroFrom_mono (hzero sl hsl) (by simp [digestBound, hm]) }

/-- Accepting a legal run keeps the invariant (R170, R180). -/
theorem inv_acceptRun {s : State} (h : Inv s) (hm : s.mode = .ready) {kind : RunKind} {base count : Nat}
    (hlegal : runLegal (s.acceptRun kind base count) = true) : Inv (s.acceptRun kind base count) :=
  { h with
    locked_valid := fun _ => h.locked_valid (by simp [hm])
    idle_index := fun hb => absurd rfl hb
    run_legal := fun _ => hlegal
    err_legal := errLegal_errWord_zero (by decide)
    digest_zero := by simpa [digestBound, hm] using h.digest_zero }

/-- With no run active a slot may be replaced by one with the same digest (R39). -/
theorem inv_putSlot {s : State} (h : Inv s) (hm : s.mode ≠ .busy) {m : Nat} {sl sl' : Slot}
    (hsl : s.slots[m]? = some sl) (hdig : sl'.dig = sl.dig) : Inv (s.putSlot m sl') :=
  { h with
    slots_pos := (nslots_putSlot s m sl').symm ▸ h.slots_pos
    slots_max := (nslots_putSlot s m sl').symm ▸ h.slots_max
    run_legal := fun hb => absurd hb hm
    digest_zero := by
      have hzero := List.all_eq_true.mp h.digest_zero sl (List.mem_of_getElem? hsl)
      exact all_set_of_all h.digest_zero (hdig ▸ hzero) }

/-- While unlocked the configuration CSRs may hold anything (R128). -/
theorem inv_setConfig {s : State} (h : Inv s) (hm : s.mode = .unconfig) (c1 c2 c3 c4 c5 c6 : Word) :
    Inv (setConfig s c1 c2 c3 c4 c5 c6) :=
  { h with
    locked_valid := fun hl => absurd hm hl
    run_legal := fun hb => by simp [setConfig, hm] at hb
    digest_zero := by simpa [setConfig, digestBound, hm] using h.digest_zero }

/-! ## Runs -/

theorem runLegal_iff {s : State} :
    runLegal s = true ↔ s.err = 0 ∧ s.di.toNat ≤ 100 * s.members ∧ s.firstSlot + s.members ≤ nslots s ∧
      ((s.slots.drop s.firstSlot).take s.members).all descOk = true := by
  simp only [runLegal, Bool.and_eq_true, beq_iff_eq, decide_eq_true_eq, and_assoc]

/-- The run of `HASH` on a slot with a good descriptor is legal (R170). -/
theorem runLegal_acceptRun_single {s : State} {slot : Nat} {sl : Slot} (hmax : nslots s ≤ 256)
    (hsl : s.slots[slot]? = some sl) (hd : descOk sl = true) : runLegal (s.acceptRun .single slot 1) = true := by
  have hlt : slot < nslots s := lt_nslots_of_getElem? hsl
  have hfirst : (s.acceptRun .single slot 1).firstSlot = slot := Nat.mod_eq_of_lt (by omega : slot < 2 ^ 8)
  have hmember : (s.slots.drop slot).take 1 = [sl] := by
    rw [List.take_one, List.head?_drop, hsl]; rfl
  refine runLegal_iff.mpr ⟨errWord_ok, Nat.zero_le _, ?_, ?_⟩ <;> rw [hfirst]
  · exact hlt
  · exact (congrArg (List.all · descOk) hmember).trans (by simp [hd])

/-- The run of `BATCH` on slots with good descriptors is legal (R180). -/
theorem runLegal_acceptRun_batch {s : State} {count : Nat} (hmax : nslots s ≤ 256) (hle : count ≤ nslots s)
    (hd : (s.slots.take count).all descOk = true) : runLegal (s.acceptRun .batch 0 count) = true := by
  have hmembers : (s.acceptRun .batch 0 count).members = count := Nat.mod_eq_of_lt (by omega : count < 2 ^ 9)
  refine runLegal_iff.mpr ⟨errWord_ok, Nat.zero_le _, ?_, ?_⟩ <;> rw [hmembers]
  · exact (Nat.zero_add count).trans_le hle
  · exact hd

/-- Every operation of a dispatch sequence but END stands before its end (R171, R181). -/
theorem lt_of_opAt {base n hs k : Nat} {variant : Word} {op : Instr} (h : opAt base n hs variant k = some op)
    (hne : op ≠ .endRun) : k < 100 * n := by
  unfold opAt at h
  split_ifs at h with h3 h99 h100 hend
  · omega
  · omega
  · exact h100
  · exact absurd (Option.some.inj h).symm hne

/-- The sequencer's word on a slot is one before END, so the dispatch index has room to advance (R24). -/
theorem di_lt_of_dispatchWord {s : State} {w : CmdWord} {i : Instr} {m : Nat} (hw : s.dispatchWord = some w)
    (hi : decodeDispatch w = .ok i) (hslot : opSlot i = some m) : s.di.toNat < 100 * s.members := by
  obtain ⟨op, hop, rfl⟩ := Option.map_eq_some_iff.mp hw
  refine lt_of_opAt hop ?_
  rintro rfl
  obtain rfl : Instr.endRun = i := Except.ok.inj hi
  cases hslot

/-- An operation on a member's slot keeps a run legal (R24, R44). -/
theorem runLegal_operation {s : State} {m : Nat} {sl sl' : Slot} (h : runLegal s = true) (hmax : nslots s ≤ 256)
    (hdi : s.di.toNat < 100 * s.members) (hsl : s.slots[m]? = some sl) (hd : descOk sl' = descOk sl) :
    runLegal (s.putSlot m sl').advance = true := by
  obtain ⟨herr, _, hfit, hdesc⟩ := runLegal_iff.mp h
  have hadvance : (s.di + 1).toNat = s.di.toNat + 1 :=
    BitVec.toNat_add_of_lt (show s.di.toNat + 1 < 2 ^ 15 by omega)
  refine runLegal_iff.mpr ⟨herr, ?_, (nslots_putSlot s m sl').symm ▸ hfit, ?_⟩
  · exact hadvance.trans_le hdi
  · rw [all_descOk_members] at hdesc ⊢
    rw [advance_slots, putSlot_slots, map_descOk_set hsl hd]
    exact hdesc

/-- A dispatched operation on a slot keeps the invariant (R24, R36, R44). -/
theorem inv_operation {s : State} (h : Inv s) (hm : s.mode = .busy) (hdi : s.di.toNat < 100 * s.members) {i : Instr}
    {m : Nat} {sl sl' : Slot} (hsl : s.slots[m]? = some sl) (he : slotEffect s i sl = .ok sl') :
    Inv (s.putSlot m sl').advance := by
  obtain ⟨haddr, hlen⟩ := slotEffect_descriptor he
  have hdesc : descOk sl' = descOk sl := by rw [descOk, haddr, hlen, descOk]
  exact { h with
    slots_pos := (nslots_putSlot s m sl').symm ▸ h.slots_pos
    slots_max := (nslots_putSlot s m sl').symm ▸ h.slots_max
    idle_index := fun hb => absurd hm hb
    run_legal := fun _ => runLegal_operation (h.run_legal hm) h.slots_max hdi hsl hdesc
    digest_zero := by
      have hzero := h.digest_zero
      simp only [digestBound, hm] at hzero
      have hslot := List.all_eq_true.mp hzero sl (List.mem_of_getElem? hsl)
      simpa [digestBound, hm] using all_set_of_all hzero (slotEffect_keeps_digestZero he hslot) }

/-- The end of a run keeps the invariant (R193). -/
theorem inv_finishRun {s : State} (h : Inv s) (hm : s.mode = .busy) : Inv s.finishRun :=
  { h with
    stage_zero := rfl
    locked_valid := fun _ => h.locked_valid (by simp [hm])
    idle_index := fun _ => rfl
    run_legal := fun hb => nomatch hb
    digest_zero := by simpa [digestBound, hm] using h.digest_zero }

/-! ## Commands and host accesses -/

/-- Every command keeps the invariant. -/
theorem inv_of_commandEffect {s t : State} {i : Instr} (h : Inv s) (hm : s.mode ≠ .busy) (he : CommandEffect s i t) :
    Inv t := by
  cases he with
  | outcome legal => exact inv_setErr h hm legal
  | lock mode valid => exact inv_lock h mode valid
  | reset => exact inv_blockReset h
  | single mode hsl desc => exact inv_acceptRun h mode (runLegal_acceptRun_single h.slots_max hsl desc)
  | batch mode hle desc => exact inv_acceptRun h mode (runLegal_acceptRun_batch h.slots_max hle desc)

/-- Every CSR write that is no command keeps the invariant. -/
theorem inv_csrWrite {s : State} (h : Inv s) (hm : s.mode ≠ .busy) (k : BitVec 12) (v : Word) : Inv (csrWrite s k v) := by
  rcases csrWrite_cases s k v with he | ⟨hu, _, _, _, _, _, _, he⟩ | ⟨m, sl, sl', hsl, hd, _, _, _, he⟩ <;> rw [he]
  · exact h
  · exact inv_setConfig h hu _ _ _ _ _ _
  · exact inv_putSlot h hm hsl hd

/-- Every host access that is no command keeps the invariant. -/
theorem inv_of_hostAccess {s t : State} {a : Input} (h : Inv s) (hm : s.mode ≠ .busy) (ha : hostAccess a s = .next t) :
    Inv t := by
  rcases hostAccess_next ha with
    ⟨_, _, rfl⟩ | ⟨k, v, _, rfl⟩ | ⟨x, b, _, rfl⟩ | ⟨_, _, _, _, rfl⟩ | ⟨x, b, _, _, hx, rfl⟩
  · exact inv_withEnvironment h _ _ _
  · exact inv_csrWrite h hm k v
  · exact { h with msg_wf := wf_memWrite _ b h.msg_wf, msg_below := memBelow_memWrite b h.msg_below x.isLt }
  · exact h
  · exact { h with tbl_wf := wf_memWrite _ b h.tbl_wf, tbl_below := memBelow_memWrite b h.tbl_below hx }

/-- Settles O50: each thing a step can do keeps the invariant. -/
theorem everyStepKeepsTheInvariant : Obligations.EveryStepKeepsTheInvariant := by
  intro s t h hstep
  have taken (rest : List Input) : Inv (afterTaking s rest) := inv_withEnvironment h _ _ _
  cases stepEffect_of_step hstep with
  | reset _ => exact inv_withEnvironment (inv_blockReset h) _ _ _
  | operation hm hw hi hslot hsl he =>
    exact inv_withEnvironment (inv_operation h hm (di_lt_of_dispatchWord hw hi hslot) hsl he) _ _ _
  | finish hm _ _ => exact inv_withEnvironment (inv_finishRun h hm) _ _ _
  | idle _ => exact inv_withEnvironment h _ _ _
  | command hm _ _ he => exact inv_of_commandEffect (taken _) hm he
  | illegal hm _ => exact inv_setErr (taken _) hm (errLegal_errWord_zero (by decide))
  | access hm _ ha => exact inv_of_hostAccess (taken _) hm ha

end Sys2Proof.Proofs

/-!
Who changes what: `STATE`, `ERR`, the digests and the parameters, each from the cases of a step (R35, R36, R37, R40); what an
operation on one slot touches and what it reads (R44); the values after reset (R45).
-/
namespace Sys2Proof.Proofs

open Sys2Proof.Machine Sys2Proof.Laws

/-- Settles O7: during a run a step is SEQ's, which keeps the host's side. -/
theorem hostAccessesWaitDuringRun : Obligations.HostAccessesWaitDuringRun := by
  intro s t hr hm h
  rw [step_of_busy hr hm] at h
  obtain ⟨hin, hans, _, _⟩ := hostSideKept_of_sequencerStep h
  exact ⟨hin, hans⟩

/-! ## Operations on one slot -/

/-- Settles O41: an operation only applies its effect to its slot, and the frame of `onSlot` is the claim. -/
theorem operationsTouchOnlyTheirSlot : Obligations.OperationsTouchOnlyTheirSlot := by
  intro i m s t hslot h
  rw [exec_eq_onSlot hslot] at h
  exact onSlot_frame h

/-- STEP reads of the state outside its slot only `MAPSIZE`, `HASHSIZE`, `MAPBITS_MAX` and the table (R44, R150). -/
theorem mixSlot_congr {s u : State} (hmap : u.mapSize = s.mapSize) (hhash : u.hashSize = s.hashSize)
    (hbits : u.mapBitsMax = s.mapBitsMax) (htbl : u.tbl = s.tbl) (m lane pos : Nat) (sl : Slot) :
    mixSlot m lane pos u sl = mixSlot m lane pos s sl := by
  have hfits : tableFits u = tableFits s := by rw [tableFits, checkCap, hmap, hbits, tableFits, checkCap]
  rw [mixSlot, mixSlot, hfits, hhash, hmap, htbl]

/-- The effect of an operation on its slot reads only the slot, `SEED`, `MAPSIZE`, `HASHSIZE`, `MAPBITS_MAX` and the two
memories (R44). -/
theorem slotEffect_congr {s u : State} (hseed : u.seed = s.seed) (hmap : u.mapSize = s.mapSize)
    (hhash : u.hashSize = s.hashSize) (hbits : u.mapBitsMax = s.mapBitsMax) (htbl : u.tbl = s.tbl) (hmsg : u.msg = s.msg)
    (i : Instr) (sl : Slot) : slotEffect u i sl = slotEffect s i sl := by
  cases i with
  | init => simp only [slotEffect, hhash, hseed]
  | prep => simp only [slotEffect, slotMessage, hmsg]
  | step m lane pos => exact mixSlot_congr hmap hhash hbits htbl m lane pos sl
  | fin1 | fin2 => simp only [slotEffect, hhash]
  | nop | cfglock | srst | hash | batch | fold4 | endRun => rfl

/-- Settles O44: both states give the operation the same effect on the same slot. -/
theorem operationsReadOnlyTheirSlot : Obligations.OperationsReadOnlyTheirSlot := by
  intro i m s u t hslot hm hseed hmap hhash hbits htbl hmsg h
  rw [exec_eq_onSlot hslot] at h
  obtain ⟨sl, sl', hsl, he, rfl⟩ := onSlot_next.mp h
  have hu : u.slots[m]? = some sl := hm.trans hsl
  have heu : slotEffect u i sl = .ok sl' := (slotEffect_congr hseed hmap hhash hbits htbl hmsg i sl).trans he
  refine ⟨(u.putSlot m sl').advance, ?_, ?_⟩
  · rw [exec_eq_onSlot hslot]
    exact onSlot_next.mpr ⟨sl, sl', hu, heu, rfl⟩
  · rw [getElem?_putSlot_advance hu, getElem?_putSlot_advance hsl, if_pos rfl, if_pos rfl]

/-! ## STATE, ERR, digests and parameters -/

/-- Settles O18: a dispatched operation and a host access that is no command keep `ERR`. -/
theorem errChangesOnlyByCommandOrReset : Obligations.ErrChangesOnlyByCommandOrReset := by
  intro s t h herr
  cases stepEffect_of_step h with
  | reset pin => exact .inl (by rw [pin]; rfl)
  | operation => exact absurd rfl herr
  | finish => exact absurd rfl herr
  | idle => exact absurd rfl herr
  | command hm hin _ _ => exact .inr ⟨hm, _, _, hin⟩
  | illegal hm hin => exact .inr ⟨hm, _, _, hin⟩
  | access _ _ ha => exact absurd (statusKept_of_hostAccess ha).err herr

/-- Settles O53: the only effects that change `STATE` are a reset, the end of a run, a lock and an acceptance. -/
theorem stateChangesOnlyAsListed : Obligations.StateChangesOnlyAsListed := by
  intro s t h
  cases stepEffect_of_step h with
  | reset pin => exact .inr (.inl ⟨rfl, .inl (by rw [pin]; rfl)⟩)
  | operation => exact .inl rfl
  | finish hm hw hi => exact .inr (.inr (.inr (.inr ⟨hm, rfl, _, hw, hi⟩)))
  | idle => exact .inl rfl
  | illegal => exact .inl rfl
  | access _ _ ha => exact .inl (statusKept_of_hostAccess ha).mode
  | command _ hin hi he =>
    cases he with
    | outcome => exact .inl rfl
    | lock mode valid => exact .inr (.inr (.inl ⟨mode, rfl, valid, _, _, hin, hi⟩))
    | reset => exact .inr (.inl ⟨rfl, .inr ⟨_, _, hin, hi⟩⟩)
    | single mode => exact .inr (.inr (.inr (.inl ⟨mode, rfl, errWord_ok, _, _, _, hin, .inl hi⟩)))
    | batch mode => exact .inr (.inr (.inr (.inl ⟨mode, rfl, errWord_ok, _, _, _, hin, .inr hi⟩)))

/-- A slot of a block just reset is a fresh one (R45). -/
theorem eq_fresh_of_getElem? {r n m : Nat} {sl : Slot} (h : (freshSlots r n)[m]? = some sl) : sl = Slot.fresh r m := by
  have hlt : m < n := length_freshSlots r n ▸ (List.getElem?_eq_some_iff.mp h).1
  rw [freshSlots_getElem? r n m hlt] at h
  exact (Option.some.inj h).symm

/-- The digest bytes of a slot of a block just reset are 0 (R45). -/
theorem dig_of_freshSlots {r n m : Nat} {sl : Slot} (h : (freshSlots r n)[m]? = some sl) :
    ∀ i < 32, sl.dig[i]? = some 0 := by
  obtain rfl := eq_fresh_of_getElem? h
  exact fun i => digestZeroFrom_iff.mp (digestZeroFrom_fresh 0 r m) i (Nat.zero_le i)

/-- An operation that changed the digest of slot `k` is a finalizer on `k` (R36). -/
theorem finalizer_of_dig_ne {s : State} {i : Instr} {m k : Nat} {sl sl' x y : Slot} (hslot : opSlot i = some m)
    (hsl : s.slots[m]? = some sl) (he : slotEffect s i sl = .ok sl') (hx : s.slots[k]? = some x)
    (hy : (s.putSlot m sl').slots[k]? = some y) (hne : y.dig ≠ x.dig) : i = .fin1 k ∨ i = .fin2 k := by
  rcases getElem?_putSlot hsl hx hy with ⟨rfl, rfl, rfl⟩ | rfl
  · rcases slotEffect_dig he with hdig | ⟨j, rfl, _⟩ | ⟨j, rfl, _⟩
    · exact absurd hdig hne
    · cases hslot; exact .inl rfl
    · cases hslot; exact .inr rfl
  · exact absurd rfl hne

/-- Settles O54: of the effects of a step only a finalizer's and a reset's reach a digest. -/
theorem digestsChangeOnlyByFinalizerOrReset : Obligations.DigestsChangeOnlyByFinalizerOrReset := by
  intro s t m x y h hx hy hne
  have kept (hs : t.slots = s.slots) : y.dig = x.dig := by
    rw [hs, hx] at hy
    rw [Option.some.inj hy]
  cases stepEffect_of_step h with
  | reset pin => exact .inr ⟨dig_of_freshSlots hy, .inl (by rw [pin]; rfl)⟩
  | operation hm hw hi hslot hsl he =>
    refine .inl ⟨hm, _, hw, ?_⟩
    rcases finalizer_of_dig_ne hslot hsl he hx hy hne with rfl | rfl
    · exact .inl hi
    · exact .inr hi
  | finish => exact absurd (kept rfl) hne
  | idle => exact absurd (kept rfl) hne
  | illegal => exact absurd (kept rfl) hne
  | access _ _ ha => exact absurd ((statusKept_of_hostAccess ha).digests m x y hx hy) hne
  | command hm hin hi he =>
    cases he with
    | outcome => exact absurd (kept rfl) hne
    | lock => exact absurd (kept rfl) hne
    | reset => exact .inr ⟨dig_of_freshSlots hy, .inr ⟨hm, _, _, hin, hi⟩⟩
    | single => exact absurd (kept rfl) hne
    | batch => exact absurd (kept rfl) hne

/-- No step changes the two parameters (R9). -/
theorem parameters_of_step {s t : State} (h : step s = .next t) :
    nslots t = nslots s ∧ t.mapBitsMax = s.mapBitsMax := by
  cases stepEffect_of_step h with
  | reset => exact ⟨nslots_blockReset s, rfl⟩
  | operation => exact ⟨nslots_putSlot s _ _, rfl⟩
  | finish => exact ⟨rfl, rfl⟩
  | idle => exact ⟨rfl, rfl⟩
  | illegal => exact ⟨rfl, rfl⟩
  | access _ _ ha => exact ⟨(statusKept_of_hostAccess ha).nslots, (statusKept_of_hostAccess ha).mapBitsMax⟩
  | command _ _ _ he =>
    cases he with
    | reset => exact ⟨nslots_blockReset _, rfl⟩
    | outcome | lock | single | batch => exact ⟨rfl, rfl⟩

/-! ## Reset values -/

/-- Settles O25: every field holds the value R45 gives it, and every slot is a fresh one. -/
theorem resetLeavesTheResetValues : Obligations.ResetLeavesTheResetValues := by
  intro n b
  refine ⟨?_, nslots_resetOf n b, rfl⟩
  exact {
    mode := rfl, err := rfl, seed := rfl, mapSize := rfl, tblLen := rfl, hashSize := rfl, tPasses := rfl, variant := rfl
    di := rfl, stg := rfl, runKind := rfl, runBase := rfl, runCnt := rfl
    descriptors := fun m sl hsl => by obtain rfl := eq_fresh_of_getElem? hsl; exact ⟨rfl, rfl⟩
    digests := fun m sl hsl => dig_of_freshSlots hsl
    unlocked := rfl }

end Sys2Proof.Proofs

/-!
The register port: the register at each index (R28), what a read answers (R27, R36, R40), and the steps that take a host access
that is no command: a CSR read, a CSR write (R27, R39, R128), a byte written to a memory (R42, R126).
-/
namespace Sys2Proof.Proofs

open Sys2Proof.Machine Sys2Proof.Laws

/-! ## The register at an index -/

/-- The register at offset `r` of the eight indices of slot `m` (R28). -/
def slotRegister (m : Nat) : Nat → Csr
  | 0 => .msgAddr m
  | 1 => .msgLen m
  | 2 => .reserved
  | 3 => .reserved
  | w + 4 => .digw m w

/-- From 0x100 up the indices are the slots', eight for each (R28). -/
theorem csrAt_eq_slotRegister {k : BitVec 12} (h : 0x100 ≤ k.toNat) :
    csrAt k = slotRegister ((k.toNat - 0x100) / 8) ((k.toNat - 0x100) % 8) := by
  unfold csrAt
  split
  case h_11 =>
    rw [if_pos h]
    generalize (k.toNat - 0x100) / 8 = m, (k.toNat - 0x100) % 8 = r
    match r with
    | 0 => rfl
    | 1 => rfl
    | 2 => rfl
    | 3 => rfl
    | w + 4 => rfl
  all_goals omega

/-- The register at an index built from a slot and an offset (R28). -/
theorem csrAt_slot {m r : Nat} (hm : m < 256) (hr : r < 8) :
    csrAt (BitVec.ofNat 12 (0x100 + 8 * m + r)) = slotRegister m r := by
  have hk : (BitVec.ofNat 12 (0x100 + 8 * m + r)).toNat = 0x100 + 8 * m + r := by
    rw [BitVec.toNat_ofNat]; omega
  have hdiv : (0x100 + 8 * m + r - 0x100) / 8 = m := by omega
  have hmod : (0x100 + 8 * m + r - 0x100) % 8 = r := by omega
  rw [csrAt_eq_slotRegister (by omega), hk, hdiv, hmod]

/-- The indices between the named CSRs and the slots' are reserved (R28). -/
theorem csrAt_reserved {k : BitVec 12}
    (h : (0x004 ≤ k.toNat ∧ k.toNat ≤ 0x007) ∨ (0x00E ≤ k.toNat ∧ k.toNat ≤ 0x0FF)) :
    csrAt k = .reserved := by
  have hlow : ¬ 0x100 ≤ k.toNat := by omega
  unfold csrAt
  split
  case h_11 => exact if_neg hlow
  all_goals omega

/-- An index past the last slot names a slot it does not have. -/
theorem slot_none_of_index {s : State} {k : BitVec 12} (h : 0x100 + 8 * nslots s ≤ k.toNat) :
    s.slots[(k.toNat - 0x100) / 8]? = none :=
  List.getElem?_eq_none (show nslots s ≤ _ by omega)

/-! ## Reads -/

/-- What a slot's CSR reads: 0 for a slot the block does not have (R27). -/
theorem slotCsr_none {s : State} {m : Nat} (h : s.slots[m]? = none) (f : Slot → Word) : slotCsr s m f = 0 := by
  rw [slotCsr, h]

theorem slotCsr_some {s : State} {m : Nat} {sl : Slot} (h : s.slots[m]? = some sl) (f : Slot → Word) :
    slotCsr s m f = f sl := by
  rw [slotCsr, h]

/-- Every register of a slot the block does not have reads 0 (R27). -/
theorem csrRead_of_slot_none {s : State} {k : BitVec 12} {m r : Nat} (hk : csrAt k = slotRegister m r)
    (hm : s.slots[m]? = none) : csrRead s k = 0 := by
  rw [csrRead, hk]
  match r with
  | 0 => exact slotCsr_none hm _
  | 1 => exact slotCsr_none hm _
  | 2 => rfl
  | 3 => rfl
  | w + 4 => exact slotCsr_none hm _

/-- `STATUS` reads the number of `STATE` (R35). -/
theorem csrRead_status {s : State} {mode : Mode} (h : s.mode = mode) :
    csrRead s 0x000 = (modeBits mode).setWidth 64 := by
  rw [← h]; rfl

/-- What the registers of a slot the block has read, those of the digest apart (R28, R39). -/
theorem csrRead_slot {s : State} {m : Nat} {sl : Slot} (hm : m < 256) (hsl : s.slots[m]? = some sl) :
    csrRead s (BitVec.ofNat 12 (0x100 + 8 * m)) = sl.msgAddr ∧
    csrRead s (BitVec.ofNat 12 (0x100 + 8 * m + 1)) = sl.msgLen ∧
    csrRead s (BitVec.ofNat 12 (0x100 + 8 * m + 2)) = 0 ∧ csrRead s (BitVec.ofNat 12 (0x100 + 8 * m + 3)) = 0 := by
  refine ⟨?_, ?_, ?_, ?_⟩ <;> rw [csrRead]
  · rw [show csrAt (BitVec.ofNat 12 (0x100 + 8 * m)) = .msgAddr m from csrAt_slot hm (r := 0) (by decide)]
    exact slotCsr_some hsl _
  · rw [csrAt_slot hm (by decide)]; exact slotCsr_some hsl _
  · rw [csrAt_slot hm (by decide)]; rfl
  · rw [csrAt_slot hm (by decide)]; rfl

/-- Settles O11: the named CSRs by evaluation of the map, the slots' by its arithmetic. -/
theorem csrReadMapIsTheSpecs : Obligations.CsrReadMapIsTheSpecs := by
  intro s
  refine ⟨csrRead_status, csrRead_status, csrRead_status, rfl, rfl, rfl, rfl, rfl, rfl, rfl, rfl, ?_, ?_, ?_⟩
  · intro k hk
    rw [csrRead, csrAt_reserved hk]
  · exact fun m sl hm hsl => csrRead_slot hm hsl
  · intro k hk
    exact csrRead_of_slot_none (csrAt_eq_slotRegister (by omega)) (slot_none_of_index hk)

/-! ## Digest words -/

/-- The first `n` bytes of `b` packed little-endian, byte 0 in bits 7:0 (R36, R65). -/
def packBytes (b : Nat → Byte) (n : Nat) : Word :=
  (List.range n).foldl (fun acc k => acc ||| (zext64 (b k) <<< (8 * k))) 0

theorem packBytes_succ (b : Nat → Byte) (n : Nat) :
    packBytes b (n + 1) = packBytes b n ||| (zext64 (b n) <<< (8 * n)) := by
  simp [packBytes, List.range_succ]

theorem digWord_eq_packBytes (dig : Digest) (w : Nat) : digWord dig w = packBytes (fun k => dig[8 * w + k]?.getD 0) 8 := rfl

/-- Bit `8 k + i` of packed bytes is bit `i` of byte `k`. -/
theorem getLsbD_packBytes (b : Nat → Byte) {n k i : Nat} (hn : n ≤ 8) (hk : k < 8) (hi : i < 8) :
    (packBytes b n).getLsbD (8 * k + i) = (decide (k < n) && (b k).getLsbD i) := by
  induction n with
  | zero => simp [packBytes]
  | succ n ih =>
    have hnew : (zext64 (b n) <<< (8 * n)).getLsbD (8 * k + i) = (decide (k = n) && (b k).getLsbD i) := by
      rw [BitVec.getLsbD_shiftLeft, zext64, BitVec.getLsbD_setWidth]
      rcases lt_trichotomy k n with h | rfl | h
      · simp [show 8 * k + i < 8 * n by omega, h.ne]
      · simp [show 8 * k + i < 64 by omega, show i < 64 by omega]
      · simp [BitVec.getLsbD_of_ge (b n) (8 * k + i - 8 * n) (by omega), h.ne']
    rw [packBytes_succ, BitVec.getLsbD_or, ih (by omega), hnew, ← Bool.and_or_distrib_right, ← Bool.decide_or]
    simp only [Nat.lt_succ_iff_lt_or_eq]

/-- Byte `k` of packed bytes, cut out. -/
theorem extractLsb'_packBytes (b : Nat → Byte) {k : Nat} (hk : k < 8) : (packBytes b 8).extractLsb' (8 * k) 8 = b k := by
  refine BitVec.eq_of_getLsbD_eq fun i hi => ?_
  rw [BitVec.getLsbD_extractLsb', getLsbD_packBytes b le_rfl hk hi]
  simp [hi, hk]

/-- Settles O12: the register at offset `4 + w` is digest word `w`, eight packed bytes. -/
theorem digestWordsAreLittleEndian : Obligations.DigestWordsAreLittleEndian := by
  intro s m w k sl hm hsl hw hk
  have hread : csrRead s (BitVec.ofNat 12 (0x100 + 8 * m + 4 + w)) = digWord sl.dig w := by
    rw [csrRead, show 0x100 + 8 * m + 4 + w = 0x100 + 8 * m + (w + 4) by omega, csrAt_slot hm (by omega)]
    exact slotCsr_some hsl _
  rw [hread, digWord_eq_packBytes, extractLsb'_packBytes _ hk,
    Vector.getElem?_eq_getElem (by omega : 8 * w + k < 32), Option.getD_some]

/-! ## CAP -/

/-- A constant field placed above a word of known value adds its value, shifted. -/
theorem toNat_or_ofNat_shiftLeft {x : Word} {v f n : Nat} (hx : x.toNat = v) (hv : v < 2 ^ n) (hf : f * 2 ^ n < 2 ^ 64) :
    (x ||| BitVec.ofNat 64 f <<< n).toNat = v + f * 2 ^ n := by
  have hfield : (BitVec.ofNat 64 f).toNat = f :=
    Nat.mod_eq_of_lt (lt_of_le_of_lt (Nat.le_mul_of_pos_right f (Nat.two_pow_pos n)) hf)
  rw [toNat_or_shiftLeft (hx.trans_lt hv) (by rwa [hfield]), hx, hfield]

/-- `CAP` as a number: its fields do not overlap (R40). -/
theorem toNat_capWord {s : State} (h : nslots s ≤ 256) :
    (capWord s).toNat =
      nslots s + s.mapBitsMax.val * 2 ^ 16 + 32 * 2 ^ 24 + 3 * 2 ^ 32 + 32 * 2 ^ 40 + 9 * 2 ^ 48 := by
  have hbits : s.mapBitsMax.val < 64 := s.mapBitsMax.isLt
  have h0 : (BitVec.ofNat 64 (nslots s)).toNat = nslots s := Nat.mod_eq_of_lt (by omega)
  have h16 := toNat_or_ofNat_shiftLeft (n := 16) (f := s.mapBitsMax.val) h0 (by omega) (by omega)
  have h24 := toNat_or_ofNat_shiftLeft (n := 24) (f := 32) h16 (by omega) (by decide)
  have h32 := toNat_or_ofNat_shiftLeft (n := 32) (f := 3) h24 (by omega) (by decide)
  have h40 := toNat_or_ofNat_shiftLeft (n := 40) (f := 32) h32 (by omega) (by decide)
  exact toNat_or_ofNat_shiftLeft (n := 48) (f := 9) h40 (by omega) (by decide)

/-- `CAP` is a function of the parameters. -/
theorem capWord_congr {s t : State} (hn : nslots t = nslots s) (hb : t.mapBitsMax = s.mapBitsMax) :
    capWord t = capWord s := by rw [capWord, hn, hb, capWord]

/-- A field of a word, as a number. -/
theorem toNat_extractLsb'_word (x : Word) (lo len : Nat) :
    (x.extractLsb' lo len).toNat = x.toNat / 2 ^ lo % 2 ^ len := by
  rw [BitVec.extractLsb'_toNat, Nat.shiftRight_eq_div_pow]

/-- Settles O13: no step changes a parameter, and the fields are digits of the number. -/
theorem capHoldsTheParameters : Obligations.CapHoldsTheParameters := by
  refine ⟨fun s t h => ?_, fun s h => ?_⟩
  · obtain ⟨hn, hb⟩ := parameters_of_step h
    exact capWord_congr hn hb
  · have hcap : (csrRead s 0x003).toNat = _ := toNat_capWord h
    have hbits : s.mapBitsMax.val < 64 := s.mapBitsMax.isLt
    generalize csrRead s 0x003 = cap at hcap ⊢
    simp only [← BitVec.toNat_inj, toNat_extractLsb'_word, hcap, BitVec.ofNat_eq_ofNat, BitVec.toNat_ofNat]
    refine ⟨?_, ?_, ?_, ?_, ?_, ?_, ?_, ?_, ?_⟩ <;> omega

/-! ## Steps that take a host access -/

/-- With no run active a step takes the host's next access, if it is no command, and does what it asks (R13, R27). -/
theorem step_of_access {s : State} {a : Input} {rest : List Input} (hr : running s = true) (hm : s.mode ≠ .busy)
    (hin : s.inputs = a :: rest) (ha : commandOf a = none) : step s = hostAccess a (afterTaking s rest) := by
  rw [step_of_not_busy hr hm, hostStep]
  simp only [hin, ha]
  rfl

/-- A step that takes a write to an index other than `CMD`'s (R27, R128). -/
theorem step_of_write {s : State} {k : BitVec 12} {v : Word} {rest : List Input} (hr : running s = true)
    (hm : s.mode ≠ .busy) (hin : s.inputs = .write k v :: rest) (hk : csrAt k ≠ .cmd) :
    step s = .next (csrWrite (afterTaking s rest) k v) :=
  step_of_access hr hm hin (if_neg hk)

/-- Settles O9: a read is no command, and answers `csrRead`. -/
theorem csrReadHasNoSideEffect : Obligations.CsrReadHasNoSideEffect :=
  fun _ _ _ hr hm hin => step_of_access hr hm hin rfl

/-! ## CSR writes -/

theorem writeSlot_none {s : State} {m : Nat} (h : s.slots[m]? = none) (f : Slot → Slot) : writeSlot s m f = s := by
  rw [writeSlot, h]

theorem writeSlot_some {s : State} {m : Nat} {sl : Slot} (h : s.slots[m]? = some sl) (f : Slot → Slot) :
    writeSlot s m f = s.putSlot m (f sl) := by
  rw [writeSlot, h]

theorem slotRegister_ne_cmd (m r : Nat) : slotRegister m r ≠ .cmd := by
  match r with
  | 0 | 1 | 2 | 3 => exact Csr.noConfusion
  | w + 4 => exact Csr.noConfusion

/-- A write to any register of a slot the block does not have changes nothing (R27). -/
theorem csrWrite_of_slot_none {s : State} {k : BitVec 12} {m r : Nat} (v : Word) (hk : csrAt k = slotRegister m r)
    (hm : s.slots[m]? = none) : csrWrite s k v = s := by
  rw [csrWrite, hk]
  match r with
  | 0 => exact writeSlot_none hm _
  | 1 => exact writeSlot_none hm _
  | 2 => rfl
  | 3 => rfl
  | w + 4 => rfl

/-- A write to a register of a slot that is not of its descriptor changes nothing (R27, R36). -/
theorem csrWrite_of_slotRegister {s : State} {k : BitVec 12} {m r : Nat} (v : Word) (hk : csrAt k = slotRegister m r)
    (hr : 2 ≤ r) : csrWrite s k v = s := by
  rw [csrWrite, hk]
  match r with
  | 2 => rfl
  | 3 => rfl
  | w + 4 => rfl

/-- Settles O16: `MSGADDR` and `MSGLEN` stand at offsets 0 and 1 of their slot, and neither is `CMD`. -/
theorem descriptorWritesStoreInEveryState : Obligations.DescriptorWritesStoreInEveryState := by
  intro s m v rest hr hm hm256
  have haddr : csrAt (BitVec.ofNat 12 (0x100 + 8 * m)) = slotRegister m 0 := csrAt_slot hm256 (r := 0) (by decide)
  have hlen : csrAt (BitVec.ofNat 12 (0x100 + 8 * m + 1)) = slotRegister m 1 := csrAt_slot hm256 (by decide)
  refine ⟨fun sl hsl hin => ?_, fun sl hsl hin => ?_, fun hno hin => ?_⟩
  · rw [step_of_write hr hm hin (haddr ▸ slotRegister_ne_cmd m 0), csrWrite, haddr]
    exact congrArg _ (writeSlot_some (s := afterTaking s rest) hsl _)
  · rw [step_of_write hr hm hin (hlen ▸ slotRegister_ne_cmd m 1), csrWrite, hlen]
    exact congrArg _ (writeSlot_some (s := afterTaking s rest) hsl _)
  · have hnone : (afterTaking s rest).slots[m]? = none := List.getElem?_eq_none hno
    rcases hin with hin | hin
    · rw [step_of_write hr hm hin (haddr ▸ slotRegister_ne_cmd m 0), csrWrite_of_slot_none v haddr hnone]
    · rw [step_of_write hr hm hin (hlen ▸ slotRegister_ne_cmd m 1), csrWrite_of_slot_none v hlen hnone]

/-- Settles O17: by the range the index lies in; none of the ranges holds `CMD`. -/
theorem writesToReadOnlyIndicesChangeNothing : Obligations.WritesToReadOnlyIndicesChangeNothing := by
  intro s k v rest hr hm hk hin
  have same (hcmd : csrAt k ≠ .cmd) (he : csrWrite (afterTaking s rest) k v = afterTaking s rest) :
      step s = .next (afterTaking s rest) := (step_of_write hr hm hin hcmd).trans (congrArg _ he)
  have reserved (hres : csrAt k = .reserved) : step s = .next (afterTaking s rest) :=
    same (by simp [hres]) (by rw [csrWrite, hres])
  rcases hk with rfl | rfl | ⟨h3, h7⟩ | hgap | ⟨h100, hoff⟩ | hpast
  · exact same (by decide) rfl
  · exact same (by decide) rfl
  · rcases Nat.eq_or_lt_of_le h3 with hcap | h4
    · obtain rfl : 0x003 = k := BitVec.eq_of_toNat_eq hcap
      exact same (by decide) rfl
    · exact reserved (csrAt_reserved (.inl ⟨h4, h7⟩))
  · exact reserved (csrAt_reserved (.inr hgap))
  · have hcsr := csrAt_eq_slotRegister h100
    exact same (hcsr ▸ slotRegister_ne_cmd _ _) (csrWrite_of_slotRegister v hcsr hoff)
  · have hcsr := csrAt_eq_slotRegister (show 0x100 ≤ k.toNat by omega)
    exact same (hcsr ▸ slotRegister_ne_cmd _ _) (csrWrite_of_slot_none v hcsr (slot_none_of_index (s := s) hpast))

/-! ## Memory writes -/

/-- Settles O20: both writes are `memWrite`, whose laws are the claim. -/
theorem hostByteWritesReadBack : Obligations.HostByteWritesReadBack := by
  intro s a b rest hr hm
  refine ⟨fun hwf hin => ?_, fun hwf hu ha hin => ?_⟩
  · exact ⟨_, step_of_access hr hm hin rfl, wf_memWrite _ b hwf, fun c => memRead_memWrite _ c b hwf⟩
  · have hunlocked : tblLock (afterTaking s rest) = false := by simp [tblLock, afterTaking, hu]
    have hstep : step s = .next { afterTaking s rest with tbl := memWrite s.tbl a.toNat b } := by
      rw [step_of_access hr hm hin rfl, hostAccess, if_neg (by simp [hunlocked])]
      exact if_pos ha
    exact ⟨_, hstep, wf_memWrite _ b hwf, fun c => memRead_memWrite _ c b hwf⟩

end Sys2Proof.Proofs

/-!
The stage view of STEP (R25, R103, R152): the state after each of the eleven stages, and that they end where the one assignment
of `exec` does (R157).
-/
namespace Sys2Proof.Proofs

open Sys2Proof.Machine Sys2Proof.Laws

/-- After `k + 1` stages the last is the one that ran on the state after `k`. -/
theorem runStages_succ {m lane pos k : Nat} {s u : State} (h : runStages m lane pos k s = some u) :
    runStages m lane pos (k + 1) s = stageStep m lane pos u := by
  induction k generalizing s with
  | zero =>
    obtain rfl : s = u := Option.some.inj h
    simp only [runStages]
    cases stageStep m lane pos s <;> rfl
  | succ k ih =>
    rw [runStages] at h ⊢
    cases hs : stageStep m lane pos s with
    | none => rw [hs] at h; cases h
    | some s' => rw [hs] at h; exact ih h

/-- The accumulator after stage S`r` of a STEP on lane value `l0` and source byte `v` (R153, R154). -/
def stageAcc (s : State) (a l0 : Word) (v : Byte) (r : Nat) : Word :=
  afterRounds (memRead s.tbl) (maskOf s.mapSize) v (foldStage a l0) r

/-- The state after the stages S0 to S`r` of a STEP, `r` up to 9, on slot `m`: the accumulator has moved, the lane and `di` have
not, and `STG` names the next stage (R25). -/
def afterStage (s : State) (m : Nat) (sl : Slot) (l0 : Word) (v : Byte) (r : Nat) : State :=
  { s.putSlot m { sl with acc := stageAcc s sl.acc l0 v r } with stg := BitVec.ofNat 4 (r + 1) }

/-! ## One stage -/

/-- A stage before the last puts the slot back and counts `STG` on (R25). -/
theorem stageStep_of_ne {m lane pos : Nat} {s : State} {sl sl' : Slot} (hsl : s.slots[m]? = some sl)
    (hst : stageSlot lane pos s sl = some sl') (hstg : s.stg ≠ 10) :
    stageStep m lane pos s = some { s.putSlot m sl' with stg := s.stg + 1 } := by
  simp only [stageStep, hsl, hst, if_neg hstg]

/-- The last stage puts the slot back, advances `di` and sets `STG` to 0 (R25). -/
theorem stageStep_of_eq {m lane pos : Nat} {s : State} {sl sl' : Slot} (hsl : s.slots[m]? = some sl)
    (hst : stageSlot lane pos s sl = some sl') (hstg : s.stg = 10) :
    stageStep m lane pos s = some { (s.putSlot m sl').advance with stg := 0 } := by
  simp only [stageStep, hsl, hst, if_pos hstg]

section
variable {lane pos : Nat} {sl : Slot} {l0 : Word} {v : Byte} (hl : sl.lanes[lane]? = some l0) (hv : sl.src[pos]? = some v)
include hl hv

/-- Stage S0 folds the lane into the accumulator (R153). -/
theorem stageSlot_fold {s : State} (hstg : s.stg = 0) :
    stageSlot lane pos s sl = some { sl with acc := foldStage sl.acc l0 } := by
  simp only [stageSlot, hl, hv, hstg]
  rfl

/-- Stage S`r + 1` is the lookup round of that number (R154). -/
theorem stageSlot_lookup {s : State} {r : Nat} (hr : r < 9) (hstg : s.stg = BitVec.ofNat 4 (r + 1)) :
    stageSlot lane pos s sl =
      some { sl with acc := lookupStage (memRead s.tbl) (maskOf s.mapSize) v (r + 1) sl.acc } := by
  have hnat : s.stg.toNat = r + 1 := by rw [hstg, BitVec.toNat_ofNat]; omega
  simp only [stageSlot, hl, hv, hnat]
  exact if_pos (show r + 1 ≤ 9 from hr)

/-- Stage S10 absorbs the accumulator into the lane (R156). -/
theorem stageSlot_absorb {s : State} (hstg : s.stg = 10) :
    stageSlot lane pos s sl = some { sl with lanes := sl.lanes.setIfInBounds lane (absorb l0 sl.acc) } := by
  simp only [stageSlot, hl, hv, hstg]
  rfl

end

/-! ## The stages of one STEP -/

/-- The stages before the last have numbers below 10. -/
theorem stageNumber_ne_ten {r : Nat} (hr : r < 9) : BitVec.ofNat 4 (r + 1) ≠ 10 := by
  intro h
  have hnat : (r + 1) % 2 ^ 4 = 10 := congrArg BitVec.toNat h
  omega

section
variable {s : State} {m lane pos : Nat} {sl : Slot} {l0 : Word} {v : Byte} (hsl : s.slots[m]? = some sl)
include hsl

theorem getElem?_afterStage (r : Nat) :
    (afterStage s m sl l0 v r).slots[m]? = some { sl with acc := stageAcc s sl.acc l0 v r } :=
  (getElem?_putSlot_advance hsl).trans (if_pos rfl)

variable (hl : sl.lanes[lane]? = some l0) (hv : sl.src[pos]? = some v)
include hl hv

theorem stageStep_first (hstg : s.stg = 0) : stageStep m lane pos s = some (afterStage s m sl l0 v 0) := by
  rw [stageStep_of_ne hsl (stageSlot_fold hl hv hstg) (by simp [hstg]), hstg]
  rfl

theorem stageStep_afterStage {r : Nat} (hr : r < 9) :
    stageStep m lane pos (afterStage s m sl l0 v r) = some (afterStage s m sl l0 v (r + 1)) := by
  have hnext : BitVec.ofNat 4 (r + 1) + 1 = BitVec.ofNat 4 (r + 1 + 1) := (BitVec.ofNat_add (r + 1) 1).symm
  rw [stageStep_of_ne (getElem?_afterStage hsl r)
    (stageSlot_lookup (sl := { sl with acc := stageAcc s sl.acc l0 v r }) hl hv hr rfl) (stageNumber_ne_ten hr)]
  simp only [afterStage, stageAcc, afterRounds, State.putSlot, List.set_set, hnext]

/-- The eleventh stage leaves what the one assignment leaves (R157). -/
theorem stageStep_last (hstg : s.stg = 0) :
    stageStep m lane pos (afterStage s m sl l0 v 9) = some (s.putSlot m { sl with
        acc := (mix (memRead s.tbl) (maskOf s.mapSize) sl.acc l0 v).1
        lanes := sl.lanes.setIfInBounds lane (mix (memRead s.tbl) (maskOf s.mapSize) sl.acc l0 v).2 }).advance := by
  rw [stageStep_of_eq (getElem?_afterStage hsl 9)
    (stageSlot_absorb (sl := { sl with acc := stageAcc s sl.acc l0 v 9 }) hl hv rfl) rfl]
  simp only [afterStage, State.putSlot, State.advance, List.set_set, hstg]
  rfl

/-- The first `r + 1` stages, `r` up to 9. -/
theorem runStages_afterStage (hstg : s.stg = 0) {r : Nat} (hr : r ≤ 9) :
    runStages m lane pos (r + 1) s = some (afterStage s m sl l0 v r) := by
  induction r with
  | zero => exact (runStages_succ rfl).trans (stageStep_first hsl hl hv hstg)
  | succ r ih => exact (runStages_succ (ih (by omega))).trans (stageStep_afterStage hsl hl hv hr)

end

/-- Settles O34: ten stages lead to `afterStage` 9, and the eleventh to the state of the one assignment. -/
theorem stageViewAgreesWithStep : Obligations.StageViewAgreesWithStep := by
  intro s t m lane pos hstg h
  obtain ⟨sl, sl', hsl, hmix, rfl⟩ := onSlot_next.mp h
  obtain ⟨l0, v, hl, hv, rfl⟩ := mixSlot_eq_ok hmix
  refine ⟨(runStages_succ (runStages_afterStage hsl hl hv hstg le_rfl)).trans (stageStep_last hsl hl hv hstg), hstg, ?_⟩
  intro k hk
  cases k with
  | zero => exact ⟨s, rfl, hstg, rfl⟩
  | succ r => exact ⟨_, runStages_afterStage hsl hl hv hstg (by omega), rfl, rfl⟩

end Sys2Proof.Proofs

/-!
The two memories (R60, R62, R63): no instruction writes one; replacing what they hold commutes with every instruction whose effect
on its slot does not read the difference; and what a STEP reads of the table is nine bytes below `MAPSIZE` (R70, R71, R159).
-/
namespace Sys2Proof.Proofs

open Sys2Proof.Machine Sys2Proof.Laws

/-! ## No instruction writes a memory -/

/-- The two memories, the parameters and the environment stand as they were: what no instruction changes (R9, R60). -/
structure SurroundingsKept (s t : State) : Prop where
  tbl : t.tbl = s.tbl
  msg : t.msg = s.msg
  nslots : nslots t = nslots s
  mapBitsMax : t.mapBitsMax = s.mapBitsMax
  inputs : t.inputs = s.inputs
  answers : t.answers = s.answers
  resetn : t.resetn = s.resetn

/-- Every effect of a command keeps them; a reset keeps the number of slots. -/
theorem surroundingsKept_of_commandEffect {i : Instr} {s t : State} (h : CommandEffect s i t) : SurroundingsKept s t := by
  cases h with
  | reset => exact ⟨rfl, rfl, nslots_blockReset s, rfl, rfl, rfl, rfl⟩
  | outcome | lock | single | batch => exact ⟨rfl, rfl, rfl, rfl, rfl, rfl, rfl⟩

/-- Every instruction keeps them (R60). -/
theorem surroundingsKept_of_exec {i : Instr} {s t : State} (h : exec i s = .next t) : SurroundingsKept s t := by
  cases hk : i.kind with
  | command => exact surroundingsKept_of_commandEffect (commandEffect_of_exec hk h)
  | dispatch =>
    rcases exec_dispatch_cases hk h with ⟨m, _, sl', _, _, _, rfl⟩ | ⟨_, rfl⟩
    · exact ⟨rfl, rfl, nslots_putSlot s m sl', rfl, rfl, rfl, rfl⟩
    · exact ⟨rfl, rfl, rfl, rfl, rfl, rfl, rfl⟩

/-- Settles O42: each memory is the same list of cells as before. -/
theorem noInstructionWritesMemory : Obligations.NoInstructionWritesMemory := by
  intro i s t h
  obtain ⟨htbl, hmsg, hn, hb, hin, hans, hreset⟩ := surroundingsKept_of_exec h
  exact ⟨fun _ => by rw [htbl], fun _ => by rw [hmsg], hn, hb, hin, hans, hreset⟩

/-! ## Other contents of the memories

Memory contents are replaced before or after an instruction with the same result, where the instruction does not read the
difference. -/

/-- The state with other contents of the two memories. -/
def withMemories (tbl msg : Memory) (s : State) : State := { s with tbl := tbl, msg := msg }

@[simp] theorem withMemories_mode (tbl msg : Memory) (s : State) : (withMemories tbl msg s).mode = s.mode := rfl
@[simp] theorem withMemories_slots (tbl msg : Memory) (s : State) : (withMemories tbl msg s).slots = s.slots := rfl
@[simp] theorem nslots_withMemories (tbl msg : Memory) (s : State) : nslots (withMemories tbl msg s) = nslots s := rfl
@[simp] theorem cfgCause_withMemories (tbl msg : Memory) (s : State) :
    cfgCause (withMemories tbl msg s) = cfgCause s := rfl

@[simp] theorem setErr_withMemories (tbl msg : Memory) (s : State) (code : ErrCode) (cause : BitVec 8) :
    (withMemories tbl msg s).setErr code cause = withMemories tbl msg (s.setErr code cause) := rfl

@[simp] theorem acceptRun_withMemories (tbl msg : Memory) (s : State) (kind : RunKind) (base count : Nat) :
    (withMemories tbl msg s).acceptRun kind base count = withMemories tbl msg (s.acceptRun kind base count) := rfl

/-- What a command does depends on no byte of either memory (R60). -/
theorem exec_command_withMemories {i : Instr} {s t : State} (tbl msg : Memory) (hk : i.kind = .command)
    (h : exec i s = .next t) : exec i (withMemories tbl msg s) = .next (withMemories tbl msg t) := by
  cases i with
  | init | prep | fold4 | step | fin1 | fin2 | endRun => cases hk
  | nop | srst => cases h; rfl
  | cfglock =>
    show execCfglock (withMemories tbl msg s) = _
    rcases execCfglock_next h with ⟨hm, hv, rfl⟩ | ⟨hm, hv, rfl⟩ | ⟨hm, rfl⟩
    · have hc : cfgCause s = 0 := cfgCause_eq_zero_iff.mpr hv
      simp only [execCfglock, withMemories_mode, hm, cfgCause_withMemories, hc, if_true]
      rfl
    · have hc : ¬cfgCause s = 0#8 := by simpa [hv] using (cfgCause_eq_zero_iff (s := s)).not
      simp [execCfglock, raiseRefusal, hm, hc]
    · cases hm' : s.mode with
      | unconfig => exact absurd hm' hm
      | ready | busy => simp [execCfglock, raiseRefusal, hm']
  | hash slot =>
    show execHash slot (withMemories tbl msg s) = _
    rcases execHash_next h with ⟨sl, hm, hsl, hd, rfl⟩ | ⟨hm, sl, hsl, hd, rfl⟩ | ⟨hm, hsl, rfl⟩ | ⟨hm, rfl⟩
    · simp [execHash, hm, hsl, hd]
    · simp [execHash, raiseRefusal, hm, hsl, hd]
    · simp [execHash, raiseRefusal, hm, hsl]
    · simp [execHash, raiseRefusal, hm]
  | batch count =>
    show execBatch count (withMemories tbl msg s) = _
    rcases execBatch_next h with ⟨hm, hc, hd, rfl⟩ | ⟨hm, hc, hd, rfl⟩ | ⟨hm, hc, rfl⟩ | ⟨hm, rfl⟩
    · rw [execBatch, withMemories_mode, if_pos hm, nslots_withMemories, if_pos hc, withMemories_slots, if_pos hd,
        acceptRun_withMemories]
    · simp [execBatch, raiseRefusal, hm, hc, hd]
    · simp [execBatch, raiseRefusal, hm, hc.not_ge]
    · simp [execBatch, raiseRefusal, hm]

/-- An instruction has the same effect with other contents of the memories, where its effect on its slot is the same. -/
theorem exec_withMemories {i : Instr} {s t : State} {tbl msg : Memory} (h : exec i s = .next t)
    (heff : ∀ m sl, opSlot i = some m → s.slots[m]? = some sl →
      slotEffect (withMemories tbl msg s) i sl = slotEffect s i sl) :
    exec i (withMemories tbl msg s) = .next (withMemories tbl msg t) := by
  cases hk : i.kind with
  | command => exact exec_command_withMemories tbl msg hk h
  | dispatch =>
    rcases exec_dispatch_cases hk h with ⟨m, sl, sl', hslot, hsl, he, rfl⟩ | ⟨rfl, rfl⟩
    · rw [exec_eq_onSlot hslot]
      exact onSlot_next.mpr ⟨sl, sl', hsl, (heff m sl hslot hsl).trans he, rfl⟩
    · rfl

/-- The same for the table memory alone. -/
theorem exec_withTable {i : Instr} {s t : State} {other : Memory} (h : exec i s = .next t)
    (heff : ∀ m sl, opSlot i = some m → s.slots[m]? = some sl →
      slotEffect { s with tbl := other } i sl = slotEffect s i sl) :
    exec i { s with tbl := other } = .next { t with tbl := other } := by
  have hmsg : withMemories other s.msg t = { t with tbl := other } := by
    rw [withMemories, ← (surroundingsKept_of_exec h).msg]
  exact hmsg ▸ exec_withMemories h heff

/-- The same for the message memory alone. -/
theorem exec_withMessage {i : Instr} {s t : State} {other : Memory} (h : exec i s = .next t)
    (heff : ∀ m sl, opSlot i = some m → s.slots[m]? = some sl →
      slotEffect { s with msg := other } i sl = slotEffect s i sl) :
    exec i { s with msg := other } = .next { t with msg := other } := by
  have htbl : withMemories s.tbl other t = { t with msg := other } := by
    rw [withMemories, ← (surroundingsKept_of_exec h).tbl]
  exact htbl ▸ exec_withMemories h heff

/-- An operation that does not ask TBL makes the same of its slot with any table (R5). -/
theorem slotEffect_withTable {i : Instr} (hi : Agent.tbl ∉ asked i) (s : State) (other : Memory) (sl : Slot) :
    slotEffect { s with tbl := other } i sl = slotEffect s i sl := by
  cases i with
  | step => exact absurd (List.mem_singleton_self _) hi
  | nop | cfglock | srst | hash | batch | init | prep | fold4 | fin1 | fin2 | endRun => rfl

/-- One that does not ask HOST makes the same of its slot with any message memory (R5). -/
theorem slotEffect_withMessage {i : Instr} (hi : Agent.host ∉ asked i) (s : State) (other : Memory) (sl : Slot) :
    slotEffect { s with msg := other } i sl = slotEffect s i sl := by
  cases i with
  | prep => exact absurd List.mem_cons_self hi
  | nop | cfglock | srst | hash | batch | init | fold4 | step | fin1 | fin2 | endRun => rfl

/-- Settles O43: only STEP's effect reads the table and only PREP's the message memory, and no command reads either. -/
theorem onlyPrepAndStepReadMemory : Obligations.OnlyPrepAndStepReadMemory := by
  intro i s t other h
  exact ⟨fun hi => exec_withTable h fun _ sl _ _ => slotEffect_withTable hi s other sl,
    fun hi => exec_withMessage h fun _ sl _ _ => slotEffect_withMessage hi s other sl⟩

/-! ## What a STEP reads of the table -/

/-- Every lookup of a STEP is below `MAPSIZE` (R70, R160). -/
theorem lookupAddr_lt {mapSize : Word} (h : mapSize ≠ 0) (v : Byte) (a : Word) :
    (lookupAddr (maskOf mapSize) v a).toNat < mapSize.toNat := by
  have hle : (lookupAddr (maskOf mapSize) v a).toNat ≤ (maskOf mapSize).toNat := by
    rw [lookupAddr, BitVec.toNat_and]
    exact Nat.and_le_right
  have hlt : (maskOf mapSize).toNat < mapSize.toNat := by
    unfold maskOf
    bv_omega
  omega

/-- The rounds of a STEP depend on the table only where they look it up (R154). -/
theorem afterRounds_congr {table other : Nat → Byte} {mask a : Word} {v : Byte} {n : Nat}
    (h : ∀ r < n, other (lookupAddr mask v (afterRounds table mask v a r)).toNat =
      table (lookupAddr mask v (afterRounds table mask v a r)).toNat) :
    afterRounds other mask v a n = afterRounds table mask v a n := by
  induction n with
  | zero => rfl
  | succ n ih =>
    have hbefore := ih fun r hr => h r (by omega)
    rw [afterRounds, afterRounds, hbefore, lookupStage, lookupStage, h n (by omega)]

/-- So does the whole STEP, at the addresses `mixAddrs` lists (R71, R157). -/
theorem mix_congr {table other : Nat → Byte} {mask a0 l0 : Word} {v : Byte}
    (h : ∀ a ∈ mixAddrs mask a0 l0 v table, other a.toNat = table a.toNat) :
    mix other mask a0 l0 v = mix table mask a0 l0 v := by
  have hrounds : afterRounds other mask v (foldStage a0 l0) Config.rounds =
      afterRounds table mask v (foldStage a0 l0) Config.rounds :=
    afterRounds_congr fun r hr => h _ (List.mem_map.mpr ⟨r, List.mem_range.mpr hr, rfl⟩)
  rw [mix, mix, hrounds]

/-- A STEP that answers has a table of at least one byte (R62, R70). -/
theorem mapSize_ne_zero_of_mixSlot {m lane pos : Nat} {s : State} {sl sl' : Slot}
    (h : mixSlot m lane pos s sl = .ok sl') : s.mapSize ≠ 0 := by
  intro hzero
  have hfits : tableFits s = false := by simp [tableFits, hzero]
  simp only [mixSlot, hfits] at h
  split at h
  · split at h <;> cases h
  · cases h

/-- With a table that agrees where a STEP looks it up, the STEP makes the same of its slot (R71). -/
theorem mixSlot_withTable {s : State} {lane pos : Nat} {sl : Slot} {l0 : Word} {v : Byte} {other : Memory}
    (hl : sl.lanes[lane]? = some l0) (hv : sl.src[pos]? = some v)
    (h : ∀ a ∈ mixAddrs (maskOf s.mapSize) sl.acc l0 v (memRead s.tbl), memRead other a.toNat = memRead s.tbl a.toNat)
    (m : Nat) : mixSlot m lane pos { s with tbl := other } sl = mixSlot m lane pos s sl := by
  have hfits : tableFits { s with tbl := other } = tableFits s := rfl
  simp only [mixSlot, hl, hv, hfits, mix_congr h]

/-- Settles O35: a lookup address is masked below `MAPSIZE`, and the effect of a STEP depends on the table at `mixAddrs` alone. -/
theorem stepReadsNineAddressesInRange : Obligations.StepReadsNineAddressesInRange := by
  intro s t m lane pos sl l0 v hsl hl hv h
  obtain ⟨_, _, _, hmix, _⟩ := onSlot_next.mp h
  refine ⟨by simp [mixAddrs, Config.rounds], ?_, ?_⟩
  · intro a ha
    obtain ⟨r, _, rfl⟩ := List.mem_map.mp ha
    exact lookupAddr_lt (mapSize_ne_zero_of_mixSlot hmix) v _
  · intro other hother
    refine exec_withTable h fun k y hk hy => ?_
    obtain rfl : m = k := Option.some.inj hk
    obtain rfl : sl = y := Option.some.inj (hsl.symm.trans hy)
    exact mixSlot_withTable hl hv hother m

end Sys2Proof.Proofs

/-!
The two decoders and the encoder (R90 to R95, R100 to R102): a word decodes to an instruction exactly if it lies in the
instruction's row of the opcode table and its fields are the operands; the encoder writes such words and no others. Then what a
step does with a decoded word, and with an illegal one.
-/
namespace Sys2Proof.Proofs

open Sys2Proof.Machine Sys2Proof.Laws

/-! ## Rows of the opcode table -/

/-- The word lies in the row of the opcode table that the instruction's mnemonic names (R92, R101). -/
def InRow (i : Instr) (w : CmdWord) : Prop := w &&& (tableRow i).1 = (tableRow i).2

/-- The instruction of the same mnemonic whose operands are the fields of the word (R92, R94, R100, R101). -/
def readOperands : Instr → CmdWord → Instr
  | .nop, _ => .nop
  | .cfglock, _ => .cfglock
  | .srst, _ => .srst
  | .hash _, w => .hash (field w 0 8)
  | .batch _, w => .batch (field w 0 16)
  | .init _, w => .init (field w 20 8)
  | .prep _, w => .prep (field w 20 8)
  | .fold4 _, w => .fold4 (field w 20 8)
  | .step _ _ _, w => .step (field w 20 8) (field w 0 5) (field w 8 5)
  | .fin1 _, w => .fin1 (field w 20 8)
  | .fin2 _, w => .fin2 (field w 20 8)
  | .endRun, _ => .endRun

/-- The encoder writes every well-formed instruction into its row (R92, R101). -/
theorem inRow_encode {i : Instr} (h : i.wellFormed = true) : InRow i (encode i) := by
  cases i with
  | nop => exact EncodeInRow.nop h
  | cfglock => exact EncodeInRow.cfglock h
  | srst => exact EncodeInRow.srst h
  | hash slot => exact EncodeInRow.hash slot h
  | batch count => exact EncodeInRow.batch count h
  | init m => exact EncodeInRow.init m h
  | prep m => exact EncodeInRow.prep m h
  | fold4 m => exact EncodeInRow.fold4 m h
  | step m lane pos => exact EncodeInRow.step m lane pos h
  | fin1 m => exact EncodeInRow.fin1 m h
  | fin2 m => exact EncodeInRow.fin2 m h
  | endRun => exact EncodeInRow.endRun h

/-- A word of a row is selected by it. -/
theorem selects_of_row {mask pattern w : CmdWord} (h : w &&& mask = pattern) : selects mask pattern w = true :=
  beq_iff_eq.mpr h

/-- A word of one row is not selected by another whose pattern differs where both masks look. -/
theorem not_selects_of_row {mask pattern mask' pattern' w : CmdWord} (h : w &&& mask = pattern)
    (hne : pattern &&& mask' ≠ pattern' &&& mask) : selects mask' pattern' w = false := by
  refine beq_eq_false_iff_ne.mpr fun h' => hne ?_
  rw [← h, ← h', BitVec.and_assoc, BitVec.and_comm mask, BitVec.and_assoc]

/-! ## The decoders by rows -/

/-- A word in an instruction's row decodes, as the instruction's kind of word, to the mnemonic with the word's fields: the rows
of each table are disjoint (R92, R101). -/
theorem decode_of_inRow {i : Instr} {w : CmdWord} (h : InRow i w) : decode i.kind w = .ok (readOperands i w) := by
  cases i with
  | nop | cfglock | srst | hash | batch =>
    simp only [InRow, tableRow] at h
    simp (disch := decide) only [decode, Instr.kind, decodeCommand, not_selects_of_row h, selects_of_row h]
    rfl
  | init | prep | fold4 | step | fin1 | fin2 | endRun =>
    simp only [InRow, tableRow] at h
    simp (disch := decide) only [decode, Instr.kind, decodeDispatch, not_selects_of_row h, selects_of_row h]
    rfl

/-- A command word that decodes lies in the instruction's row, and its fields are the operands (R92). -/
theorem inRow_of_decodeCommand {i : Instr} {w : CmdWord} (h : decodeCommand w = .ok i) :
    InRow i w ∧ readOperands i w = i := by
  unfold decodeCommand at h
  split_ifs at h with hnop hcfglock hsrst hhash hbatch <;> cases h
  · exact ⟨eq_of_beq hnop, rfl⟩
  · exact ⟨eq_of_beq hcfglock, rfl⟩
  · exact ⟨eq_of_beq hsrst, rfl⟩
  · exact ⟨eq_of_beq hhash, rfl⟩
  · exact ⟨eq_of_beq hbatch, rfl⟩

/-- So does a dispatch word (R101). -/
theorem inRow_of_decodeDispatch {i : Instr} {w : CmdWord} (h : decodeDispatch w = .ok i) :
    InRow i w ∧ readOperands i w = i := by
  unfold decodeDispatch at h
  split_ifs at h with hinit hprep hfold4 hstep hfin1 hfin2 hend <;> cases h
  · exact ⟨eq_of_beq hinit, rfl⟩
  · exact ⟨eq_of_beq hprep, rfl⟩
  · exact ⟨eq_of_beq hfold4, rfl⟩
  · exact ⟨eq_of_beq hstep, rfl⟩
  · exact ⟨eq_of_beq hfin1, rfl⟩
  · exact ⟨eq_of_beq hfin2, rfl⟩
  · exact ⟨eq_of_beq hend, rfl⟩

/-- A decoder reads a word as an instruction exactly if the word lies in the instruction's row, the instruction is spelled by the
decoder's kind of word, and its operands are the word's fields. -/
theorem decode_eq_ok_iff {k : WordKind} {w : CmdWord} {i : Instr} :
    decode k w = .ok i ↔ i.kind = k ∧ InRow i w ∧ readOperands i w = i := by
  constructor
  · intro h
    cases k with
    | command => exact ⟨kind_of_decodeCommand h, inRow_of_decodeCommand h⟩
    | dispatch => exact ⟨kind_of_decodeDispatch h, inRow_of_decodeDispatch h⟩
  · rintro ⟨rfl, hrow, hread⟩
    exact (decode_of_inRow hrow).trans (congrArg _ hread)

/-! ## Fields written and read back -/

/-- A field holds digits of the word's number. -/
theorem field_eq_div_mod (w : CmdWord) (lo len : Nat) : field w lo len = w.toNat / 2 ^ lo % 2 ^ len := by
  rw [field, BitVec.extractLsb'_toNat, Nat.shiftRight_eq_div_pow]

/-- A field of `len` bits holds a value below `2 ^ len`. -/
theorem field_lt (w : CmdWord) (lo len : Nat) : field w lo len < 2 ^ len := (w.extractLsb' lo len).isLt

/-- A field shifted to its place, as a number. -/
theorem toNat_ofNat_shiftLeft {x n : Nat} (h : 2 ^ n * x < 2 ^ 32) : (BitVec.ofNat 32 x <<< n).toNat = 2 ^ n * x := by
  have hx : x < 2 ^ 32 := lt_of_le_of_lt (Nat.le_mul_of_pos_left x (Nat.two_pow_pos n)) h
  rw [BitVec.toNat_shiftLeft, BitVec.toNat_ofNat, Nat.mod_eq_of_lt hx, Nat.shiftLeft_eq, Nat.mul_comm, Nat.mod_eq_of_lt h]

/-- A word of format C as a number: its fields do not overlap (R91). -/
theorem toNat_formatC {opc arg : Nat} (ho : opc < 256) (ha : arg < 65536) :
    (formatC opc arg).toNat = 2 ^ 24 * opc + arg := by
  have harg : (BitVec.ofNat 32 arg).toNat = arg := Nat.mod_eq_of_lt (by omega)
  rw [formatC, BitVec.toNat_or, toNat_ofNat_shiftLeft (by omega), harg, Nat.two_pow_add_eq_or_of_lt (by omega)]

/-- A word of format U as a number: its fields do not overlap (R100). -/
theorem toNat_formatU {uop m pos lane : Nat} (hu : uop < 16) (hm : m < 256) (hp : pos < 32) (hl : lane < 32) :
    (formatU uop m pos lane).toNat = 2 ^ 28 * uop + 2 ^ 20 * m + 2 ^ 8 * pos + lane := by
  have hlane : (BitVec.ofNat 32 lane).toNat = lane := Nat.mod_eq_of_lt (by omega)
  have hUM : 2 ^ 28 * uop ||| 2 ^ 20 * m = 2 ^ 20 * (2 ^ 8 * uop + m) := by
    rw [← Nat.two_pow_add_eq_or_of_lt (by omega)]; omega
  have hUMP : 2 ^ 20 * (2 ^ 8 * uop + m) ||| 2 ^ 8 * pos = 2 ^ 8 * (2 ^ 20 * uop + 2 ^ 12 * m + pos) := by
    rw [← Nat.two_pow_add_eq_or_of_lt (by omega)]; omega
  rw [formatU, BitVec.toNat_or, BitVec.toNat_or, BitVec.toNat_or, toNat_ofNat_shiftLeft (by omega),
    toNat_ofNat_shiftLeft (by omega), toNat_ofNat_shiftLeft (by omega), hlane, hUM, hUMP,
    ← Nat.two_pow_add_eq_or_of_lt (by omega)]
  omega

/-- The operands of a well-formed instruction are the fields of its encoding (R92, R94, R100, R101). -/
theorem readOperands_encode {i : Instr} (h : i.wellFormed = true) : readOperands i (encode i) = i := by
  have slotField {uop m : Nat} (hu : uop < 16) (hm : m < 256) : field (formatU uop m 0 0) 20 8 = m := by
    rw [field_eq_div_mod, toNat_formatU hu hm (by omega) (by omega)]; omega
  cases i with
  | nop | cfglock | srst | endRun => rfl
  | hash slot =>
    have hs : slot < 256 := of_decide_eq_true h
    refine congrArg Instr.hash ?_
    rw [encode, field_eq_div_mod, toNat_formatC (by decide) (by omega)]; omega
  | batch count =>
    have hc : count < 65536 := of_decide_eq_true h
    refine congrArg Instr.batch ?_
    rw [encode, field_eq_div_mod, toNat_formatC (by decide) hc]; omega
  | init m => exact congrArg Instr.init (slotField (by decide) (of_decide_eq_true h))
  | prep m => exact congrArg Instr.prep (slotField (by decide) (of_decide_eq_true h))
  | fold4 m => exact congrArg Instr.fold4 (slotField (by decide) (of_decide_eq_true h))
  | fin1 m => exact congrArg Instr.fin1 (slotField (by decide) (of_decide_eq_true h))
  | fin2 m => exact congrArg Instr.fin2 (slotField (by decide) (of_decide_eq_true h))
  | step m lane pos =>
    obtain ⟨⟨hm, hl⟩, hp⟩ : (m < 256 ∧ lane < 32) ∧ pos < 32 := by simpa [Instr.wellFormed] using h
    simp only [readOperands, encode, field_eq_div_mod, toNat_formatU (show 0x4 < 16 by decide) hm hp hl, Instr.step.injEq]
    omega

/-- Settles O1: the encoding lies in the instruction's row, and its fields are the operands. -/
theorem decodeOfEncodeIsTheInstruction : Obligations.DecodeOfEncodeIsTheInstruction :=
  fun _ h => decode_eq_ok_iff.mpr ⟨rfl, inRow_encode h, readOperands_encode h⟩

/-! ## Words put together from their fields -/

/-- The mask of the field of `len` bits whose lowest bit is bit `lo`. -/
def fieldMask (lo len : Nat) : CmdWord := (BitVec.allOnes len).setWidth 32 <<< lo

/-- A field put back where it was read is the word under the field's mask. -/
theorem ofNat_field_shiftLeft (w : CmdWord) (lo len : Nat) :
    BitVec.ofNat 32 (field w lo len) <<< lo = w &&& fieldMask lo len := by
  refine BitVec.eq_of_getLsbD_eq fun i hi => ?_
  simp only [field, BitVec.ofNat_toNat, fieldMask, BitVec.getLsbD_and, BitVec.getLsbD_shiftLeft, BitVec.getLsbD_setWidth,
    BitVec.getLsbD_extractLsb', BitVec.getLsbD_allOnes]
  by_cases hlo : i < lo
  · simp [hlo]
  · have hbit : lo + (i - lo) = i := by omega
    rw [hbit, Bool.and_comm (w.getLsbD i)]
    simp only [Bool.and_assoc]

/-- A word of a row is the row's pattern and what the word holds outside the row's mask. -/
theorem pattern_or_fields {mask pattern fields w : CmdWord} (h : w &&& mask = pattern)
    (hall : mask ||| fields = BitVec.allOnes 32) : pattern ||| (w &&& fields) = w := by
  rw [← h, ← BitVec.and_or_distrib_left, hall, BitVec.and_allOnes]

/-- A word of format C whose row covers all bits but an operand's, from bit 0, is put together from the row's pattern and the
operand (R91). -/
theorem formatC_of_row {opc len : Nat} {mask pattern w : CmdWord} (h : w &&& mask = pattern)
    (hopc : BitVec.ofNat 32 opc <<< 24 = pattern) (hall : mask ||| fieldMask 0 len = BitVec.allOnes 32) :
    formatC opc (field w 0 len) = w := by
  have harg := ofNat_field_shiftLeft w 0 len
  rw [BitVec.shiftLeft_zero] at harg
  rw [formatC, hopc, harg, pattern_or_fields h hall]

/-- A word of format U whose row covers all bits but the slot's is put together from the row's pattern and the slot (R100). -/
theorem formatU_of_row {uop : Nat} {pattern w : CmdWord} (h : w &&& 0xF00FFFFF = pattern)
    (huop : BitVec.ofNat 32 uop <<< 28 = pattern) : formatU uop (field w 20 8) 0 0 = w := by
  have hword : pattern ||| (w &&& fieldMask 20 8) = w := pattern_or_fields h (by decide)
  rw [formatU, huop, ofNat_field_shiftLeft, hword]
  simp

/-- A word of the row of STEP is put together from the row's pattern, the slot, the position and the lane (R100, R101). -/
theorem formatU_step_of_row {w : CmdWord} (h : w &&& 0xF00FE0E0 = 0x40000000) :
    formatU 0x4 (field w 20 8) (field w 8 5) (field w 0 5) = w := by
  have hword := pattern_or_fields h (fields := fieldMask 20 8 ||| fieldMask 8 5 ||| fieldMask 0 5) (by decide)
  have hlane := ofNat_field_shiftLeft w 0 5
  rw [BitVec.shiftLeft_zero] at hlane
  rw [BitVec.and_or_distrib_left, BitVec.and_or_distrib_left, ← BitVec.or_assoc, ← BitVec.or_assoc] at hword
  rw [formatU, ofNat_field_shiftLeft, ofNat_field_shiftLeft, hlane]
  exact hword

/-- A word of an instruction's row is the encoding of the instruction its fields give (R92, R101). -/
theorem encode_readOperands {i : Instr} {w : CmdWord} (h : InRow i w) : encode (readOperands i w) = w := by
  cases i with
  | nop | cfglock | srst | endRun => exact h.symm.trans BitVec.and_allOnes
  | hash => exact formatC_of_row h rfl (show 0xFFFFFF00 ||| fieldMask 0 8 = _ by decide)
  | batch => exact formatC_of_row h rfl (show 0xFFFF0000 ||| fieldMask 0 16 = _ by decide)
  | init | prep | fold4 | fin1 | fin2 => exact formatU_of_row h rfl
  | step => exact formatU_step_of_row h

/-- Fields hold only values an operand may have (R94, R100). -/
theorem wellFormed_readOperands (i : Instr) (w : CmdWord) : (readOperands i w).wellFormed = true := by
  cases i with
  | nop | cfglock | srst | endRun => rfl
  | hash | batch | init | prep | fold4 | fin1 | fin2 => exact decide_eq_true (field_lt w _ _)
  | step =>
    simp only [readOperands, Instr.wellFormed, Bool.and_eq_true, decide_eq_true_eq]
    exact ⟨⟨field_lt w 20 8, field_lt w 0 5⟩, field_lt w 8 5⟩

/-- Settles O2: an accepted word lies in the instruction's row and its fields are the operands, so the encoder puts it together
again. -/
theorem acceptedWordIsItsEncoding : Obligations.AcceptedWordIsItsEncoding := by
  intro k w i h
  obtain ⟨hkind, hrow, hread⟩ := decode_eq_ok_iff.mp h
  exact ⟨hread ▸ wellFormed_readOperands i w, hkind, hread ▸ encode_readOperands hrow⟩

/-! ## Illegal command words -/

/-- The command words are the encodings of the well-formed commands (R92). -/
theorem decodeCommand_eq_ok_iff {w : CmdWord} {i : Instr} :
    decodeCommand w = .ok i ↔ i.wellFormed = true ∧ i.kind = .command ∧ encode i = w := by
  refine ⟨acceptedWordIsItsEncoding .command w i, ?_⟩
  rintro ⟨hwf, hkind, rfl⟩
  have h := decodeOfEncodeIsTheInstruction i hwf
  rwa [hkind] at h

/-- The legal command words as numbers, one alternative for each row of R92. -/
theorem decodeCommand_ok_iff {w : CmdWord} :
    (∃ i, decodeCommand w = .ok i) ↔
      w.toNat = 0 ∨ w.toNat = 2 ^ 24 ∨ w.toNat = 2 ^ 24 * 2 ∨ w.toNat / 2 ^ 8 = 2 ^ 16 * 0x10 ∨
        w.toNat / 2 ^ 16 = 2 ^ 8 * 0x11 := by
  constructor
  · rintro ⟨i, hi⟩
    obtain ⟨hwf, hkind, rfl⟩ := decodeCommand_eq_ok_iff.mp hi
    cases i with
    | init | prep | fold4 | step | fin1 | fin2 | endRun => cases hkind
    | nop => exact .inl rfl
    | cfglock => exact .inr (.inl rfl)
    | srst => exact .inr (.inr (.inl rfl))
    | hash slot =>
      have hslot : slot < 256 := of_decide_eq_true hwf
      rw [encode, toNat_formatC (by decide) (by omega)]
      omega
    | batch count =>
      have hcount : count < 65536 := of_decide_eq_true hwf
      rw [encode, toNat_formatC (by decide) hcount]
      omega
  · have legal (i : Instr) (hwf : i.wellFormed = true) (hkind : i.kind = .command) (hw : (encode i).toNat = w.toNat) :
        ∃ i, decodeCommand w = .ok i := ⟨i, decodeCommand_eq_ok_iff.mpr ⟨hwf, hkind, BitVec.eq_of_toNat_eq hw⟩⟩
    rintro (h | h | h | h | h)
    · exact legal .nop rfl rfl h.symm
    · exact legal .cfglock rfl rfl h.symm
    · exact legal .srst rfl rfl h.symm
    · have hslot : w.toNat % 2 ^ 8 < 256 := Nat.mod_lt _ (by decide)
      refine legal (.hash (w.toNat % 2 ^ 8)) (decide_eq_true hslot) rfl ?_
      rw [encode, toNat_formatC (by decide) (by omega)]
      omega
    · have hcount : w.toNat % 2 ^ 16 < 65536 := Nat.mod_lt _ (by decide)
      refine legal (.batch (w.toNat % 2 ^ 16)) (decide_eq_true hcount) rfl ?_
      rw [encode, toNat_formatC (by decide) hcount]
      omega

/-- A word the command decoder rejects is one it reads as no instruction. -/
theorem decodeCommand_error_iff {w : CmdWord} :
    (∃ e, decodeCommand w = .error e) ↔ ¬ ∃ i, decodeCommand w = .ok i := by
  cases decodeCommand w <;> simp

/-- With no run active a step takes a value written to `CMD` and serves its bits 31:0 as a command word (R38, R93). -/
theorem step_of_command {s : State} {v : Word} {rest : List Input} (hr : running s = true) (hm : s.mode ≠ .busy)
    (hin : s.inputs = .write 0x002 v :: rest) : step s = commandStep (v.extractLsb' 0 32) (afterTaking s rest) := by
  have hcmd : commandOf (.write 0x002 v) = some (v.extractLsb' 0 32) := commandOf_eq_some_iff.mpr ⟨v, rfl, rfl⟩
  rw [step_of_not_busy hr hm, hostStep]
  simp only [hin, hcmd]
  rfl

/-- Settles O4: the fields of a word are digits of its number, and an illegal word is answered by the refusal alone. -/
theorem illegalCommandWordsAreRefused : Obligations.IllegalCommandWordsAreRefused := by
  refine ⟨fun w => ?_, fun s v rest hr hm hin ⟨e, he⟩ => ?_⟩
  · rw [decodeCommand_error_iff, decodeCommand_ok_iff]
    have hw := w.isLt
    simp only [ne_eq, ← BitVec.toNat_inj, BitVec.extractLsb'_toNat, Nat.shiftRight_eq_div_pow, BitVec.ofNat_eq_ofNat,
      BitVec.toNat_ofNat]
    omega
  · rw [step_of_command hr hm hin, commandStep, he]
    rfl

/-- Settles O3: each of the twelve words is decoded by evaluation. -/
theorem writtenOutWordsDecode : Obligations.WrittenOutWordsDecode := by
  unfold Obligations.WrittenOutWordsDecode
  decide

/-- Settles O5: HOST's turn is a command step, SEQ's the dispatched operation, and a decoded word is handed to `exec`. -/
theorem stepRunsTheDecodedInstruction : Obligations.StepRunsTheDecodedInstruction := by
  refine ⟨fun s v rest i hr hm hin hi => ?_, fun s w i hr hm hw hi => ?_⟩
  · rw [step_of_command hr hm hin, commandStep, hi]
  · have hw' : State.dispatchWord { s with resetn := s.resetn.tail } = some w := hw
    rw [step_of_busy hr hm, sequencerStep, hw']
    simp only [hi]

end Sys2Proof.Proofs

/-!
Where an instruction answers a next state (R102, R206): a command always, an operation exactly where it is legal; where it faults,
the fault names what is outside the table.
-/
namespace Sys2Proof.Proofs

open Sys2Proof.Machine Sys2Proof.Laws

/-! ## Instructions that always answer -/

/-- Every command answers: a refusal is an answer too (R203). -/
theorem exec_command_answers {i : Instr} (hk : i.kind = .command) (s : State) : ∃ t, exec i s = .next t := by
  cases i with
  | init | prep | fold4 | step | fin1 | fin2 | endRun => cases hk
  | nop | srst => exact ⟨_, rfl⟩
  | cfglock =>
    show ∃ t, execCfglock s = .next t
    unfold execCfglock raiseRefusal
    split
    · split <;> exact ⟨_, rfl⟩
    all_goals exact ⟨_, rfl⟩
  | hash slot =>
    show ∃ t, execHash slot s = .next t
    unfold execHash raiseRefusal
    split
    · split
      · exact ⟨_, rfl⟩
      · split <;> exact ⟨_, rfl⟩
    · exact ⟨_, rfl⟩
  | batch count =>
    show ∃ t, execBatch count s = .next t
    unfold execBatch raiseRefusal
    split_ifs <;> exact ⟨_, rfl⟩

/-- Every instruction that works on no slot answers: the commands and END. -/
theorem exec_answers_of_no_slot {i : Instr} (h : opSlot i = none) (s : State) : ∃ t, exec i s = .next t := by
  cases i with
  | init | prep | fold4 | step | fin1 | fin2 => cases h
  | nop | cfglock | srst | hash | batch => exact exec_command_answers rfl s
  | endRun => exact ⟨_, rfl⟩

/-! ## Operations on a slot -/

/-- An effect under a guard is defined exactly when the guard holds. -/
theorem guarded_effect_iff {c : Prop} [Decidable c] {sl : Slot} {r : Fault} :
    (∃ sl', (if c then Except.ok sl else .error r) = .ok sl') ↔ c := by
  split <;> simp [*]

/-- STEP is defined on a slot exactly for a lane below HASHSIZE and 32, a position below 32 and a table size the block has
(R62, R102). -/
theorem mixSlot_answers_iff {m lane pos : Nat} {s : State} {sl : Slot} :
    (∃ sl', mixSlot m lane pos s sl = .ok sl') ↔
      lane < s.hashSize.toNat ∧ lane < 32 ∧ pos < 32 ∧ tableFits s = true := by
  constructor
  · rintro ⟨sl', h⟩
    obtain ⟨l0, v, hl, hv, _⟩ := mixSlot_eq_ok h
    simp only [mixSlot, hl, hv] at h
    split_ifs at h with hlane hfits
    exact ⟨hlane, (Vector.getElem?_eq_some_iff.mp hl).1, (Vector.getElem?_eq_some_iff.mp hv).1, hfits⟩
  · rintro ⟨hlane, hl32, hp32, hfits⟩
    have hl : sl.lanes[lane]? = some sl.lanes[lane] := Vector.getElem?_eq_getElem hl32
    have hv : sl.src[pos]? = some sl.src[pos] := Vector.getElem?_eq_getElem hp32
    simp only [mixSlot, if_pos hlane, hl, hv, if_pos hfits]
    exact ⟨_, rfl⟩

/-- The effect of an operation on a slot the block has is defined exactly when the operation is legal (R102, R206). -/
theorem slotEffect_answers_iff {i : Instr} {m : Nat} {s : State} {sl : Slot} (hslot : opSlot i = some m)
    (hsl : s.slots[m]? = some sl) : (∃ sl', slotEffect s i sl = .ok sl') ↔ opLegal s i = true := by
  have hm : m < nslots s := lt_nslots_of_getElem? hsl
  cases i with
  | nop | cfglock | srst | hash | batch | endRun => cases hslot
  | init | fin1 | fin2 =>
    cases hslot
    exact guarded_effect_iff.trans (by simp [opLegal, hm, Config.lanesMax])
  | prep => cases hslot; exact guarded_effect_iff.trans (by simp [opLegal, hm, hsl])
  | fold4 => cases hslot; simp [slotEffect, opLegal, hm]
  | step =>
    cases hslot
    exact mixSlot_answers_iff.trans (by simp [opLegal, hm, tableFits, checkCap, and_assoc])

/-- A legal operation works on a slot the block has (R102). -/
theorem lt_nslots_of_opLegal {i : Instr} {m : Nat} {s : State} (hslot : opSlot i = some m) (h : opLegal s i = true) :
    m < nslots s := by
  cases i with
  | nop | cfglock | srst | hash | batch | endRun => cases hslot
  | init | prep | fold4 | step | fin1 | fin2 => cases hslot; simp_all [opLegal]

/-- An instruction with a slot answers exactly when it is legal. -/
theorem exec_answers_iff_of_slot {i : Instr} {m : Nat} {s : State} (hslot : opSlot i = some m) :
    (∃ t, exec i s = .next t) ↔ opLegal s i = true := by
  rw [exec_eq_onSlot hslot]
  constructor
  · rintro ⟨t, h⟩
    obtain ⟨sl, sl', hsl, he, _⟩ := onSlot_next.mp h
    exact (slotEffect_answers_iff hslot hsl).mp ⟨sl', he⟩
  · intro h
    obtain ⟨sl, hsl⟩ := exists_slot (lt_nslots_of_opLegal hslot h)
    obtain ⟨sl', he⟩ := (slotEffect_answers_iff hslot hsl).mpr h
    exact ⟨_, onSlot_next.mpr ⟨sl, sl', hsl, he, rfl⟩⟩

/-- Nothing is asked of an instruction that works on no slot. -/
theorem opLegal_of_no_slot {i : Instr} (h : opSlot i = none) (s : State) : opLegal s i = true := by
  cases i with
  | init | prep | fold4 | step | fin1 | fin2 => cases h
  | nop | cfglock | srst | hash | batch | endRun => rfl

/-! ## Every instruction -/

/-- Every instruction answers exactly when it is legal (R102, R206). -/
theorem exec_answers_iff (i : Instr) (s : State) : (∃ t, exec i s = .next t) ↔ opLegal s i = true := by
  cases hslot : opSlot i with
  | none => exact iff_of_true (exec_answers_of_no_slot hslot s) (opLegal_of_no_slot hslot s)
  | some m => exact exec_answers_iff_of_slot hslot

/-- No instruction is refused as not modelled. -/
theorem exec_not_refused (i : Instr) (s : State) (r : Refusal) : exec i s ≠ .refused r := by
  cases hslot : opSlot i with
  | none =>
    obtain ⟨t, ht⟩ := exec_answers_of_no_slot hslot s
    simp [ht]
  | some m =>
    rw [exec_eq_onSlot hslot]
    exact onSlot_not_refused

/-- Settles O40: an instruction with a slot answers where the slot exists and the effect on it is defined, and each other fault
of `onSlot` and `mixSlot` names the word. -/
theorem instructionsStopExactlyWhereNotLegal : Obligations.InstructionsStopExactlyWhereNotLegal := by
  intro i s
  refine ⟨exec_answers_iff i s, fun m hslot hm => ?_, ?_, exec_not_refused i s⟩
  · rw [exec_eq_onSlot hslot]
    exact onSlot_fault.mpr (.inl ⟨List.getElem?_eq_none hm, rfl⟩)
  · rintro m lane pos rfl hm hlane
    obtain ⟨sl, hsl⟩ := exists_slot hm
    exact onSlot_fault.mpr (.inr ⟨sl, hsl, if_neg hlane.not_gt⟩)

end Sys2Proof.Proofs

/-!
The configuration and its lock: which configurations are valid and what `CFGLOCK` makes of them (R123, R124), what the lock
protects from a write and from a step (R125, R126, R128), and the two other configuration commands, `NOP` and `SRST` (R121, R127).
-/
namespace Sys2Proof.Proofs

open Sys2Proof.Machine Sys2Proof.Laws

/-! ## Valid configurations -/

/-- Check `K_POW2` holds exactly for the powers of two (R124). -/
theorem checkPow2_iff {s : State} : checkPow2 s = true ↔ ∃ b, s.mapSize.toNat = 2 ^ b := by
  have hpow : (∃ b, s.mapSize.toNat = 2 ^ b) ↔ s.mapSize.toNat ≠ 0 ∧ s.mapSize.toNat &&& (s.mapSize.toNat - 1) = 0 :=
    Nat.ne_zero_and_sub_one_eq_zero_iff_isPowerOfTwo.symm
  rw [hpow]
  by_cases hz : s.mapSize = 0
  · simp [checkPow2, hz]
  · have hpred : (s.mapSize - 1).toNat = s.mapSize.toNat - 1 := BitVec.toNat_sub_of_le (by bv_omega)
    simp only [checkPow2, Bool.and_eq_true, bne_iff_ne, beq_iff_eq, ne_eq, ← BitVec.toNat_inj, BitVec.toNat_and, hpred]
    rfl

/-- Check `K_HS` holds exactly for 1 to 32 lanes (R124). -/
theorem checkHashSize_iff {s : State} : checkHashSize s = true ↔ 1 ≤ s.hashSize.toNat ∧ s.hashSize.toNat ≤ 32 := by
  rw [checkHashSize, Bool.and_eq_true, decide_eq_true_iff, decide_eq_true_iff, Config.lanesMax]

/-- The six checks of a valid configuration, as numbers (R124). -/
theorem configValid_iff {s : State} :
    configValid s = true ↔
      (∃ b, s.mapSize.toNat = 2 ^ b) ∧ s.mapSize.toNat ≤ 2 ^ s.mapBitsMax.val ∧ s.tblLen = s.mapSize ∧
        (1 ≤ s.hashSize.toNat ∧ s.hashSize.toNat ≤ 32) ∧ (s.variant = 1 ∨ s.variant = 2) ∧
        (s.variant = 2 → s.hashSize = 32) := by
  simp [configValid, checkPow2_iff, checkCap, checkLen, checkHashSize_iff, checkVariant, checkLane, and_assoc, imp_iff_not_or]

/-- The outcome of an accepted command is `ERR` 0 (R201). -/
theorem setErr_ok (s : State) : s.setErr .ok 0 = { s with err := 0 } := by
  rw [State.setErr, errWord_ok]

/-- While unlocked, `CFGLOCK` locks a valid configuration (R123). -/
theorem execCfglock_of_valid {s : State} (hm : s.mode = .unconfig) (hv : configValid s = true) :
    execCfglock s = .next { s with mode := .ready, err := 0 } := by
  simp only [execCfglock, hm, cfgCause_eq_zero_iff.mpr hv, if_true, setErr_ok]

/-- Settles O22: the premises make every check hold. -/
theorem cfglockLocksAValidConfiguration : Obligations.CfglockLocksAValidConfiguration := by
  rintro s hm ⟨b, hb, hsize⟩ hlen hvar
  refine execCfglock_of_valid hm (configValid_iff.mpr ⟨⟨b, hsize⟩, ?_, hlen, ?_⟩)
  · rw [hsize]
    exact Nat.pow_le_pow_right (by decide) hb
  · rcases hvar with ⟨hv, hlo, hhi⟩ | ⟨hv, hhs⟩
    · exact ⟨⟨hlo, hhi⟩, .inl hv, fun h2 => absurd (hv.symm.trans h2) (by decide)⟩
    · exact ⟨by rw [hhs]; decide, .inr hv, fun _ => hhs⟩

/-! ## Writes to the configuration -/

/-- A write that the lock guards is performed in `STATE` 0 (R128) and has no effect in any other (R125). -/
theorem whileUnlocked_of_unconfig {s : State} (hm : s.mode = .unconfig) (s' : State) : whileUnlocked s s' = s' := by
  rw [whileUnlocked, hm]

theorem whileUnlocked_of_locked {s : State} (hm : s.mode ≠ .unconfig) (s' : State) : whileUnlocked s s' = s := by
  rcases whileUnlocked_cases s s' with ⟨hu, _⟩ | ⟨_, he⟩
  · exact absurd hu hm
  · exact he

/-- Settles O14: each of the six writes is guarded by the lock alone, and none of the indices is that of `CMD`. -/
theorem configurationWritesStoreWhileUnlocked : Obligations.ConfigurationWritesStoreWhileUnlocked := by
  intro s v rest hr hu
  have hm : s.mode ≠ .busy := by simp [hu]
  have stored {k : BitVec 12} {s' : State} (hk : csrAt k ≠ .cmd)
      (hw : csrWrite (afterTaking s rest) k v = whileUnlocked (afterTaking s rest) s')
      (hin : s.inputs = .write k v :: rest) : step s = .next s' := by
    rw [step_of_write hr hm hin hk, hw, whileUnlocked_of_unconfig (s := afterTaking s rest) hu]
  exact ⟨stored (by decide) rfl, stored (by decide) rfl, stored (by decide) rfl, stored (by decide) rfl,
    stored (by decide) rfl, stored (by decide) rfl⟩

/-- The configuration CSRs stand at the indices 0x008 to 0x00D (R28). -/
theorem eq_configIndex {k : BitVec 12} (hlo : 0x008 ≤ k.toNat) (hhi : k.toNat ≤ 0x00D) :
    k = 0x008 ∨ k = 0x009 ∨ k = 0x00A ∨ k = 0x00B ∨ k = 0x00C ∨ k = 0x00D := by
  bv_omega

/-- A write to a configuration CSR is no command, and the lock guards it (R125, R128). -/
theorem csrWrite_of_configIndex {k : BitVec 12} (hlo : 0x008 ≤ k.toNat) (hhi : k.toNat ≤ 0x00D) (s : State) (v : Word) :
    csrAt k ≠ .cmd ∧ ∃ s', csrWrite s k v = whileUnlocked s s' := by
  rcases eq_configIndex hlo hhi with rfl | rfl | rfl | rfl | rfl | rfl <;> exact ⟨by decide, _, rfl⟩

/-! ## What the lock protects -/

/-- The configuration and the table are those of `s`: what the lock protects (R125, R126). -/
structure LockedPartKept (s t : State) : Prop where
  seed : t.seed = s.seed
  mapSize : t.mapSize = s.mapSize
  tblLen : t.tblLen = s.tblLen
  hashSize : t.hashSize = s.hashSize
  tPasses : t.tPasses = s.tPasses
  variant : t.variant = s.variant
  tbl : t.tbl = s.tbl

/-- `TBL_LOCK` is 1 outside `STATE` 0 (R126). -/
theorem tblLock_iff {s : State} : tblLock s = true ↔ s.mode ≠ .unconfig := by
  cases hm : s.mode <;> simp [tblLock, hm]

/-- A CSR write while locked keeps what the lock protects: at most a descriptor changes (R39, R125). -/
theorem lockedPartKept_csrWrite {s : State} (hm : s.mode ≠ .unconfig) (k : BitVec 12) (v : Word) :
    LockedPartKept s (csrWrite s k v) := by
  rcases csrWrite_cases s k v with he | ⟨hu, _⟩ | ⟨_, _, _, _, _, _, _, _, he⟩
  · rw [he]; exact ⟨rfl, rfl, rfl, rfl, rfl, rfl, rfl⟩
  · exact absurd hu hm
  · rw [he]; exact ⟨rfl, rfl, rfl, rfl, rfl, rfl, rfl⟩

/-- So does every other host access that is no command: a table write is dropped (R126). -/
theorem lockedPartKept_of_hostAccess {a : Input} {s t : State} (hm : s.mode ≠ .unconfig) (h : hostAccess a s = .next t) :
    LockedPartKept s t := by
  rcases hostAccess_next h with
    ⟨_, _, rfl⟩ | ⟨k, v, _, rfl⟩ | ⟨_, _, _, rfl⟩ | ⟨_, _, _, _, rfl⟩ | ⟨_, _, _, hlock, _⟩
  · exact ⟨rfl, rfl, rfl, rfl, rfl, rfl, rfl⟩
  · exact lockedPartKept_csrWrite hm k v
  · exact ⟨rfl, rfl, rfl, rfl, rfl, rfl, rfl⟩
  · exact ⟨rfl, rfl, rfl, rfl, rfl, rfl, rfl⟩
  · simp [tblLock_iff.mpr hm] at hlock

/-- A reset leaves every element that R45 gives a value at that value. -/
theorem resetValues_blockReset (s : State) : ResetValues s.blockReset where
  mode := rfl
  err := rfl
  seed := rfl
  mapSize := rfl
  tblLen := rfl
  hashSize := rfl
  tPasses := rfl
  variant := rfl
  di := rfl
  stg := rfl
  runKind := rfl
  runBase := rfl
  runCnt := rfl
  descriptors m sl hsl := by obtain rfl := eq_fresh_of_getElem? hsl; exact ⟨rfl, rfl⟩
  digests m sl hsl := dig_of_freshSlots hsl
  unlocked := rfl

/-- From a locked state a step stays locked and keeps what the lock protects, or it is a reset, which keeps the table
(R125, R126, R230). -/
theorem step_of_locked {s t : State} (hm : s.mode ≠ .unconfig) (h : step s = .next t) :
    (t.mode ≠ .unconfig ∧ LockedPartKept s t) ∨ (t.tbl = s.tbl ∧ ResetValues t) := by
  cases stepEffect_of_step h with
  | @reset levels => exact .inr ⟨rfl, resetValues_blockReset { s with resetn := levels }⟩
  | operation | idle | illegal => exact .inl ⟨hm, rfl, rfl, rfl, rfl, rfl, rfl, rfl⟩
  | finish => exact .inl ⟨by simp, rfl, rfl, rfl, rfl, rfl, rfl, rfl⟩
  | access _ _ ha =>
    obtain ⟨hseed, hmap, hlen, hhash, hpasses, hvar, htbl⟩ := lockedPartKept_of_hostAccess (s := afterTaking s _) hm ha
    exact .inl ⟨(statusKept_of_hostAccess ha).mode ▸ hm, hseed, hmap, hlen, hhash, hpasses, hvar, htbl⟩
  | command _ _ _ he =>
    cases he with
    | lock hu => exact absurd hu hm
    | reset => exact .inr ⟨rfl, resetValues_blockReset _⟩
    | outcome => exact .inl ⟨hm, rfl, rfl, rfl, rfl, rfl, rfl, rfl⟩
    | single | batch => exact .inl ⟨by simp, rfl, rfl, rfl, rfl, rfl, rfl, rfl⟩

/-- Settles O15: while locked the guarded write leaves the state, and every step that is no reset keeps the locked part. -/
theorem lockedConfigurationIsImmutable : Obligations.LockedConfigurationIsImmutable := by
  refine ⟨fun s k v rest hr hready hlo hhi hin => ?_, fun s t hm h => ?_⟩
  · obtain ⟨hk, s', hw⟩ := csrWrite_of_configIndex hlo hhi (afterTaking s rest) v
    have hlocked : (afterTaking s rest).mode ≠ .unconfig := by simp [afterTaking, hready]
    rw [step_of_write hr (by simp [hready]) hin hk, hw, whileUnlocked_of_locked hlocked]
  · rcases step_of_locked hm h with ⟨hmt, hseed, hmap, hlen, hhash, hpasses, hvar, _⟩ | ⟨_, hreset⟩
    · exact .inl ⟨hmt, hseed, hmap, hlen, hhash, hpasses, hvar⟩
    · exact .inr ⟨hreset.mode, hreset⟩

/-- Settles O19: a step from a locked state keeps the table, a reset too. -/
theorem tableIsImmutableWhileLocked : Obligations.TableIsImmutableWhileLocked := by
  refine ⟨fun s => ?_, fun s t hlock h a => ?_⟩
  · rw [tblLock_iff]
    cases s.mode <;> simp
  · rcases step_of_locked (tblLock_iff.mp hlock) h with ⟨_, hkept⟩ | ⟨htbl, _⟩
    · rw [hkept.tbl]
    · rw [htbl]

/-! ## NOP and SRST -/

/-- The command decoder rejects a word by its name (R95). -/
theorem decodeCommand_eq_error {w : CmdWord} (h : ¬ ∃ i, decodeCommand w = .ok i) :
    decodeCommand w = .error (.illegalCommand w) := by
  cases hd : decodeCommand w with
  | ok i => exact absurd ⟨i, hd⟩ h
  | error e =>
    unfold decodeCommand at hd
    split_ifs at hd
    cases hd
    rfl

/-- Settles O21: of the legal words only 0 has `OPC` 0. -/
theorem nopClearsErrOnly : Obligations.NopClearsErrOnly := by
  refine ⟨decodeCommand_eq_ok_iff.mpr ⟨rfl, rfl, by decide⟩, fun w hopc hne => decodeCommand_eq_error fun hok => ?_,
    fun s => congrArg Host.Outcome.next (setErr_ok s)⟩
  rw [decodeCommand_ok_iff] at hok
  simp only [ne_eq, ← BitVec.toNat_inj, BitVec.extractLsb'_toNat, Nat.shiftRight_eq_div_pow, BitVec.ofNat_eq_ofNat,
    BitVec.toNat_ofNat] at hopc hne
  omega

/-- A reset touches nothing outside the block (R230). -/
theorem sameOutside_blockReset (s : State) : SameOutside s s.blockReset where
  nslots := nslots_blockReset s
  mapBitsMax := rfl
  table _ := rfl
  message _ := rfl
  inputs := rfl
  answers := rfl

/-- Settles O24: `SRST` is the reset of the block. -/
theorem srstResetsTheBlock : Obligations.SrstResetsTheBlock :=
  ⟨decodeCommand_eq_ok_iff.mpr ⟨rfl, rfl, by decide⟩,
    fun s => ⟨s.blockReset, rfl, resetValues_blockReset s, sameOutside_blockReset s, rfl⟩⟩

end Sys2Proof.Proofs

/-!
The prologue of a run: `INIT` (R141), `PREP` (R142) and `FOLD4` (R143), each as the frame of its slot and what its effect on
that slot is in terms of the spec's words and bytes.
-/
namespace Sys2Proof.Proofs

open Sys2Proof.Machine Sys2Proof.Laws

/-- An operation whose effect on its slot is defined answers a next state in which that slot holds the effect, all else framed
(R24, R44). -/
theorem exec_of_slotEffect {i : Instr} {m : Nat} {s : State} {sl sl' : Slot} (hslot : opSlot i = some m)
    (hsl : s.slots[m]? = some sl) (he : slotEffect s i sl = .ok sl') :
    ∃ t, exec i s = .next t ∧ SlotFrame m s t ∧ t.slots[m]? = some sl' := by
  have hexec : exec i s = .next (s.putSlot m sl').advance := by
    rw [exec_eq_onSlot hslot]
    exact onSlot_next.mpr ⟨sl, sl', hsl, he, rfl⟩
  exact ⟨_, hexec, operationsTouchOnlyTheirSlot i m s _ hslot hexec, by rw [getElem?_putSlot_advance hsl, if_pos rfl]⟩

/-! ## INIT -/

/-- INIT zeroes the lanes below `HASHSIZE` (R141). -/
theorem initSlot_lanes_of_lt {seed : Word} {hs i : Nat} (sl : Slot) (h32 : i < 32) (hi : i < hs) :
    (initSlot seed hs sl).lanes[i]? = some 0 := by
  simp [initSlot, h32, hi]

/-- INIT leaves the lanes from `HASHSIZE` up (R141). -/
theorem initSlot_lanes_of_ge {seed : Word} {hs i : Nat} (sl : Slot) (hi : hs ≤ i) :
    (initSlot seed hs sl).lanes[i]? = sl.lanes[i]? := by
  by_cases h32 : i < 32
  · simp [initSlot, h32, hi.not_gt]
  · simp [h32]

/-- Settles O30: under HASHSIZE at most 32 the effect of INIT is `initSlot`, which writes the accumulator and the lanes. -/
theorem initSetsSeedAndZeroLanes : Obligations.InitSetsSeedAndZeroLanes := by
  intro s m sl hsl hhash
  obtain ⟨t, hexec, hframe, hslot⟩ := exec_of_slotEffect (i := .init m) rfl hsl (if_pos hhash)
  exact ⟨t, _, hexec, hframe, hslot, rfl, fun _ h32 hi => initSlot_lanes_of_lt sl h32 hi,
    fun _ hi => initSlot_lanes_of_ge sl hi, rfl, rfl, rfl, rfl⟩

/-! ## PREP -/

/-- A list with the length and the bytes of a message is that message (R64, R65). -/
theorem eq_messageBytes {mem : Memory} {addr len : Nat} {message : List Byte} (hlen : message.length = len)
    (hbytes : ∀ k, k < len → message[k]? = some (memRead mem (addr + k))) : message = messageBytes mem addr len := by
  refine List.ext_getElem? fun k => ?_
  by_cases hk : k < len
  · simp [hbytes k hk, messageBytes, hk]
  · simp [messageBytes, hlen, hk]

/-- Settles O31: the bytes at the descriptor are the message PREP digests twice. -/
theorem prepDigestsTheMessageTwice : Obligations.PrepDigestsTheMessageTwice := by
  intro s m sl message hsl hdesc hlen hbytes
  obtain rfl : message = slotMessage s sl := eq_messageBytes hlen hbytes
  have hok : descOk sl = true := decide_eq_true hdesc
  obtain ⟨t, hexec, hframe, hslot⟩ := exec_of_slotEffect (i := .prep m) rfl hsl (if_pos hok)
  exact ⟨t, _, hexec, hframe, hslot, rfl⟩

/-! ## FOLD4 -/

/-- A word of format U written as a number (R100). -/
theorem formatU_eq_ofNat {uop m pos lane : Nat} (hu : uop < 16) (hm : m < 256) (hp : pos < 32) (hl : lane < 32) :
    formatU uop m pos lane = BitVec.ofNat 32 (2 ^ 28 * uop + 2 ^ 20 * m + 2 ^ 8 * pos + lane) := by
  rw [← toNat_formatU hu hm hp hl, BitVec.ofNat_toNat, BitVec.setWidth_eq]

/-- The prefold word as a number: its four fields do not overlap (R143). -/
theorem toNat_le32 (b0 b1 b2 b3 : Byte) :
    (le32 b0 b1 b2 b3).toNat = b0.toNat + 2 ^ 8 * b1.toNat + 2 ^ 16 * b2.toNat + 2 ^ 24 * b3.toNat := by
  have h0 : (BitVec.ofNat 64 b0.toNat).toNat = b0.toNat := Nat.mod_eq_of_lt (by omega)
  have h8 := toNat_or_ofNat_shiftLeft (n := 8) (f := b1.toNat) h0 (by omega) (by omega)
  have h16 := toNat_or_ofNat_shiftLeft (n := 16) (f := b2.toNat) h8 (by omega) (by omega)
  have h24 := toNat_or_ofNat_shiftLeft (n := 24) (f := b3.toNat) h16 (by omega) (by omega)
  simp only [BitVec.ofNat_toNat] at h24
  rw [le32, zext64, zext64, zext64, zext64, shl64, shl64, shl64, h24]
  omega

/-- The prefold word has no bit above 31 (R143). -/
theorem le32_ushiftRight (b0 b1 b2 b3 : Byte) : le32 b0 b1 b2 b3 >>> 32 = 0 := by
  have h := toNat_le32 b0 b1 b2 b3
  bv_omega

/-- Settles O32: the word is FOLD4's encoding, and the prefold word is the little-endian sum, which reaches no bit above 31. -/
theorem fold4FoldsFourSourceBytes : Obligations.Fold4FoldsFourSourceBytes := by
  refine ⟨fun m hm => ?_, fun s m sl b0 b1 b2 b3 hsl h0 h1 h2 h3 => ?_⟩
  · have hword : encode (.fold4 m) = BitVec.ofNat 32 (0x30000000 + 2 ^ 20 * m) :=
      formatU_eq_ofNat (by decide) hm (by decide) (by decide)
    rw [← hword]
    exact decodeOfEncodeIsTheInstruction (.fold4 m) (decide_eq_true hm)
  · obtain ⟨t, hexec, hframe, hslot⟩ := exec_of_slotEffect (i := .fold4 m) rfl hsl rfl
    simp only [Nat.reduceLT, Vector.getElem?_eq_getElem, Option.some.injEq] at h0 h1 h2 h3
    subst h0 h1 h2 h3
    refine ⟨t, _, hexec, hframe, hslot, ?_, ?_⟩
    · rw [← toNat_le32, BitVec.ofNat_toNat, BitVec.setWidth_eq]
      rfl
    · rw [fold4Slot, BitVec.ushiftRight_xor_distrib, le32_ushiftRight]
      exact BitVec.xor_zero

end Sys2Proof.Proofs

/-!
The mixer: the shift schedule (R155), the nine lookup rounds as a fold over it (R154), and `STEP` as its eleven stages on one
accumulator and one lane (R152, R153, R156).
-/
namespace Sys2Proof.Proofs

open Sys2Proof.Machine Sys2Proof.Laws

/-! ## The nine rounds -/

/-- Settles O36: the nine pairs by evaluation. -/
theorem shiftScheduleOfNineRounds : Obligations.ShiftScheduleOfNineRounds := by
  unfold Obligations.ShiftScheduleOfNineRounds
  decide

/-- A lookup round with the shift pair `p`, left amount first (R154). -/
def lookupWith (table : Nat → Byte) (mask : Word) (v : Byte) (a : Word) (p : Nat × Nat) : Word :=
  shl64 a p.1 ^^^ shr64 a p.2 ^^^ zext64 (table (lookupAddr mask v a).toNat)

/-- The rounds of a STEP fold the accumulator over the shift pairs of their numbers (R154, R155). -/
theorem afterRounds_eq_foldl (table : Nat → Byte) (mask : Word) (v : Byte) (a : Word) (n : Nat) :
    afterRounds table mask v a n =
      ((List.range n).map fun r => shiftPair (r + 1)).foldl (lookupWith table mask v) a := by
  induction n with
  | zero => rfl
  | succ n ih =>
    rw [List.range_succ, List.map_append, List.foldl_append, ← ih]
    rfl

/-- All rounds of a STEP fold the accumulator over the schedule as R155 tabulates it. -/
theorem afterRounds_eq_foldl_schedule (table : Nat → Byte) (mask : Word) (v : Byte) (a : Word) :
    afterRounds table mask v a Config.rounds =
      [(13, 1), (11, 3), (17, 5), (19, 7), (13, 1), (11, 3), (17, 5), (19, 7), (13, 1)].foldl (lookupWith table mask v) a :=
  (afterRounds_eq_foldl table mask v a 9).trans
    (congrArg (List.foldl (lookupWith table mask v) a) shiftScheduleOfNineRounds)

/-! ## STEP -/

/-- The table memory answers every address below a `MAPSIZE` from 1 to `2^MAPBITS_MAX` (R62, R70). -/
theorem tableFits_iff {s : State} : tableFits s = true ↔ s.mapSize ≠ 0 ∧ s.mapSize.toNat ≤ 2 ^ s.mapBitsMax.val := by
  simp [tableFits, checkCap]

/-- Under a lane, a position and a table size the block has, STEP changes the accumulator and the one lane (R152, R157). -/
theorem mixSlot_of_tableFits {m lane pos : Nat} {s : State} {sl : Slot} {l0 : Word} {v : Byte}
    (hlane : lane < s.hashSize.toNat) (hl : sl.lanes[lane]? = some l0) (hv : sl.src[pos]? = some v)
    (hfits : tableFits s = true) :
    mixSlot m lane pos s sl = .ok { sl with
      acc := (mix (memRead s.tbl) (maskOf s.mapSize) sl.acc l0 v).1
      lanes := sl.lanes.setIfInBounds lane (mix (memRead s.tbl) (maskOf s.mapSize) sl.acc l0 v).2 } := by
  simp only [mixSlot, if_pos hlane, hl, hv, if_pos hfits]

/-- Settles O33: the word is STEP's encoding, and the accumulator is the fold of the nine rounds over the schedule from the
accumulator after stage S0, which stage S10 absorbs into the lane. -/
theorem stepRunsItsElevenStages : Obligations.StepRunsItsElevenStages := by
  refine ⟨fun m lane pos hm hlane hpos => ?_, ?_⟩
  · have hword : encode (.step m lane pos) = BitVec.ofNat 32 (0x40000000 + 2 ^ 20 * m + 2 ^ 8 * pos + lane) :=
      formatU_eq_ofNat (by decide) hm hpos hlane
    rw [← hword]
    exact decodeOfEncodeIsTheInstruction (.step m lane pos) (by simp [Instr.wellFormed, hm, hlane, hpos])
  · intro s m lane pos sl l0 v hsl hlane hl hv hzero hcap look a0 a4 a9
    have hmix : mix (memRead s.tbl) (maskOf s.mapSize) sl.acc l0 v = (a9, absorb l0 a9) := by
      rw [mix, afterRounds_eq_foldl_schedule]
      rfl
    have heffect := mixSlot_of_tableFits (m := m) hlane hl hv (tableFits_iff.mpr ⟨hzero, hcap⟩)
    rw [hmix] at heffect
    obtain ⟨t, hexec, hframe, hslot⟩ := exec_of_slotEffect (i := .step m lane pos) rfl hsl heffect
    have h32 : lane < 32 := (Vector.getElem?_eq_some_iff.mp hl).1
    exact ⟨t, _, hexec, hframe, hslot, rfl, Vector.getElem?_setIfInBounds_self_of_lt h32,
      fun i hi => Vector.getElem?_setIfInBounds_ne hi.symm, rfl, rfl, rfl, rfl⟩

end Sys2Proof.Proofs

/-!
The dispatch sequence (R171, R173, R181): the operation at an index, phase by phase, and that the list over `n` consecutive slots
holds at every index the operation the sequencer has there. Then the sequence of `HASH` and its acceptance (R170).
-/
namespace Sys2Proof.Proofs

open Sys2Proof.Machine Sys2Proof.Laws

/-! ## The operation at an index -/

/-- The prologue of one member (R171). -/
def prologueOps (m : Nat) : List Instr := [.init m, .prep m, .fold4 m]

section
variable {base n hs k : Nat} {variant : Word}

theorem opAt_of_prologue (h : k < 3 * n) : opAt base n hs variant k = (prologueOps (base + k / 3))[k % 3]? := by
  have hlt : k % 3 < 3 := Nat.mod_lt k (by decide)
  rw [opAt, if_pos h]
  generalize k % 3 = r at hlt ⊢
  match r, hlt with
  | 0, _ => rfl
  | 1, _ => rfl
  | 2, _ => rfl

theorem opAt_of_mixing (hlo : 3 * n ≤ k) (hhi : k < 99 * n) :
    opAt base n hs variant k =
      some (.step (base + (k - 3 * n) % n) (laneIndex ((k - 3 * n) / n % 32) hs) ((k - 3 * n) / n % 32)) := by
  rw [opAt, if_neg hlo.not_gt, if_pos hhi]

theorem opAt_of_fin (hlo : 99 * n ≤ k) (hhi : k < 100 * n) :
    opAt base n hs variant k = finOp variant (base + (k - 99 * n)) := by
  rw [opAt, if_neg (by omega), if_neg hlo.not_gt, if_pos hhi]

theorem opAt_end : opAt base n hs variant (100 * n) = some .endRun := by
  rw [opAt, if_neg (by omega), if_neg (by omega), if_neg (by omega), if_pos rfl]

theorem opAt_past_end (h : 100 * n < k) : opAt base n hs variant k = none := by
  rw [opAt, if_neg (by omega), if_neg (by omega), if_neg (by omega), if_neg (by omega)]

/-- Under a variant of R34 the finalizer of the sequencer is that of the list (R190). -/
theorem finOp_eq_finOf (hv : variant = 1 ∨ variant = 2) (m : Nat) : finOp variant m = some (finOf variant m) := by
  rcases hv with rfl | rfl <;> rfl

end

/-- The operations that a dispatch sequence has for the member at slot `m` (R171, R181). -/
inductive MemberOp (hs m : Nat) : Instr → Prop
  | init : MemberOp hs m (.init m)
  | prep : MemberOp hs m (.prep m)
  | fold4 : MemberOp hs m (.fold4 m)
  | step {pos : Nat} (pos_lt : pos < 32) : MemberOp hs m (.step m (laneIndex pos hs) pos)
  | fin1 : MemberOp hs m (.fin1 m)
  | fin2 : MemberOp hs m (.fin2 m)

theorem MemberOp.opSlot_eq {hs m : Nat} {i : Instr} (h : MemberOp hs m i) : opSlot i = some m := by
  cases h <;> rfl

theorem MemberOp.kind_eq {hs m : Nat} {i : Instr} (h : MemberOp hs m i) : i.kind = .dispatch := by
  cases h <;> rfl

/-- The word of a member's operation has a field for each operand (R100). -/
theorem MemberOp.wellFormed {hs m : Nat} {i : Instr} (h : MemberOp hs m i) (hm : m < 256) : i.wellFormed = true := by
  cases h with
  | init | prep | fold4 | fin1 | fin2 => exact decide_eq_true hm
  | @step pos hpos =>
    have hlane : laneIndex pos hs < 32 := (Nat.mod_le pos hs).trans_lt hpos
    simp [Instr.wellFormed, hm, hpos, hlane]

/-- Every operation of a dispatch sequence before END is one of a member's (R171, R181). -/
theorem memberOp_of_opAt {base n hs k : Nat} {variant : Word} {i : Instr} (hk : k < 100 * n)
    (h : opAt base n hs variant k = some i) : ∃ m < n, MemberOp hs (base + m) i := by
  rcases lt_or_ge k (3 * n) with h3 | h3
  · rw [opAt_of_prologue h3] at h
    refine ⟨k / 3, by omega, ?_⟩
    have hi := List.mem_of_getElem? h
    simp only [prologueOps, List.mem_cons, List.not_mem_nil, or_false] at hi
    rcases hi with rfl | rfl | rfl
    · exact .init
    · exact .prep
    · exact .fold4
  rcases lt_or_ge k (99 * n) with h99 | h99
  · rw [opAt_of_mixing h3 h99] at h
    cases h
    exact ⟨_, Nat.mod_lt _ (by omega), .step (Nat.mod_lt _ (by decide))⟩
  · rw [opAt_of_fin h99 hk, finOp] at h
    refine ⟨k - 99 * n, by omega, ?_⟩
    split_ifs at h <;> cases h
    · exact .fin1
    · exact .fin2

/-! ## The sequence as a list -/

/-- The source positions of the sweeps, in order: three passes over 0 to 31 (R171, R174). -/
def sweepPositions : List Nat := (List.range Config.mixPasses).flatMap fun _ => List.range Config.sourceLen

theorem length_sweepPositions : sweepPositions.length = 96 := by decide

theorem getElem?_sweepPositions {q : Nat} (h : q < 96) : sweepPositions[q]? = some (q % 32) := by
  have hall : ∀ q < 96, sweepPositions[q]? = some (q % 32) := by decide
  exact hall q h

theorem lt_of_mem_sweepPositions {j : Nat} (h : j ∈ sweepPositions) : j < 32 := by
  obtain ⟨_, _, hj⟩ := List.mem_flatMap.mp h
  exact List.mem_range.mp hj

/-- The mixing part gives every position of the sweeps to all members in turn (R171, R181). -/
theorem seqMixing_eq_flatMap (hs : Nat) (members : List Nat) :
    seqMixing hs members = sweepPositions.flatMap fun j => members.map fun m => .step m (laneIndex j hs) j :=
  List.flatMap_assoc.symm

/-- The operations on slots of the dispatch sequence over the given members: all of it but END (R171, R181). -/
def slotOps (hs : Nat) (variant : Word) (members : List Nat) : List Instr :=
  members.flatMap prologueOps ++ seqMixing hs members ++ members.map (finOf variant)

theorem seqOver_eq (hs : Nat) (variant : Word) (members : List Nat) :
    seqOver hs variant members = slotOps hs variant members ++ [.endRun] := rfl

/-- An entry of lists of one length, one for each element, put one after the other. -/
theorem getElem?_flatMap_of_length {α β : Type} {f : α → List β} {c : Nat} (hc : 0 < c) (hf : ∀ a, (f a).length = c)
    (l : List α) (k : Nat) : (l.flatMap f)[k]? = l[k / c]?.bind fun a => (f a)[k % c]? := by
  induction l generalizing k with
  | nil => simp
  | cons a l ih =>
    rw [List.flatMap_cons, List.getElem?_append, hf]
    rcases lt_or_ge k c with hk | hk
    · simp [if_pos hk, Nat.div_eq_of_lt hk, Nat.mod_eq_of_lt hk]
    · rw [if_neg hk.not_gt, ih, Nat.div_eq_sub_div hc hk, ← Nat.mod_eq_sub_mod hk]
      rfl

theorem length_flatMap_of_length {α β : Type} {f : α → List β} {c : Nat} (hf : ∀ a, (f a).length = c) (l : List α) :
    (l.flatMap f).length = l.length * c := by
  simp [List.length_flatMap, hf]

theorem length_prologues (members : List Nat) : (members.flatMap prologueOps).length = 3 * members.length :=
  (length_flatMap_of_length (c := 3) (fun _ => rfl) members).trans (Nat.mul_comm _ _)

theorem length_seqMixing (hs : Nat) (members : List Nat) : (seqMixing hs members).length = 96 * members.length := by
  rw [seqMixing_eq_flatMap, length_flatMap_of_length (fun _ => List.length_map _), length_sweepPositions]

theorem length_slotOps (hs : Nat) (variant : Word) (members : List Nat) :
    (slotOps hs variant members).length = 100 * members.length := by
  rw [slotOps, List.length_append, List.length_append, length_prologues, length_seqMixing, List.length_map]
  omega

section
variable {base n hs k : Nat} {variant : Word} {members : List Nat} (hlen : members.length = n)
  (hmem : ∀ m < n, members[m]? = some (base + m))
include hlen hmem

/-- The mixing part at an index: pass and position turn over after all members (R173, R182). -/
theorem getElem?_seqMixing (h : k < 96 * n) :
    (seqMixing hs members)[k]? = some (.step (base + k % n) (laneIndex (k / n % 32) hs) (k / n % 32)) := by
  have hn : 0 < n := by omega
  rw [seqMixing_eq_flatMap, getElem?_flatMap_of_length hn (fun _ => (List.length_map _).trans hlen),
    getElem?_sweepPositions (Nat.div_lt_of_lt_mul (by omega))]
  simp [hmem _ (Nat.mod_lt k hn)]

/-- The operations on slots, over consecutive members, are those the sequencer has before END (R171, R181, R182). -/
theorem opAt_eq_getElem?_slotOps (hv : variant = 1 ∨ variant = 2) (h : k < 100 * n) :
    opAt base n hs variant k = (slotOps hs variant members)[k]? := by
  have hpro := length_prologues members
  have hmix := length_seqMixing hs members
  rw [hlen] at hpro hmix
  have hboth : (members.flatMap prologueOps ++ seqMixing hs members).length = 99 * n := by
    rw [List.length_append, hpro, hmix]
    omega
  rw [slotOps]
  rcases lt_or_ge k (3 * n) with h3 | h3
  · rw [List.getElem?_append_left (by omega), List.getElem?_append_left (by omega), opAt_of_prologue h3,
      getElem?_flatMap_of_length (c := 3) (by decide) (fun _ => rfl), hmem _ (by omega)]
    rfl
  rcases lt_or_ge k (99 * n) with h99 | h99
  · rw [List.getElem?_append_left (by omega), List.getElem?_append_right (by omega), hpro,
      getElem?_seqMixing hlen hmem (by omega), opAt_of_mixing h3 h99]
  · rw [List.getElem?_append_right (by omega), hboth, List.getElem?_map, hmem _ (by omega), opAt_of_fin h99 h,
      finOp_eq_finOf hv]
    rfl

/-- The sequencer has at every index the operation of the list over consecutive members (R171, R181, R182). -/
theorem opAt_eq_getElem?_seqOver (hv : variant = 1 ∨ variant = 2) :
    opAt base n hs variant k = (seqOver hs variant members)[k]? := by
  have hops : (slotOps hs variant members).length = 100 * n := hlen ▸ length_slotOps hs variant members
  rw [seqOver_eq]
  rcases lt_trichotomy k (100 * n) with h | rfl | h
  · rw [List.getElem?_append_left (by omega)]
    exact opAt_eq_getElem?_slotOps hlen hmem hv h
  · rw [opAt_end, List.getElem?_append_right hops.le, hops, Nat.sub_self]
    rfl
  · rw [opAt_past_end h, List.getElem?_eq_none (by simp [hops]; omega)]

end

/-! ## The sequence of HASH -/

/-- The sequencer has at every index of a single run the operation of `seqSingle` (R171, R182). -/
theorem opAt_eq_getElem?_seqSingle {slot hs : Nat} {variant : Word} (hv : variant = 1 ∨ variant = 2) (k : Nat) :
    opAt slot 1 hs variant k = (seqSingle hs variant slot)[k]? :=
  opAt_eq_getElem?_seqOver rfl (fun _ hm => by simp [Nat.lt_one_iff.mp hm]) hv

/-- Settles O46: the list is the sequencer's, whose operation at each index is that of its phase. -/
theorem singleSequenceIsTheSpecs : Obligations.SingleSequenceIsTheSpecs := by
  intro hs slot variant hv
  have hlen : (seqSingle hs variant slot).length = 101 := by
    rw [seqSingle, seqOver_eq, List.length_append, length_slotOps]
    rfl
  refine ⟨hlen, rfl, rfl, rfl, fun p j hp hj => ?_, ?_, ?_, opAt_eq_getElem?_seqSingle hv⟩
  · have hq : 3 + 32 * p + j - 3 * 1 = 32 * p + j := by omega
    have hpos : (32 * p + j) % 32 = j := by omega
    rw [← opAt_eq_getElem?_seqSingle hv, opAt_of_mixing (by omega) (by omega), hq, Nat.div_one, Nat.mod_one, hpos]
    rfl
  · rw [← opAt_eq_getElem?_seqSingle hv, opAt_of_fin (by decide) (by decide), finOp_eq_finOf hv]
    rfl
  · rw [← opAt_eq_getElem?_seqSingle hv]
    exact opAt_end

/-! ## Acceptance of HASH -/

/-- `HASH` of a slot with a good descriptor is accepted in `STATE` 1 (R170). -/
theorem exec_hash_of_ready {s : State} {slot : Nat} {sl : Slot} (hm : s.mode = .ready) (hsl : s.slots[slot]? = some sl)
    (hd : descOk sl = true) : exec (.hash slot) s = .next (s.acceptRun .single slot 1) := by
  show execHash slot s = _
  simp only [execHash, if_pos hm, hsl, if_pos hd]

/-- Settles O26: the acceptance writes `ERR`, the run registers, `di` and `STATE`. -/
theorem hashIsAccepted : Obligations.HashIsAccepted := by
  intro s slot sl hm hsl hdesc
  rw [exec_hash_of_ready hm hsl (decide_eq_true hdesc), State.acceptRun, errWord_ok]
  rfl

end Sys2Proof.Proofs

/-!
The closed form of the hash (R174, R175): its length, and that the operations a dispatch sequence has for one member, applied to
that member's slot in order, leave its bytes in the digest.
-/
namespace Sys2Proof.Proofs

open Sys2Proof.Machine Sys2Proof.Laws

/-! ## The length of the hash -/

/-- A sweep over any positions keeps the number of lanes. -/
theorem length_foldl_sweepByte (table : Nat → Byte) (mask : Word) (hs : Nat) (src : Digest) (positions : List Nat)
    (al : Word × List Word) : (positions.foldl (sweepByte table mask hs src) al).2.length = al.2.length := by
  induction positions generalizing al with
  | nil => rfl
  | cons j positions ih => exact (ih _).trans List.length_set

theorem length_sweepAll (cfg : HashConfig) (table : Nat → Byte) (src : Digest) :
    (sweepAll cfg table src).2.length = cfg.hashSize.toNat :=
  (length_foldl_sweepByte _ _ _ _ sweepPositions _).trans List.length_replicate

/-- The bytes the finalizer of a variant takes from the accumulator and the lanes (R174, R191, R192). -/
def finalBytes (variant : Word) (al : Word × List Word) : List Byte :=
  if variant = 1 then al.2.map low8 else (finChain al.2 al.1).2

theorem length_finalBytes (variant : Word) (al : Word × List Word) : (finalBytes variant al).length = al.2.length := by
  unfold finalBytes
  split
  · exact List.length_map _
  · exact length_finChain al.2 al.1

theorem lxr_eq_finalBytes (cfg : HashConfig) (table : Nat → Byte) (digest : List Byte → Digest) (message : List Byte) :
    lxr cfg table digest message = finalBytes cfg.variant (sweepAll cfg table (preprocess digest message)) := rfl

/-- Settles O58: a finalizer takes one byte for each lane, and the sweep keeps the `HASHSIZE` lanes it starts from. -/
theorem hashLengthIsHashSize : Obligations.HashLengthIsHashSize := by
  intro cfg table digest message
  rw [lxr_eq_finalBytes, length_finalBytes, length_sweepAll]

/-! ## Operations on one slot in sequence -/

/-- What operations in sequence make of the slot they work on, under the configuration and memories of `s` (R44). -/
def slotRun (s : State) (ops : List Instr) (sl : Slot) : Except Fault Slot := ops.foldlM (fun x i => slotEffect s i x) sl

section
variable {s : State} {sl x : Slot}

theorem slotRun_cons {i : Instr} {ops : List Instr} (h : slotEffect s i sl = .ok x) :
    slotRun s (i :: ops) sl = slotRun s ops x := by
  rw [slotRun, List.foldlM_cons, h]
  rfl

theorem slotRun_append {ops ops' : List Instr} (h : slotRun s ops sl = .ok x) :
    slotRun s (ops ++ ops') sl = slotRun s ops' x := by
  rw [slotRun] at h
  rw [slotRun, List.foldlM_append, h]
  rfl

/-- The first of several operations is defined where all are. -/
theorem slotEffect_of_slotRun_cons {i : Instr} {ops : List Instr} {sl' : Slot} (h : slotRun s (i :: ops) sl = .ok sl') :
    ∃ x, slotEffect s i sl = .ok x ∧ slotRun s ops x = .ok sl' := by
  cases he : slotEffect s i sl with
  | ok x => exact ⟨x, rfl, (slotRun_cons he).symm.trans h⟩
  | error r =>
    rw [slotRun, List.foldlM_cons, he] at h
    cases h

end

/-! ## The prologue -/

/-- The slot a prologue leaves: seed and zero lanes, the message's digest as source, its first bytes folded in (R141 to R143). -/
def prologueSlot (s : State) (sl : Slot) : Slot :=
  fold4Slot { initSlot s.seed s.hashSize.toNat sl with src := preprocess Config.digest (slotMessage s sl) }

theorem slotRun_prologue {s : State} {sl : Slot} (hhs : s.hashSize.toNat ≤ 32) (hd : descOk sl = true) (m : Nat) :
    slotRun s (prologueOps m) sl = .ok (prologueSlot s sl) := by
  have hinit : slotEffect s (.init m) sl = .ok (initSlot s.seed s.hashSize.toNat sl) := if_pos hhs
  have hprep : slotEffect s (.prep m) (initSlot s.seed s.hashSize.toNat sl) =
      .ok { initSlot s.seed s.hashSize.toNat sl with src := preprocess Config.digest (slotMessage s sl) } := if_pos hd
  rw [prologueOps, slotRun_cons hinit, slotRun_cons hprep]
  rfl

/-! ## The sweep -/

/-- What the sweep of the closed form works on: the accumulator and the lanes below `hs` (R174). -/
def sweepView (hs : Nat) (sl : Slot) : Word × List Word := (sl.acc, sl.lanes.toList.take hs)

/-- INIT leaves `hs` lanes of zero to the sweep (R141). -/
theorem take_initSlot_lanes {hs : Nat} (hhs : hs ≤ 32) (seed : Word) (sl : Slot) :
    (initSlot seed hs sl).lanes.toList.take hs = List.replicate hs 0 := by
  refine List.ext_getElem? fun i => ?_
  rw [List.getElem?_take, List.getElem?_replicate, Vector.getElem?_toList]
  split_ifs with hi
  · exact initSlot_lanes_of_lt sl (hi.trans_le hhs) hi
  · rfl

/-- The closed form's sweep goes over the positions of the STEPs, from what the prologue leaves (R174). -/
theorem sweepAll_eq_foldl {s : State} (hhs : s.hashSize.toNat ≤ 32) (sl : Slot) :
    sweepAll s.hashConfig (memRead s.tbl) (prologueSlot s sl).src =
      sweepPositions.foldl (sweepByte (memRead s.tbl) (maskOf s.mapSize) s.hashSize.toNat (prologueSlot s sl).src)
        (sweepView s.hashSize.toNat (prologueSlot s sl)) := by
  have hview : sweepView s.hashSize.toNat (prologueSlot s sl) =
      ((prologueSlot s sl).acc, List.replicate s.hashSize.toNat 0) :=
    congrArg _ (take_initSlot_lanes hhs s.seed sl)
  rw [hview]
  rfl

/-- A STEP does to accumulator and lanes what the closed form does at its position (R157, R173, R174). -/
theorem slotEffect_step {s : State} {pos : Nat} (hfits : tableFits s = true) (hpos : 0 < s.hashSize.toNat)
    (hhs : s.hashSize.toNat ≤ 32) (hp32 : pos < 32) (m : Nat) (sl : Slot) :
    ∃ x, slotEffect s (.step m (laneIndex pos s.hashSize.toNat) pos) sl = .ok x ∧ x.src = sl.src ∧
      sweepView s.hashSize.toNat x = sweepByte (memRead s.tbl) (maskOf s.mapSize) s.hashSize.toNat sl.src
        (sweepView s.hashSize.toNat sl) pos := by
  have hlane : laneIndex pos s.hashSize.toNat < s.hashSize.toNat := Nat.mod_lt pos hpos
  have hl : sl.lanes[laneIndex pos s.hashSize.toNat]? = some sl.lanes[laneIndex pos s.hashSize.toNat] :=
    Vector.getElem?_eq_getElem (hlane.trans_le hhs)
  have hv : sl.src[pos]? = some sl.src[pos] := Vector.getElem?_eq_getElem hp32
  have hlist : (sl.lanes.toList.take s.hashSize.toNat)[pos % s.hashSize.toNat]? =
      some sl.lanes[laneIndex pos s.hashSize.toNat] :=
    (List.getElem?_take_of_lt hlane).trans (Vector.getElem?_toList.trans hl)
  refine ⟨_, mixSlot_of_tableFits hlane hl hv hfits, rfl, ?_⟩
  simp only [sweepView, sweepByte, Vector.toList_setIfInBounds, List.take_set, List.getD_eq_getElem?_getD, hlist, hv,
    Option.getD_some]
  rfl

/-- So do STEPs at several positions. -/
theorem slotRun_steps {s : State} (hfits : tableFits s = true) (hpos : 0 < s.hashSize.toNat)
    (hhs : s.hashSize.toNat ≤ 32) (m : Nat) {positions : List Nat} (h32 : ∀ j ∈ positions, j < 32) (sl : Slot) :
    ∃ x, slotRun s (positions.map fun j => .step m (laneIndex j s.hashSize.toNat) j) sl = .ok x ∧
      sweepView s.hashSize.toNat x = positions.foldl
        (sweepByte (memRead s.tbl) (maskOf s.mapSize) s.hashSize.toNat sl.src) (sweepView s.hashSize.toNat sl) := by
  induction positions generalizing sl with
  | nil => exact ⟨sl, rfl, rfl⟩
  | cons j positions ih =>
    obtain ⟨hj, htail⟩ := List.forall_mem_cons.mp h32
    obtain ⟨y, hy, hsrc, hview⟩ := slotEffect_step hfits hpos hhs hj m sl
    obtain ⟨x, hx, hfold⟩ := ih htail y
    rw [hsrc, hview] at hfold
    exact ⟨x, (slotRun_cons hy).trans hx, hfold⟩

/-! ## The finalizer -/

/-- A digest register holding the given bytes, then zeros (R36). -/
def digestOf (bytes : List Byte) : Digest := Vector.ofFn fun i => bytes.getD i.val 0

theorem toList_digestOf {bytes : List Byte} (h : bytes.length ≤ 32) :
    (digestOf bytes).toList = bytes ++ List.replicate (32 - bytes.length) 0 := by
  refine List.ext_getElem (by simp [h]) fun i hi _ => ?_
  have h32 : i < 32 := by simpa using hi
  rw [List.getElem_append]
  split_ifs with hlt <;> simp [digestOf, hlt]

/-- FIN1 leaves the low bytes of the lanes below `hs` (R191). -/
theorem fin1Digest_eq_digestOf (lanes : Vector Word 32) (hs : Nat) :
    fin1Digest lanes hs = digestOf ((lanes.toList.take hs).map low8) := by
  refine Vector.ext fun i hi => ?_
  by_cases hlt : i < hs <;> simp [fin1Digest, digestOf, List.getElem?_take, hlt]

/-- The finalizer of the variant leaves the closed form's bytes of accumulator and lanes in the digest (R190 to R192). -/
theorem slotEffect_finOf {s : State} (hhs : s.hashSize.toNat ≤ 32) (variant : Word) (m : Nat) (sl : Slot) :
    ∃ x, slotEffect s (finOf variant m) sl = .ok x ∧
      x.dig = digestOf (finalBytes variant (sweepView s.hashSize.toNat sl)) := by
  unfold finOf finalBytes
  split
  · exact ⟨_, if_pos hhs, fin1Digest_eq_digestOf sl.lanes s.hashSize.toNat⟩
  · exact ⟨_, if_pos hhs, rfl⟩

/-! ## All operations of one member -/

/-- The operations of one member: its prologue, a STEP at every position of the sweeps, its finalizer (R171). -/
theorem slotOps_singleton (hs : Nat) (variant : Word) (m : Nat) :
    slotOps hs variant [m] =
      prologueOps m ++ (sweepPositions.map (fun j => .step m (laneIndex j hs) j) ++ [finOf variant m]) := by
  rw [slotOps, seqMixing_eq_flatMap, List.append_assoc, List.map_eq_flatMap]
  rfl

/-- A valid configuration has 1 to 32 lanes and a table the memory can answer for (R62, R124). -/
theorem lanes_and_table_of_configValid {s : State} (h : configValid s = true) :
    0 < s.hashSize.toNat ∧ s.hashSize.toNat ≤ 32 ∧ tableFits s = true := by
  obtain ⟨⟨b, hb⟩, hcap, _, ⟨hlo, hhi⟩, _⟩ := configValid_iff.mp h
  have hne : s.mapSize ≠ 0 := by
    intro hz
    rw [hz] at hb
    exact (Nat.two_pow_pos b).ne hb
  exact ⟨hlo, hhi, tableFits_iff.mpr ⟨hne, hcap⟩⟩

/-- The operations of a member, applied to its slot in order, leave the closed form of the hash of its message in the digest, then
zeros (R174). -/
theorem slotRun_slotOps {s : State} {sl : Slot} (hvalid : configValid s = true) (hd : descOk sl = true) (m : Nat) :
    ∃ sl', slotRun s (slotOps s.hashSize.toNat s.variant [m]) sl = .ok sl' ∧
      sl'.dig.toList = lxr s.hashConfig (memRead s.tbl) Config.digest (slotMessage s sl) ++
        List.replicate (32 - s.hashSize.toNat) 0 := by
  obtain ⟨hpos, hhs, hfits⟩ := lanes_and_table_of_configValid hvalid
  obtain ⟨y, hy, hview⟩ := slotRun_steps hfits hpos hhs m (fun _ => lt_of_mem_sweepPositions) (prologueSlot s sl)
  obtain ⟨x, hx, hdig⟩ := slotEffect_finOf hhs s.variant m y
  have hlxr : lxr s.hashConfig (memRead s.tbl) Config.digest (slotMessage s sl) =
      finalBytes s.variant (sweepView s.hashSize.toNat y) :=
    congrArg (finalBytes s.variant) ((sweepAll_eq_foldl hhs sl).trans hview.symm)
  have hlen : (lxr s.hashConfig (memRead s.tbl) Config.digest (slotMessage s sl)).length = s.hashSize.toNat :=
    hashLengthIsHashSize _ _ _ _
  refine ⟨x, ?_, ?_⟩
  · rw [slotOps_singleton, slotRun_append (slotRun_prologue hhs hd m), slotRun_append hy]
    exact slotRun_cons hx
  · rw [hdig, ← hlxr, toList_digestOf (hlen.trans_le hhs), hlen]

end Sys2Proof.Proofs

/-!
Runs: several steps of the machine, what the operations of a dispatch sequence leave of every slot after their steps (R44, R172),
and the whole run of `HASH` (R170 to R174).
-/
namespace Sys2Proof.Proofs

open Sys2Proof.Machine Sys2Proof.Laws

/-! ## Several steps -/

theorem runSteps_succ {s t : State} (h : step s = .next t) (k : Nat) : runSteps (k + 1) s = runSteps k t := by
  have hcore : Sys2Proof.core.step s = .next t := h
  simp only [runSteps, Host.Core.run, hcore]
  rfl

/-- Several steps that answer begin with one that does. -/
theorem runSteps_succ_next {k : Nat} {s t : State} (h : runSteps (k + 1) s = .next t) :
    ∃ u, step s = .next u ∧ runSteps k u = .next t := by
  cases hs : step s with
  | next u => exact ⟨u, rfl, (runSteps_succ hs k).symm.trans h⟩
  | fault r => simp [runSteps, Host.Core.run, Sys2Proof.core, hs] at h
  | refused r => simp [runSteps, Host.Core.run, Sys2Proof.core, hs] at h

theorem runSteps_add {a : Nat} {s t : State} (h : runSteps a s = .next t) (b : Nat) :
    runSteps (a + b) s = runSteps b t := by
  induction a generalizing s with
  | zero => cases h; rw [Nat.zero_add]
  | succ a ih =>
    obtain ⟨u, hu, hrest⟩ := runSteps_succ_next h
    rw [Nat.add_right_comm, runSteps_succ hu, ih hrest]

/-- In a run, RESETN staying at 1, a step executes the operation at the dispatch index (R172). -/
theorem step_of_dispatchOp {s : State} {i : Instr} (hr : s.resetn = []) (hm : s.mode = .busy) (hop : s.dispatchOp = some i)
    (hk : i.kind = .dispatch) (hwf : i.wellFormed = true) : step s = exec i s := by
  have hword : s.dispatchWord = some (encode i) := congrArg (Option.map encode) hop
  have hdec : decodeDispatch (encode i) = .ok i := decode_eq_ok_iff.mpr ⟨hk, inRow_encode hwf, readOperands_encode hwf⟩
  have hsame : { s with resetn := s.resetn.tail } = s := by cases s; simp_all
  rw [stepRunsTheDecodedInstruction.2 s (encode i) i (by simp [running, hr]) hm hword hdec, hsame]

/-! ## The operations of each slot -/

/-- The operations of a list that work on slot `m`. -/
def opsOn (m : Nat) (ops : List Instr) : List Instr := ops.filter fun i => opSlot i == some m

theorem opsOn_cons_self {i : Instr} {m : Nat} (h : opSlot i = some m) (ops : List Instr) :
    opsOn m (i :: ops) = i :: opsOn m ops :=
  List.filter_cons_of_pos (by simp [h])

theorem opsOn_cons_of_ne {i : Instr} {m k : Nat} (h : opSlot i = some k) (hne : m ≠ k) (ops : List Instr) :
    opsOn m (i :: ops) = opsOn m ops :=
  List.filter_cons_of_neg (by simp [h, hne.symm])

/-- Of operations all on slot `k`, all or none work on slot `m`. -/
theorem opsOn_of_forall {ops : List Instr} {k : Nat} (h : ∀ i ∈ ops, opSlot i = some k) (m : Nat) :
    opsOn m ops = if m = k then ops else [] := by
  split_ifs with hmk
  · exact List.filter_eq_self.mpr fun i hi => by simp [h i hi, hmk]
  · exact List.filter_eq_nil_iff.mpr fun i hi => by simp [h i hi, Ne.symm hmk]

/-- `t` is `s` after operations on slots: `di` has advanced by their number, each slot holds what its own operations make of it, and
nothing else has changed (R24, R44). -/
structure AfterOps (s : State) (ops : List Instr) (t : State) : Prop where
  rest : t = { s with slots := t.slots, di := s.di + BitVec.ofNat 15 ops.length }
  count : nslots t = nslots s
  slots : ∀ m sl, s.slots[m]? = some sl → ∃ sl', t.slots[m]? = some sl' ∧ slotRun s (opsOn m ops) sl = .ok sl'

theorem afterOps_nil (s : State) : AfterOps s [] s where
  rest := by simp
  count := rfl
  slots _ sl hsl := ⟨sl, hsl, rfl⟩

/-- A slot without operations is as before. -/
theorem AfterOps.slot_of_opsOn_nil {s t : State} {ops : List Instr} {m : Nat} (h : AfterOps s ops t)
    (hnil : opsOn m ops = []) : t.slots[m]? = s.slots[m]? := by
  cases hsl : s.slots[m]? with
  | none => exact List.getElem?_eq_none (h.count.trans_le (List.getElem?_eq_none_iff.mp hsl))
  | some sl =>
    obtain ⟨sl', hsl', hrun⟩ := h.slots m sl hsl
    rw [hnil] at hrun
    cases hrun
    exact hsl'

/-- The next operation of the run is the one at the advanced dispatch index (R24, R182). -/
theorem AfterOps.dispatchOp_eq {s t : State} {ops : List Instr} (h : AfterOps s ops t) :
    t.dispatchOp =
      opAt s.firstSlot s.members s.hashSize.toNat s.variant (s.di + BitVec.ofNat 15 ops.length).toNat := by
  rw [h.rest]
  rfl

/-- An operation on a slot changes nothing that the effects of operations read outside their slot. -/
theorem slotRun_putSlot_advance (s : State) (m : Nat) (x : Slot) (ops : List Instr) (sl : Slot) :
    slotRun (s.putSlot m x).advance ops sl = slotRun s ops sl := by
  have heffect : slotEffect (s.putSlot m x).advance = slotEffect s :=
    funext fun i => funext fun y => slotEffect_congr rfl rfl rfl rfl rfl rfl i y
  rw [slotRun, slotRun, heffect]

section
variable {s : State} {i : Instr} {m : Nat} {sl x : Slot} {ops : List Instr} (hslot : opSlot i = some m)
  (hsl : s.slots[m]? = some sl) (hx : slotEffect s i sl = .ok x)
include hslot hsl hx

/-- An operation and more after it: what all make of each slot is what the later make of it after the first. -/
theorem slotRun_opsOn_cons {k : Nat} {y : Slot} (hy : (s.putSlot m x).advance.slots[k]? = some y) :
    ∃ z, s.slots[k]? = some z ∧ slotRun s (opsOn k (i :: ops)) z = slotRun (s.putSlot m x).advance (opsOn k ops) y := by
  rw [getElem?_putSlot_advance hsl] at hy
  rw [slotRun_putSlot_advance]
  split_ifs at hy with hk
  · cases hy
    subst hk
    exact ⟨sl, hsl, by rw [opsOn_cons_self hslot, slotRun_cons hx]⟩
  · exact ⟨y, hy, by rw [opsOn_cons_of_ne hslot hk]⟩

theorem afterOps_cons {t : State} (h : AfterOps (s.putSlot m x).advance ops t) : AfterOps s (i :: ops) t where
  rest := by
    have hdi : s.di + 1 + BitVec.ofNat 15 ops.length = s.di + BitVec.ofNat 15 (ops.length + 1) := by
      rw [Nat.add_comm ops.length, BitVec.ofNat_add, ← BitVec.add_assoc]
      rfl
    rw [List.length_cons, ← hdi]
    exact h.rest
  count := h.count.trans (nslots_putSlot s m x)
  slots k z hz := by
    have hlt : k < nslots (s.putSlot m x) := (nslots_putSlot s m x).symm ▸ lt_nslots_of_getElem? hz
    obtain ⟨y, hy⟩ := exists_slot (s := (s.putSlot m x).advance) hlt
    obtain ⟨z', hz', hrun⟩ := slotRun_opsOn_cons (ops := ops) hslot hsl hx hy
    obtain rfl : z = z' := Option.some.inj (hz.symm.trans hz')
    rw [hrun]
    exact h.slots k y hy

end

/-- The steps of a run, as long as they are operations on slots that are defined there, do to each slot what its own operations do
(R44, R172). -/
theorem runSteps_ops {s : State} {ops : List Instr} (hr : s.resetn = []) (hm : s.mode = .busy) (hmax : nslots s ≤ 256)
    (hfit : s.firstSlot + s.members ≤ nslots s) (hlt : s.di.toNat + ops.length ≤ 100 * s.members)
    (hops : ∀ k < ops.length,
      opAt s.firstSlot s.members s.hashSize.toNat s.variant (s.di.toNat + k) = ops[k]?)
    (hrun : ∀ m sl, s.slots[m]? = some sl → ∃ sl', slotRun s (opsOn m ops) sl = .ok sl') :
    ∃ t, runSteps ops.length s = .next t ∧ AfterOps s ops t := by
  induction ops generalizing s with
  | nil => exact ⟨s, rfl, afterOps_nil s⟩
  | cons i ops ih =>
    rw [List.length_cons] at hlt
    have hop : s.dispatchOp = some i := hops 0 (by simp)
    obtain ⟨k, hk, hi⟩ := memberOp_of_opAt (by omega) hop
    obtain ⟨sl, hsl⟩ := exists_slot (show s.firstSlot + k < nslots s by omega)
    obtain ⟨sl', hsl'⟩ := hrun _ sl hsl
    rw [opsOn_cons_self hi.opSlot_eq] at hsl'
    obtain ⟨x, hx, _⟩ := slotEffect_of_slotRun_cons hsl'
    have hstep : step s = .next (s.putSlot (s.firstSlot + k) x).advance := by
      rw [step_of_dispatchOp hr hm hop hi.kind_eq (hi.wellFormed (by omega)), exec_eq_onSlot hi.opSlot_eq]
      exact onSlot_next.mpr ⟨sl, x, hsl, hx, rfl⟩
    have hdi : (s.di + 1).toNat = s.di.toNat + 1 := BitVec.toNat_add_of_lt (show s.di.toNat + 1 < 2 ^ 15 by omega)
    have hops' (j : Nat) (hj : j < ops.length) :
        opAt s.firstSlot s.members s.hashSize.toNat s.variant ((s.di + 1).toNat + j) = ops[j]? := by
      rw [hdi, Nat.add_right_comm]
      exact hops (j + 1) (by simpa using hj)
    have hrun' (m : Nat) (y : Slot) (hy : (s.putSlot (s.firstSlot + k) x).advance.slots[m]? = some y) :
        ∃ y', slotRun (s.putSlot (s.firstSlot + k) x).advance (opsOn m ops) y = .ok y' := by
      obtain ⟨z, hz, heq⟩ := slotRun_opsOn_cons (ops := ops) hi.opSlot_eq hsl hx hy
      exact heq ▸ hrun m z hz
    obtain ⟨t, ht, hafter⟩ := ih (s := (s.putSlot (s.firstSlot + k) x).advance) hr hm
      ((nslots_putSlot s _ x).trans_le hmax) (hfit.trans_eq (nslots_putSlot s _ x).symm)
      (show (s.di + 1).toNat + ops.length ≤ 100 * s.members by omega) hops' hrun'
    exact ⟨t, (runSteps_succ hstep _).trans ht, afterOps_cons hi.opSlot_eq hsl hx hafter⟩

/-- A run from its acceptance, over consecutive members: the operations on slots, then END (R171, R172, R181). -/
theorem runSteps_acceptedRun {s : State} {members : List Nat} (hr : s.resetn = []) (hm : s.mode = .busy) (hdi : s.di = 0)
    (hv : s.variant = 1 ∨ s.variant = 2) (hmax : nslots s ≤ 256) (hfit : s.firstSlot + s.members ≤ nslots s)
    (hlen : members.length = s.members) (hmem : ∀ m < s.members, members[m]? = some (s.firstSlot + m))
    (hrun : ∀ m sl, s.slots[m]? = some sl →
      ∃ sl', slotRun s (opsOn m (slotOps s.hashSize.toNat s.variant members)) sl = .ok sl') :
    ∃ t, runSteps (100 * s.members + 1) s = .next t.finishRun ∧
      AfterOps s (slotOps s.hashSize.toNat s.variant members) t := by
  have hops := length_slotOps s.hashSize.toNat s.variant members
  rw [hlen] at hops
  have hzero : s.di.toNat = 0 := by rw [hdi]; rfl
  obtain ⟨t, ht, hafter⟩ := runSteps_ops hr hm hmax hfit (by omega)
    (fun k hk => by rw [hzero, Nat.zero_add]; exact opAt_eq_getElem?_slotOps hlen hmem hv (by omega)) hrun
  rw [hops] at ht
  have hend : t.dispatchOp = some .endRun := by
    have hindex : (s.di + BitVec.ofNat 15 (100 * s.members)).toNat = 100 * s.members := by
      rw [BitVec.toNat_add, hzero, BitVec.toNat_ofNat]
      omega
    rw [hafter.dispatchOp_eq, hops, hindex, opAt_end]
  have hstep : step t = .next t.finishRun :=
    step_of_dispatchOp (by rw [hafter.rest]; exact hr) (by rw [hafter.rest]; exact hm) hend rfl rfl
  exact ⟨t, (runSteps_add ht 1).trans (runSteps_succ hstep 0), hafter⟩

/-! ## The run of HASH -/

/-- All operations of a member's sequence but END work on its slot (R44). -/
theorem opSlot_of_mem_slotOps {hs m : Nat} {variant : Word} {i : Instr} (h : i ∈ slotOps hs variant [m]) :
    opSlot i = some m := by
  rw [slotOps_singleton, List.mem_append, List.mem_append] at h
  rcases h with h | h | h
  · simp only [prologueOps, List.mem_cons, List.not_mem_nil, or_false] at h
    rcases h with rfl | rfl | rfl <;> rfl
  · obtain ⟨_, _, rfl⟩ := List.mem_map.mp h
    rfl
  · rw [List.mem_singleton.mp h, finOf]
    split <;> rfl

/-- A member's operations work on its slot and on no other (R44). -/
theorem opsOn_slotOps_singleton (hs k m : Nat) (variant : Word) :
    opsOn m (slotOps hs variant [k]) = if m = k then slotOps hs variant [k] else [] :=
  opsOn_of_forall (fun _ => opSlot_of_mem_slotOps) m

/-- The command word of `HASH slot`, written out (R91, R92). -/
theorem decodeCommand_hash {slot : Nat} (h : slot < 256) :
    decodeCommand ((BitVec.ofNat 64 (0x10000000 + slot)).extractLsb' 0 32) = .ok (.hash slot) := by
  refine decodeCommand_eq_ok_iff.mpr ⟨decide_eq_true h, rfl, BitVec.eq_of_toNat_eq ?_⟩
  rw [encode, toNat_formatC (by decide) (by omega), BitVec.extractLsb'_toNat, BitVec.toNat_ofNat]
  omega

/-- The run of an accepted `HASH slot` leaves the closed form in the slot's digest and every other slot as it was (R172, R174). -/
theorem runSteps_acceptedHash {s : State} {slot : Nat} {sl : Slot} (hr : s.resetn = []) (hvalid : configValid s = true)
    (hmax : nslots s ≤ 256) (hsl : s.slots[slot]? = some sl) (hd : descOk sl = true) :
    ∃ (t : State) (sl' : Slot), runSteps 101 (s.acceptRun .single slot 1) = .next t.finishRun ∧
      AfterOps (s.acceptRun .single slot 1) (slotOps s.hashSize.toNat s.variant [slot]) t ∧ t.slots[slot]? = some sl' ∧
      sl'.dig.toList = lxr s.hashConfig (memRead s.tbl) Config.digest (slotMessage s sl) ++
        List.replicate (32 - s.hashSize.toNat) 0 ∧
      ∀ m, m ≠ slot → t.slots[m]? = s.slots[m]? := by
  have hlt : slot < nslots s := lt_nslots_of_getElem? hsl
  have hfirst : (s.acceptRun .single slot 1).firstSlot = slot := Nat.mod_eq_of_lt (by omega : slot < 2 ^ 8)
  obtain ⟨_, _, _, _, hvariant, _⟩ := configValid_iff.mp hvalid
  obtain ⟨x, hx, hdig⟩ := slotRun_slotOps (s := s.acceptRun .single slot 1) hvalid hd slot
  have hrun (m : Nat) (y : Slot) (hy : s.slots[m]? = some y) :
      ∃ y', slotRun (s.acceptRun .single slot 1) (opsOn m (slotOps s.hashSize.toNat s.variant [slot])) y = .ok y' := by
    rw [opsOn_slotOps_singleton]
    split_ifs with hm
    · obtain rfl : sl = y := Option.some.inj (hsl.symm.trans (hm ▸ hy))
      exact ⟨x, hx⟩
    · exact ⟨y, rfl⟩
  have hmember (m : Nat) (hm : m < 1) : [slot][m]? = some ((s.acceptRun .single slot 1).firstSlot + m) := by
    simp [hfirst, Nat.lt_one_iff.mp hm]
  obtain ⟨t, ht, hafter⟩ := runSteps_acceptedRun (s := s.acceptRun .single slot 1) hr rfl rfl hvariant hmax
    (hfirst.symm ▸ hlt) rfl hmember hrun
  obtain ⟨sl', hsl', hown⟩ := hafter.slots slot sl hsl
  rw [opsOn_slotOps_singleton, if_pos rfl] at hown
  obtain rfl : x = sl' := Except.ok.inj (hx.symm.trans hown)
  refine ⟨t, x, ht, hafter, hsl', hdig, fun m hm => hafter.slot_of_opsOn_nil ?_⟩
  rw [opsOn_slotOps_singleton, if_neg hm]

/-- Settles O55: the step that accepts the command, the operations of the run, all on the one slot, which leave the closed form
there, and END. -/
theorem hashRunGivesTheClosedForm : Obligations.HashRunGivesTheClosedForm := by
  intro s slot sl rest hr hm hvalid hmax hsl hdesc hin
  have hd : descOk sl = true := decide_eq_true hdesc
  have hslot : slot < 256 := (lt_nslots_of_getElem? hsl).trans_le hmax
  have haccept : step s = .next ((afterTaking s rest).acceptRun .single slot 1) := by
    rw [stepRunsTheDecodedInstruction.1 s _ rest _ (by simp [running, hr]) (by simp [hm]) hin (decodeCommand_hash hslot)]
    exact exec_hash_of_ready (s := afterTaking s rest) hm hsl hd
  obtain ⟨t, sl', ht, hafter, hsl', hdig, hothers⟩ :=
    runSteps_acceptedHash (s := afterTaking s rest) (congrArg List.tail hr) hvalid hmax hsl hd
  refine ⟨t.finishRun, sl', (runSteps_succ haccept 101).trans ht, hsl', hdig, hothers, rfl, ?_, rfl, ?_, ?_⟩
  · rw [hafter.rest]; exact errWord_ok
  · rw [hafter.rest]; rfl
  · rw [hafter.rest]; rfl

end Sys2Proof.Proofs

/-!
The dispatch sequence of BATCH (R181, R182): the operation at each index that the rule writes out, the list and the counter form
(R183) that produce it, and the acceptance of `BATCH` (R180, R186).
-/
namespace Sys2Proof.Proofs

open Sys2Proof.Machine Sys2Proof.Laws

/-! ## The operation at an index written out -/

section
variable {base n hs : Nat} {variant : Word}

/-- The prologue of member `m` stands at `3 m` and the two indices after it (R181). -/
theorem opAt_prologue {m r : Nat} (hm : m < n) (hr : r < 3) :
    opAt base n hs variant (3 * m + r) = (prologueOps (base + m))[r]? := by
  have hdiv : (3 * m + r) / 3 = m := by omega
  have hmod : (3 * m + r) % 3 = r := by omega
  rw [opAt_of_prologue (by omega), hdiv, hmod]

/-- STEP of member `m` at position `j` of pass `p` stands at `3 n + (32 p + j) n + m` (R181, R182). -/
theorem opAt_mixing {p j m : Nat} (hp : p < 3) (hj : j < 32) (hm : m < n) :
    opAt base n hs variant (3 * n + (32 * p + j) * n + m) = some (.step (base + m) (laneIndex j hs) j) := by
  have hn : 0 < n := by omega
  have hq : (32 * p + j + 1) * n ≤ 96 * n := Nat.mul_le_mul_right n (by omega)
  have hindex : 3 * n + (32 * p + j) * n + m - 3 * n = m + n * (32 * p + j) := by
    rw [Nat.mul_comm n]
    omega
  have hpos : (32 * p + j) % 32 = j := by omega
  rw [Nat.succ_mul] at hq
  rw [opAt_of_mixing (by omega) (by omega), hindex, Nat.add_mul_mod_self_left, Nat.mod_eq_of_lt hm,
    Nat.add_mul_div_left m _ hn, Nat.div_eq_of_lt hm, Nat.zero_add, hpos]

/-- The finalizer of member `m` stands at `99 n + m` (R181). -/
theorem opAt_fin {m : Nat} (hm : m < n) : opAt base n hs variant (99 * n + m) = finOp variant (base + m) := by
  rw [opAt_of_fin (by omega) (by omega), Nat.add_sub_cancel_left]

end

/-! ## The sequence as a list -/

/-- The sequencer has at every index of a batch run the operation of `seqBatch` (R181, R182). -/
theorem opAt_eq_getElem?_seqBatch {n hs : Nat} {variant : Word} (hv : variant = 1 ∨ variant = 2) (k : Nat) :
    opAt 0 n hs variant k = (seqBatch hs variant n)[k]? :=
  opAt_eq_getElem?_seqOver List.length_range (fun m hm => by rw [List.getElem?_range hm, Nat.zero_add]) hv

/-- Settles O47: the list is the sequencer's, whose operation at each index is that of its phase. -/
theorem batchSequenceIsTheSpecs : Obligations.BatchSequenceIsTheSpecs := by
  refine ⟨fun hs n variant hv => ?_, fun hs variant => ⟨rfl, rfl⟩⟩
  have hlen : (seqBatch hs variant n).length = 100 * n + 1 := by
    rw [seqBatch, seqOver_eq, List.length_append, length_slotOps, List.length_range]
    rfl
  refine ⟨hlen, fun m hm => ?_, fun p j m hp hj hm => ?_, fun m hm => ?_, ?_, opAt_eq_getElem?_seqBatch hv⟩ <;>
    simp only [← opAt_eq_getElem?_seqBatch hv]
  · have hpro (r : Nat) (hr : r < 3) : opAt 0 n hs variant (3 * m + r) = (prologueOps m)[r]? := by
      rw [opAt_prologue hm hr, Nat.zero_add]
    exact ⟨hpro 0 (by decide), hpro 1 (by decide), hpro 2 (by decide)⟩
  · rw [opAt_mixing hp hj hm, Nat.zero_add]
    rfl
  · rw [opAt_fin hm, finOp_eq_finOf hv, Nat.zero_add]
    rfl
  · exact opAt_end

/-! ## The counter form -/

/-- The counters that stand at index `k` of a run over `n` members (R181, R183). -/
inductive CountersAt (n k : Nat) : Counters → Prop
  | pro {r mi : Nat} (r_lt : r < 3) (mi_lt : mi < n) (index : k = 3 * mi + r) :
      CountersAt n k { ph := .pro, k := r, p := 0, j := 0, mi := mi }
  | mixing {p j mi : Nat} (p_lt : p < 3) (j_lt : j < 32) (mi_lt : mi < n) (index : k = 3 * n + (32 * p + j) * n + mi) :
      CountersAt n k { ph := .mixing, k := 0, p := p, j := j, mi := mi }
  | fin {mi : Nat} (mi_lt : mi < n) (index : k = 99 * n + mi) :
      CountersAt n k { ph := .fin, k := 0, p := 0, j := 0, mi := mi }
  | stop (index : k = 100 * n) : CountersAt n k { ph := .stop, k := 0, p := 0, j := 0, mi := 0 }

/-- At acceptance the counters stand at index 0. -/
theorem countersAt_zero (n : Nat) : CountersAt n 0 (countersAt n) := by
  unfold countersAt
  split_ifs with hn
  · exact .pro (by decide) hn rfl
  · exact .stop (by omega)

/-- An operation before END moves the counters on by one index. -/
theorem countersAt_next {n k : Nat} {c : Counters} (h : CountersAt n k c) (hk : k < 100 * n) :
    CountersAt n (k + 1) (counterNext n c) := by
  cases h with
  | @pro r mi hr hmi index =>
    simp only [counterNext]
    split_ifs with hlast hmember
    · exact .mixing (by decide) (by decide) (by omega) (by omega)
    · exact .pro (by decide) (by omega) (by omega)
    · exact .pro (by omega) hmi (by omega)
  | @mixing p j mi hp hj hmi index =>
    simp only [counterNext]
    split_ifs with hmember hpos hpass
    · obtain rfl : p = 2 := by omega
      obtain rfl : j = 31 := by omega
      exact .fin (by omega) (by omega)
    · refine .mixing (by omega) (by decide) (by omega) ?_
      rw [index, ← hmember, show j = 31 by omega]
      ring
    · refine .mixing hp (by omega) (by omega) ?_
      rw [index, ← hmember]
      ring
    · exact .mixing hp hj (by omega) (by omega)
  | @fin mi hmi index =>
    simp only [counterNext]
    split_ifs with hmember
    · exact .stop (by omega)
    · exact .fin (by omega) (by omega)
  | stop index => omega

/-- After `k` operations the counters stand at index `k`. -/
theorem countersAt_countersAfter {n k : Nat} (hk : k ≤ 100 * n) : CountersAt n k (countersAfter n k) := by
  induction k with
  | zero => exact countersAt_zero n
  | succ k ih => exact countersAt_next (ih (by omega)) hk

/-- Counters that stand at an index select the operation the sequencer has there (R182, R183). -/
theorem counterOp_of_countersAt {n k : Nat} {c : Counters} (h : CountersAt n k c) (base hs : Nat) (variant : Word) :
    counterOp base hs variant c = opAt base n hs variant k := by
  cases h with
  | @pro r mi hr hmi index =>
    rw [index, opAt_prologue hmi hr]
    match r, hr with
    | 0, _ => rfl
    | 1, _ => rfl
    | 2, _ => rfl
  | mixing hp hj hmi index => rw [index, opAt_mixing hp hj hmi]; rfl
  | fin hmi index => rw [index, opAt_fin hmi]; rfl
  | stop index => rw [index, opAt_end]; rfl

/-- Settles O48: every operation moves the counters on to the next index, and they select the operation of theirs. -/
theorem countersProduceTheSequence : Obligations.CountersProduceTheSequence :=
  fun base _ hs _ variant hk => counterOp_of_countersAt (countersAt_countersAfter hk) base hs variant

/-! ## Acceptance of BATCH -/

/-- The descriptor check of `BATCH` looks at the slots below the count (R180). -/
theorem all_descOk_take_iff {slots : List Slot} {n : Nat} :
    (slots.take n).all descOk = true ↔ ∀ m sl, m < n → slots[m]? = some sl → descOk sl = true := by
  simp only [List.all_eq_true, List.mem_iff_getElem?, List.getElem?_take, Option.ite_none_right_eq_some]
  exact ⟨fun h m sl hm hsl => h sl ⟨m, hm, hsl⟩, fun h sl ⟨m, hm, hsl⟩ => h m sl hm hsl⟩

/-- `BATCH` of slots with good descriptors is accepted in `STATE` 1 (R180). -/
theorem exec_batch_of_ready {s : State} {n : Nat} (hm : s.mode = .ready) (hle : n ≤ nslots s)
    (hd : ∀ m sl, m < n → s.slots[m]? = some sl → descOk sl = true) :
    exec (.batch n) s = .next (s.acceptRun .batch 0 n) := by
  show execBatch n s = _
  rw [execBatch, if_pos hm, if_pos hle, if_pos (all_descOk_take_iff.mpr hd)]

/-- Settles O27: the acceptance writes `ERR`, the run registers, `di` and `STATE`. -/
theorem batchIsAccepted : Obligations.BatchIsAccepted := by
  intro s n hm hle hdesc
  rw [exec_batch_of_ready hm hle fun m sl hmn hsl => decide_eq_true (hdesc m sl hmn hsl), State.acceptRun, errWord_ok]
  rfl

end Sys2Proof.Proofs

/-!
The run of `BATCH` (R180 to R185): its operations interleave the members, each of which gets those of a run of its own, so every
digest is that of `HASH`.
-/
namespace Sys2Proof.Proofs

open Sys2Proof.Machine Sys2Proof.Laws

/-! ## The operations of each member -/

/-- Of the same operation for each member, those on slot `m` are the ones for the members that are `m`. -/
theorem opsOn_map {f : Nat → Instr} (hf : ∀ k, opSlot (f k) = some k) (m : Nat) (members : List Nat) :
    opsOn m (members.map f) = (members.filter (· == m)).map f := by
  have hslot : (fun i => opSlot i == some m) ∘ f = (· == m) := funext fun k => by simp [hf]
  rw [opsOn, List.filter_map, hslot]

/-- So it is with several operations for each member. -/
theorem opsOn_flatMap {f : Nat → List Instr} (hf : ∀ k, ∀ i ∈ f k, opSlot i = some k) (m : Nat) (members : List Nat) :
    opsOn m (members.flatMap f) = (members.filter (· == m)).flatMap f := by
  induction members with
  | nil => rfl
  | cons k members ih =>
    have hsplit : opsOn m (f k ++ members.flatMap f) = opsOn m (f k) ++ opsOn m (members.flatMap f) :=
      List.filter_append _ _
    rw [List.flatMap_cons, hsplit, opsOn_of_forall (hf k) m, ih]
    by_cases hk : k = m
    · simp [hk]
    · simp [hk, Ne.symm hk]

theorem opSlot_of_mem_prologueOps {m : Nat} {i : Instr} (h : i ∈ prologueOps m) : opSlot i = some m := by
  simp only [prologueOps, List.mem_cons, List.not_mem_nil, or_false] at h
  rcases h with rfl | rfl | rfl <;> rfl

theorem opSlot_finOf (variant : Word) (m : Nat) : opSlot (finOf variant m) = some m := by
  unfold finOf
  split <;> rfl

/-- In the mixing part, at each position of the sweeps (R181). -/
theorem opsOn_seqMixing (hs m : Nat) (members : List Nat) :
    opsOn m (seqMixing hs members) = seqMixing hs (members.filter (· == m)) := by
  rw [seqMixing_eq_flatMap, seqMixing_eq_flatMap, opsOn, List.filter_flatMap]
  exact congrArg (sweepPositions.flatMap ·) (funext fun _ => opsOn_map (fun _ => rfl) m members)

/-- Of a dispatch sequence, the operations on slot `m` are, in their order, the sequence over the members that are `m`: the
members interleave and do not mix (R181, R185). -/
theorem opsOn_slotOps (hs : Nat) (variant : Word) (m : Nat) (members : List Nat) :
    opsOn m (slotOps hs variant members) = slotOps hs variant (members.filter (· == m)) := by
  have hpro := opsOn_flatMap (f := prologueOps) (fun _ _ => opSlot_of_mem_prologueOps) m members
  have hmix := opsOn_seqMixing hs m members
  have hfin := opsOn_map (opSlot_finOf variant) m members
  rw [opsOn] at hpro hmix hfin ⊢
  rw [slotOps, List.filter_append, List.filter_append, hpro, hmix, hfin, slotOps]

/-- Of the sequence of `BATCH n`, a member has the operations of a sequence of its own, and no other slot has any (R185). -/
theorem opsOn_slotOps_range (hs n m : Nat) (variant : Word) :
    opsOn m (slotOps hs variant (List.range n)) = if m < n then slotOps hs variant [m] else [] := by
  rw [opsOn_slotOps, List.filter_beq, List.count_range]
  split_ifs <;> rfl

/-! ## The run of BATCH -/

/-- The command word of `BATCH n`, written out (R91, R92). -/
theorem decodeCommand_batch {n : Nat} (h : n < 65536) :
    decodeCommand ((BitVec.ofNat 64 (0x11000000 + n)).extractLsb' 0 32) = .ok (.batch n) := by
  refine decodeCommand_eq_ok_iff.mpr ⟨decide_eq_true h, rfl, BitVec.eq_of_toNat_eq ?_⟩
  rw [encode, toNat_formatC (by decide) (by omega), BitVec.extractLsb'_toNat, BitVec.toNat_ofNat]
  omega

/-- The run of an accepted `BATCH n` leaves the closed form in every member's digest and every slot from `n` up as it was
(R174, R185). -/
theorem runSteps_acceptedBatch {s : State} {n : Nat} (hr : s.resetn = []) (hvalid : configValid s = true)
    (hmax : nslots s ≤ 256) (hle : n ≤ nslots s) (hd : ∀ m sl, m < n → s.slots[m]? = some sl → descOk sl = true) :
    ∃ t : State, runSteps (100 * n + 1) (s.acceptRun .batch 0 n) = .next t.finishRun ∧
      AfterOps (s.acceptRun .batch 0 n) (slotOps s.hashSize.toNat s.variant (List.range n)) t ∧
      (∀ m sl, m < n → s.slots[m]? = some sl → ∃ sl', t.slots[m]? = some sl' ∧
        sl'.dig.toList = lxr s.hashConfig (memRead s.tbl) Config.digest (slotMessage s sl) ++
          List.replicate (32 - s.hashSize.toNat) 0) ∧
      ∀ m, n ≤ m → t.slots[m]? = s.slots[m]? := by
  have hmembers : (s.acceptRun .batch 0 n).members = n := Nat.mod_eq_of_lt (by omega : n < 2 ^ 9)
  obtain ⟨_, _, _, _, hvariant, _⟩ := configValid_iff.mp hvalid
  have hmember (m : Nat) (sl : Slot) (hm : m < n) (hsl : s.slots[m]? = some sl) :=
    slotRun_slotOps (s := s.acceptRun .batch 0 n) hvalid (hd m sl hm hsl) m
  have hrun (m : Nat) (sl : Slot) (hsl : s.slots[m]? = some sl) :
      ∃ sl', slotRun (s.acceptRun .batch 0 n)
        (opsOn m (slotOps s.hashSize.toNat s.variant (List.range n))) sl = .ok sl' := by
    rw [opsOn_slotOps_range]
    split_ifs with hm
    · exact (hmember m sl hm hsl).imp fun _ h => h.1
    · exact ⟨sl, rfl⟩
  obtain ⟨t, ht, hafter⟩ := runSteps_acceptedRun (s := s.acceptRun .batch 0 n) (members := List.range n) hr rfl rfl
    hvariant hmax (by rw [hmembers]; exact (Nat.zero_add n).trans_le hle) (List.length_range.trans hmembers.symm)
    (fun m hm => by rw [List.getElem?_range (hmembers ▸ hm)]; exact congrArg some (Nat.zero_add m).symm) hrun
  rw [hmembers] at ht
  refine ⟨t, ht, hafter, fun m sl hm hsl => ?_, fun m hm => hafter.slot_of_opsOn_nil ?_⟩
  · obtain ⟨x, hx, hdig⟩ := hmember m sl hm hsl
    obtain ⟨sl', hsl', hown⟩ := hafter.slots m sl hsl
    rw [opsOn_slotOps_range, if_pos hm] at hown
    obtain rfl : x = sl' := Except.ok.inj (hx.symm.trans hown)
    exact ⟨x, hsl', hdig⟩
  · rw [opsOn_slotOps_range, if_neg hm.not_gt]

/-- Settles O56: the step that accepts the command, the operations of the run, of which every member has its own sequence, and
END. -/
theorem batchRunGivesTheClosedForm : Obligations.BatchRunGivesTheClosedForm := by
  intro s n rest hr hm hvalid hmax hle hdesc hin
  have hd (m : Nat) (sl : Slot) (hmn : m < n) (hsl : s.slots[m]? = some sl) : descOk sl = true :=
    decide_eq_true (hdesc m sl hmn hsl)
  have haccept : step s = .next ((afterTaking s rest).acceptRun .batch 0 n) := by
    rw [stepRunsTheDecodedInstruction.1 s _ rest _ (by simp [running, hr]) (by simp [hm]) hin
      (decodeCommand_batch (by omega))]
    exact exec_batch_of_ready (s := afterTaking s rest) hm hle hd
  obtain ⟨t, ht, hafter, hdigests, hothers⟩ :=
    runSteps_acceptedBatch (s := afterTaking s rest) (congrArg List.tail hr) hvalid hmax hle hd
  refine ⟨t.finishRun, (runSteps_succ haccept (100 * n + 1)).trans ht, hdigests, hothers, rfl, ?_, rfl, ?_⟩
  · rw [hafter.rest]; exact errWord_ok
  · rw [hafter.rest]; rfl

/-- Settles O57: both runs leave the closed form of the hash of the one message. -/
theorem batchEqualsSingle : Obligations.BatchEqualsSingle := by
  rintro s sb sh n m hr hm hvalid hmax hle hmn hdesc rfl rfl
  obtain ⟨sl, hsl⟩ := exists_slot (hmn.trans_le hle)
  obtain ⟨tb, htb, hdigests, _⟩ :=
    batchRunGivesTheClosedForm { s with inputs := [.write 0x002 (BitVec.ofNat 64 (0x11000000 + n))] } n [] hr hm hvalid
      hmax hle hdesc rfl
  obtain ⟨th, y, hth, hy, hsingle, _⟩ :=
    hashRunGivesTheClosedForm { s with inputs := [.write 0x002 (BitVec.ofNat 64 (0x10000000 + m))] } m sl [] hr hm
      hvalid hmax hsl (hdesc m sl hmn hsl) rfl
  obtain ⟨x, hx, hbatch⟩ := hdigests m sl hmn hsl
  exact ⟨tb, th, x, y, htb, hth, hx, hy, Vector.toList_inj.mp (hbatch.trans hsingle.symm)⟩

end Sys2Proof.Proofs

/-!
The finalizers `FIN1` (R191) and `FIN2` (R192), what a digest byte depends on under each (R194), and `END` (R193).
-/
namespace Sys2Proof.Proofs

open Sys2Proof.Machine Sys2Proof.Laws

/-! ## The words of the finalizers -/

/-- A dispatch word of format U with its slot as only operand, written as a number, decodes to its instruction (R100, R101). -/
theorem decodeDispatch_slotWord {i : Instr} {uop m : Nat} (hk : i.kind = .dispatch) (hwf : i.wellFormed = true)
    (hword : encode i = formatU uop m 0 0) (hu : uop < 16) (hm : m < 256) :
    decodeDispatch (BitVec.ofNat 32 (2 ^ 28 * uop + 2 ^ 20 * m)) = .ok i := by
  have hdecode : decode i.kind (encode i) = .ok i := decodeOfEncodeIsTheInstruction i hwf
  rw [hk, hword, formatU_eq_ofNat hu hm (by decide) (by decide)] at hdecode
  exact hdecode

/-! ## The bytes of the digest -/

/-- `low8` is the spec's bits 7:0 (R12). -/
theorem low8_eq_extractLsb' (x : Word) : low8 x = x.extractLsb' 0 8 := BitVec.setWidth_eq_extractLsb' (by decide)

/-- A digest byte of FIN1 below the number of lanes is the low byte of its lane (R191). -/
theorem getElem?_fin1Digest {lanes : Vector Word 32} {hs i : Nat} (hi : i < hs) :
    (fin1Digest lanes hs)[i]? = lanes[i]?.map low8 := by
  by_cases h32 : i < 32
  · simp [fin1Digest, h32, hi]
  · simp [h32]

/-- The byte FIN2's chain takes at a lane is the low byte of the accumulator after that lane and the higher ones (R192). -/
theorem getElem?_finChain {lanes : List Word} {i : Nat} (hi : i < lanes.length) (a : Word) :
    (finChain lanes a).2[i]? = some (low8 (finChain (lanes.drop i) a).1) := by
  induction lanes generalizing i with
  | nil => cases hi
  | cons l rest ih =>
    cases i with
    | zero => rfl
    | succ i => exact ih (Nat.lt_of_succ_lt_succ hi)

/-- A sequence of accumulators that starts at the entry accumulator past the last lane and absorbs a lane at each index going down
ends at index 0 with the chain's accumulator (R192). -/
theorem finChain_fst_eq {lanes : List Word} {a : Nat → Word}
    (hchain : ∀ i l, lanes[i]? = some l → a i = absorb (a (i + 1)) l) : (finChain lanes (a lanes.length)).1 = a 0 := by
  induction lanes generalizing a with
  | nil => rfl
  | cons l rest ih =>
    have hrest : (finChain rest (a (rest.length + 1))).1 = a 1 := ih (a := fun k => a (k + 1)) fun i => hchain (i + 1)
    calc absorb (finChain rest (a (rest.length + 1))).1 l
      _ = absorb (a 1) l := by rw [hrest]
      _ = a 0 := (hchain 0 l rfl).symm

/-- The lanes `i` to `hs - 1` of a slot, in ascending order: the part of FIN2's chain that digest byte `i` comes from (R192). -/
def lanesFrom (hs i : Nat) (sl : Slot) : List Word := (sl.lanes.toList.take hs).drop i

theorem getElem?_lanesFrom (hs i k : Nat) (sl : Slot) :
    (lanesFrom hs i sl)[k]? = if i + k < hs then sl.lanes[i + k]? else none := by
  rw [lanesFrom, List.getElem?_drop, List.getElem?_take, Vector.getElem?_toList]

theorem length_lanesFrom {hs : Nat} (hhs : hs ≤ 32) (i : Nat) (sl : Slot) : (lanesFrom hs i sl).length = hs - i := by
  simp [lanesFrom, hhs]

/-- A digest byte of FIN2 below the number of lanes comes from the chain over its own lane and the higher ones (R192). -/
theorem getElem?_fin2Slot_dig {hs i : Nat} (hhs : hs ≤ 32) (hi : i < hs) (sl : Slot) :
    (fin2Slot hs sl).dig[i]? = some (low8 (finChain (lanesFrom hs i sl) sl.acc).1) := by
  have hbyte := getElem?_finChain (lanes := sl.lanes.toList.take hs) (i := i) (by simp [hhs, hi]) sl.acc
  have h32 : i < 32 := hi.trans_le hhs
  simp [fin2Slot, h32, hbyte, lanesFrom]

/-- Over the lanes from `i` up the chain's accumulator is the spec's `a i` (R192). -/
theorem finChain_lanesFrom {hs i : Nat} {sl : Slot} {a : Nat → Word} (hhs : hs ≤ 32) (hi : i ≤ hs) (hlast : a hs = sl.acc)
    (hchain : ∀ k l, k < hs → sl.lanes[k]? = some l → a k = absorb (a (k + 1)) l) :
    (finChain (lanesFrom hs i sl) sl.acc).1 = a i := by
  have hentry : a (i + (lanesFrom hs i sl).length) = sl.acc := by rw [length_lanesFrom hhs, Nat.add_sub_cancel' hi, hlast]
  rw [← hentry]
  refine finChain_fst_eq (a := fun k => a (i + k)) fun k l hl => ?_
  rw [getElem?_lanesFrom, Option.ite_none_right_eq_some] at hl
  exact hchain (i + k) l hl.1 hl.2

/-! ## FIN1 and FIN2 -/

/-- Settles O37: the word is FIN1's encoding, and the effect of FIN1 writes `fin1Digest` to the digest alone. -/
theorem fin1EmitsLowBytesOfLanes : Obligations.Fin1EmitsLowBytesOfLanes := by
  refine ⟨fun m hm => decodeDispatch_slotWord (uop := 5) rfl (decide_eq_true hm) rfl (by decide) hm,
    fun s m sl hsl hhash => ?_⟩
  obtain ⟨t, hexec, hframe, hslot⟩ := exec_of_slotEffect (i := .fin1 m) rfl hsl (if_pos hhash)
  refine ⟨t, _, hexec, hframe, hslot, rfl, fun i l hi hl => ?_,
    digestZeroFrom_iff.mp (digestZeroFrom_fin1Digest sl.lanes s.hashSize.toNat)⟩
  rw [getElem?_fin1Digest hi, hl, ← low8_eq_extractLsb']
  rfl

/-- Settles O38: the word is FIN2's encoding; digest byte `i` and the last accumulator come from the chain over the lanes from `i`
and from 0 up, which ends at `a i` and at `a 0`. -/
theorem fin2ChainsFromLastLaneToFirst : Obligations.Fin2ChainsFromLastLaneToFirst := by
  refine ⟨fun m hm => decodeDispatch_slotWord (uop := 6) rfl (decide_eq_true hm) rfl (by decide) hm,
    fun s m sl a hsl hhash hlast hchain => ?_⟩
  have hacc (i : Nat) (hi : i ≤ s.hashSize.toNat) : (finChain (lanesFrom s.hashSize.toNat i sl) sl.acc).1 = a i :=
    finChain_lanesFrom hhash hi hlast hchain
  obtain ⟨t, hexec, hframe, hslot⟩ := exec_of_slotEffect (i := .fin2 m) rfl hsl (if_pos hhash)
  refine ⟨t, _, hexec, hframe, hslot, ?_, fun i hi => ?_,
    digestZeroFrom_iff.mp (digestZeroFrom_fin2Slot s.hashSize.toNat sl)⟩
  · rw [← hacc 0 (Nat.zero_le _)]
    rfl
  · rw [getElem?_fin2Slot_dig hhash hi, hacc i hi.le, low8_eq_extractLsb']

/-! ## What a digest byte depends on -/

/-- When an operation has answered, its slot holds its effect on what the slot held before (R24). -/
theorem slotEffect_of_exec {i : Instr} {m : Nat} {s t : State} {sl sl' : Slot} (hslot : opSlot i = some m)
    (h : exec i s = .next t) (hsl : s.slots[m]? = some sl) (hsl' : t.slots[m]? = some sl') :
    slotEffect s i sl = .ok sl' := by
  rw [exec_eq_onSlot hslot] at h
  obtain ⟨x, x', hx, he, rfl⟩ := onSlot_next.mp h
  obtain rfl : x = sl := Option.some.inj (hx.symm.trans hsl)
  rw [getElem?_putSlot_advance hx, if_pos rfl] at hsl'
  rwa [← Option.some.inj hsl']

/-- A FIN1 that answers writes `fin1Digest` (R191). -/
theorem dig_of_exec_fin1 {m : Nat} {s t : State} {sl sl' : Slot} (h : exec (.fin1 m) s = .next t)
    (hsl : s.slots[m]? = some sl) (hsl' : t.slots[m]? = some sl') : sl'.dig = fin1Digest sl.lanes s.hashSize.toNat := by
  have he := slotEffect_of_exec rfl h hsl hsl'
  rw [slotEffect] at he
  split at he <;> cases he
  rfl

/-- A FIN2 that answers leaves `fin2Slot` in its slot, and HASHSIZE is at most 32 (R192). -/
theorem slot_of_exec_fin2 {m : Nat} {s t : State} {sl sl' : Slot} (h : exec (.fin2 m) s = .next t)
    (hsl : s.slots[m]? = some sl) (hsl' : t.slots[m]? = some sl') :
    s.hashSize.toNat ≤ 32 ∧ sl' = fin2Slot s.hashSize.toNat sl := by
  have he := slotEffect_of_exec rfl h hsl hsl'
  rw [slotEffect] at he
  split at he <;> cases he
  exact ⟨‹_›, rfl⟩

/-- Two slots with the same lanes from `i` up give FIN2 the same lanes to walk there. -/
theorem lanesFrom_congr {hs i : Nat} {x y : Slot} (h : ∀ j, i ≤ j → j < hs → x.lanes[j]? = y.lanes[j]?) :
    lanesFrom hs i x = lanesFrom hs i y := by
  refine List.ext_getElem? fun k => ?_
  rw [getElem?_lanesFrom, getElem?_lanesFrom]
  split_ifs with hk
  · exact h (i + k) (Nat.le_add_right i k) hk
  · rfl

/-- Settles O45: a byte of FIN2 comes from the chain over its own lane and the higher ones, a byte of FIN1 from its lane. -/
theorem digestByteDependsOnHigherLanesOnly : Obligations.DigestByteDependsOnHigherLanesOnly := by
  intro s u s' u' m i x y x' y' hhash hi hx hy hx' hy'
  refine ⟨fun hs hu hacc hlanes => ?_, fun hs hu hlane => ?_⟩
  · obtain ⟨hle, rfl⟩ := slot_of_exec_fin2 hs hx hx'
    obtain ⟨-, rfl⟩ := slot_of_exec_fin2 hu hy hy'
    rw [← hhash, getElem?_fin2Slot_dig hle hi, getElem?_fin2Slot_dig hle hi, hacc, lanesFrom_congr hlanes]
  · rw [dig_of_exec_fin1 hs hx hx', dig_of_exec_fin1 hu hy hy', ← hhash, getElem?_fin1Digest hi, getElem?_fin1Digest hi,
      hlane]

/-! ## END -/

/-- Settles O39: the word is END's encoding, and END is `finishRun`. -/
theorem endReturnsToReady : Obligations.EndReturnsToReady :=
  ⟨decodeOfEncodeIsTheInstruction .endRun rfl, fun _ => rfl⟩

end Sys2Proof.Proofs

/-!
Progress: a step without access (R216, R231), and that from every state of the invariant a step answers a next state, a run
active or not (R200, R206).
-/
namespace Sys2Proof.Proofs

open Sys2Proof.Machine Sys2Proof.Laws

/-! ## HOST's turn -/

/-- Settles O10: without an access HOST's turn keeps the state. -/
theorem idleStepKeepsTheState : Obligations.IdleStepKeepsTheState := by
  intro s hr hm hin
  rw [step_of_not_busy hr hm, hostStep, hin]

/-- Every value written to `CMD` is answered: a command answers always, an illegal word is refused (R95, R203). -/
theorem commandStep_answers (w : CmdWord) (s : State) : ∃ t, commandStep w s = .next t := by
  unfold commandStep
  split
  · next i hi => exact exec_command_answers (kind_of_decodeCommand hi) s
  · exact ⟨_, rfl⟩

/-- The host's next access, if no command, is answered if a table write that is let through has an address the table memory has
(R62, R126). -/
theorem hostAccess_answers {s : State} {a : Input} {rest : List Input} (hin : s.inputs = a :: rest)
    (h : hostInRange s = true) : ∃ t, hostAccess a { s with inputs := rest } = .next t := by
  cases a with
  | read | write | msgWrite => exact ⟨_, rfl⟩
  | tblWrite x b =>
    have hrange : tblLock s = true ∨ x.toNat < 2 ^ s.mapBitsMax.val := by simpa [hostInRange, hin] using h
    rw [hostAccess]
    split_ifs with hlock hx
    · exact ⟨_, rfl⟩
    · exact ⟨_, rfl⟩
    · exact absurd hrange (not_or.mpr ⟨hlock, hx⟩)

/-- So HOST's turn is answered, whether it is a command, another access or none. -/
theorem hostStep_answers {s : State} (h : hostInRange s = true) : ∃ t, hostStep s = .next t := by
  unfold hostStep
  split
  · exact ⟨s, rfl⟩
  · next a rest hin =>
    split
    · next w _ => exact commandStep_answers w _
    · exact hostAccess_answers hin h

/-! ## SEQ's turn -/

/-- Under a variant of R34 a dispatch sequence has an operation at every index up to END's (R171, R181). -/
theorem exists_opAt {k n : Nat} {variant : Word} (hv : variant = 1 ∨ variant = 2) (hk : k ≤ 100 * n) (base hs : Nat) :
    ∃ i, opAt base n hs variant k = some i := by
  have hlen : ((List.range n).map (base + ·)).length = n := by simp
  have hat : opAt base n hs variant k = (seqOver hs variant ((List.range n).map (base + ·)))[k]? :=
    opAt_eq_getElem?_seqOver hlen (fun m hm => by simp [hm]) hv
  have hlt : k < (seqOver hs variant ((List.range n).map (base + ·))).length := by
    rw [seqOver_eq, List.length_append, length_slotOps, hlen]
    exact Nat.lt_succ_of_le hk
  exact ⟨_, hat.trans (List.getElem?_eq_getElem hlt)⟩

/-- A run that was accepted has at its dispatch index END or an operation of one of its members (R24, R206). -/
theorem dispatchOp_of_runLegal {s : State} (hv : s.variant = 1 ∨ s.variant = 2) (h : runLegal s = true) :
    s.dispatchOp = some .endRun ∨
      ∃ i, ∃ m < s.members, s.dispatchOp = some i ∧ MemberOp s.hashSize.toNat (s.firstSlot + m) i := by
  obtain ⟨_, hdi, _, _⟩ := runLegal_iff.mp h
  rcases hdi.eq_or_lt with hend | hlt
  · exact .inl (by rw [State.dispatchOp, hend, opAt_end])
  · obtain ⟨i, hi⟩ := exists_opAt hv hdi s.firstSlot s.hashSize.toNat
    obtain ⟨m, hm, hop⟩ := memberOp_of_opAt hlt hi
    exact .inr ⟨i, m, hm, hi, hop⟩

/-- The members of a run that was accepted have good descriptors (R170, R180). -/
theorem descOk_member_of_runLegal {s : State} {m : Nat} {sl : Slot} (h : runLegal s = true) (hm : m < s.members)
    (hsl : s.slots[s.firstSlot + m]? = some sl) : descOk sl = true := by
  obtain ⟨_, _, _, hdesc⟩ := runLegal_iff.mp h
  exact all_descOk_take_iff.mp hdesc m sl hm (List.getElem?_drop.trans hsl)

/-- Under a valid configuration every operation of a slot with a good descriptor is legal (R102, R206). -/
theorem opLegal_of_memberOp {s : State} {k : Nat} {sl : Slot} {i : Instr} (hvalid : configValid s = true)
    (hsl : s.slots[k]? = some sl) (hd : descOk sl = true) (hop : MemberOp s.hashSize.toNat k i) :
    opLegal s i = true := by
  have hk : k < nslots s := lt_nslots_of_getElem? hsl
  obtain ⟨hpos, hhs, hfits⟩ := lanes_and_table_of_configValid hvalid
  cases hop with
  | init | fin1 | fin2 => simp [opLegal, hk, hhs]
  | prep => simp [opLegal, hk, hsl, hd]
  | fold4 => simp [opLegal, hk]
  | @step pos hpos32 =>
    have hlane : laneIndex pos s.hashSize.toNat < s.hashSize.toNat := Nat.mod_lt pos hpos
    have htable := tableFits_iff.mp hfits
    simpa [opLegal, hk, hlane, hlane.trans_le hhs, hpos32] using htable

/-- SEQ's turn executes the operation at the dispatch index, if its operands fit a dispatch word (R100, R172). -/
theorem sequencerStep_of_dispatchOp {s : State} {i : Instr} (hop : s.dispatchOp = some i) (hk : i.kind = .dispatch)
    (hwf : i.wellFormed = true) : sequencerStep s = exec i s := by
  have hword : s.dispatchWord = some (encode i) := congrArg (Option.map encode) hop
  have hdec : decode i.kind (encode i) = .ok i := decodeOfEncodeIsTheInstruction i hwf
  rw [hk, decode] at hdec
  simp only [sequencerStep, hword, hdec]

/-- SEQ's turn answers in every state of the invariant: the operation at the dispatch index is legal (R206). -/
theorem sequencerStep_answers {s : State} (h : Inv s) (hm : s.mode = .busy) : ∃ t, sequencerStep s = .next t := by
  have hvalid : configValid s = true := h.locked_valid (by simp [hm])
  have hrun : runLegal s = true := h.run_legal hm
  obtain ⟨_, _, _, _, hv, _⟩ := configValid_iff.mp hvalid
  rcases dispatchOp_of_runLegal hv hrun with hend | ⟨i, m, hlt, hi, hop⟩
  · rw [sequencerStep_of_dispatchOp hend rfl rfl]
    exact ⟨_, rfl⟩
  · obtain ⟨_, _, hfit, _⟩ := runLegal_iff.mp hrun
    have hmax : nslots s ≤ 256 := h.slots_max
    obtain ⟨sl, hsl⟩ := exists_slot (s := s) (m := s.firstSlot + m) (by omega)
    have hlegal : opLegal s i = true := opLegal_of_memberOp hvalid hsl (descOk_member_of_runLegal hrun hlt hsl) hop
    rw [sequencerStep_of_dispatchOp hi hop.kind_eq (hop.wellFormed (by omega))]
    exact (exec_answers_iff i s).mpr hlegal

/-! ## Every step -/

/-- A step with RESETN at 0 is a reset (R230). -/
theorem step_of_pin_low {s : State} {levels : List Bool} (hpin : s.resetn = false :: levels) :
    step s = .next { s.blockReset with resetn := levels } := by
  rw [step, hpin]

/-- Settles O51: a reset answers, HOST's turn does for a table write in range, and SEQ's operation is legal. -/
theorem nothingCanGoWrong : Obligations.NothingCanGoWrong := by
  intro s h hrange
  by_cases hr : running s = true
  · by_cases hm : s.mode = .busy
    · rw [step_of_busy hr hm]
      exact sequencerStep_answers (inv_withEnvironment h s.inputs s.answers s.resetn.tail) hm
    · rw [step_of_not_busy hr hm]
      exact hostStep_answers hrange
  · obtain ⟨rest, hpin⟩ : ∃ rest, s.resetn = false :: rest := List.head?_eq_some_iff.mp (by simpa [running] using hr)
    exact ⟨_, step_of_pin_low hpin⟩

end Sys2Proof.Proofs

/-!
Refusals: the fields of `ERR` (R37, R201, R202), what each command answers in each `STATE` (R204), and that a refused command changes
nothing but `ERR` (R203).
-/
namespace Sys2Proof.Proofs

open Sys2Proof.Machine Sys2Proof.Laws

/-! ## The fields of ERR -/

/-- The code stands in bits 7:0 of `ERR`, whatever the causes (R37, R201). -/
theorem extractLsb'_errWord (code : ErrCode) (cause : BitVec 8) :
    (errWord code cause).extractLsb' 0 8 = BitVec.ofNat 8 (codeNumber code) := by
  rw [← BitVec.toNat_inj, toNat_extractLsb'_word, toNat_errWord, BitVec.toNat_ofNat]
  omega

/-- Bit `b` of the causes is bit `8 + b` of `ERR` (R37, R202). -/
theorem getLsbD_errWord (code : ErrCode) (cause : BitVec 8) (b : Nat) :
    (errWord code cause).getLsbD (8 + b) = cause.getLsbD b := by
  have hcode : codeNumber code < 2 ^ 8 := by cases code <;> decide
  have hcause : (errWord code cause).toNat / 2 ^ 8 = cause.toNat := by
    rw [toNat_errWord]
    omega
  rw [Nat.add_comm, BitVec.getLsbD, Nat.testBit_add, hcause, BitVec.getLsbD]

/-- A legal value of `ERR` is its code alone, unless the code is `CFGINVALID` (R202). -/
theorem toNat_lt_of_errLegal {e : Word} (h : errLegal e = true) (hcode : e.extractLsb' 0 8 ≠ 1) : e.toNat < 256 := by
  rw [ne_eq, ← BitVec.toNat_inj, toNat_extractLsb'_word] at hcode
  have hne : e.toNat % 256 ≠ 1 := fun heq => hcode (by simp [heq])
  simp only [errLegal, if_neg hne, Bool.and_eq_true, decide_eq_true_eq] at h
  omega

/-- A refusal without causes writes the number of its code (R201). -/
theorem setErr_zero (s : State) (code : ErrCode) : s.setErr code 0 = { s with err := BitVec.ofNat 64 (codeNumber code) } := by
  have hword : errWord code 0 = BitVec.ofNat 64 (codeNumber code) := by cases code <;> decide
  rw [State.setErr, hword]

/-! ## The causes of CFGINVALID -/

/-- The bit of a check is set exactly when the check fails (R202). -/
theorem getLsbD_causeBit (holds : Bool) {b : Nat} (hb : b < 8) (c : Nat) :
    (causeBit holds b).getLsbD c = (!holds && decide (b = c)) := by
  cases holds with
  | true => exact BitVec.getLsbD_zero
  | false => exact (BitVec.getLsbD_twoPow b c).trans (by simp [hb])

/-- Bits 8 to 13 of `ERR` after a refused `CFGLOCK`: one for each check, set where it fails (R123, R202). -/
theorem getLsbD_errWord_cfgCause (s : State) :
    let e := errWord .cfgInvalid (cfgCause s)
    e.getLsbD 8 = !checkPow2 s ∧ e.getLsbD 9 = !checkCap s ∧ e.getLsbD 10 = !checkLen s ∧
      e.getLsbD 11 = !checkHashSize s ∧ e.getLsbD 12 = !checkVariant s ∧ e.getLsbD 13 = !checkLane s := by
  have bit (b : Nat) : (errWord .cfgInvalid (cfgCause s)).getLsbD (8 + b) =
      (!checkPow2 s && decide (0 = b) || !checkCap s && decide (1 = b) || !checkLen s && decide (2 = b) ||
        !checkHashSize s && decide (3 = b) || !checkVariant s && decide (4 = b) || !checkLane s && decide (5 = b)) := by
    rw [getLsbD_errWord]
    simp only [cfgCause, BitVec.getLsbD_or, getLsbD_causeBit, Nat.reduceLT]
  refine ⟨(bit 0).trans ?_, (bit 1).trans ?_, (bit 2).trans ?_, (bit 3).trans ?_, (bit 4).trans ?_, (bit 5).trans ?_⟩ <;>
    simp

/-! ## CFGLOCK refused -/

/-- While unlocked, `CFGLOCK` refuses an invalid configuration with all its failing checks (R123, R202). -/
theorem exec_cfglock_of_invalid {s : State} (hm : s.mode = .unconfig) (hv : configValid s = false) :
    exec .cfglock s = .next { s with err := errWord .cfgInvalid (cfgCause s) } := by
  have hcause : cfgCause s ≠ 0 := fun h => by simp [cfgCause_eq_zero_iff.mp h] at hv
  show execCfglock s = .next (s.setErr .cfgInvalid (cfgCause s))
  simp only [execCfglock, hm, if_neg hcause, raiseRefusal]

/-- A second `CFGLOCK` is refused (R123). -/
theorem exec_cfglock_of_ready {s : State} (hm : s.mode = .ready) : exec .cfglock s = .next { s with err := 6 } := by
  have hrefused : s.setErr .locked 0 = { s with err := 6 } := setErr_zero s .locked
  rw [← hrefused]
  show execCfglock s = _
  simp only [execCfglock, hm, raiseRefusal]

/-- Settles O23: some check fails, and the bits of `ERR` are those of the failing checks. -/
theorem cfglockReportsEveryFailingCheck : Obligations.CfglockReportsEveryFailingCheck := by
  intro s hm hfail
  have hv : configValid s = false := by
    rw [← Bool.not_eq_true, configValid_iff]
    rintro ⟨hpow, hcap, hlen, hhs, hvar, hlane⟩
    rcases hfail with h | h | h | h | ⟨h1, h2⟩ | ⟨h2, h⟩
    · exact h hpow
    · exact h.not_ge hcap
    · exact h hlen
    · exact h hhs
    · exact hvar.elim h1 h2
    · exact h (hlane h2)
  obtain ⟨hpow, hcap, hlen, hhs, hvar, hlane⟩ := getLsbD_errWord_cfgCause s
  refine ⟨errWord .cfgInvalid (cfgCause s), exec_cfglock_of_invalid hm hv, extractLsb'_errWord _ _, ?_, ?_, ?_, ?_, ?_, ?_, ?_⟩
  · rw [hpow, Bool.not_eq_true', ← Bool.not_eq_true, checkPow2_iff]
  · rw [hcap]
    simp [checkCap]
  · rw [hlen]
    simp [checkLen]
  · rw [hhs, Bool.not_eq_true', ← Bool.not_eq_true, checkHashSize_iff]
  · rw [hvar]
    simp [checkVariant]
  · rw [hlane]
    simp [checkLane]
  · have hlt : (cfgCause s).toNat < 64 := cfgCause_lt
    rw [toNat_errWord, codeNumber]
    omega

/-! ## Every refusal -/

/-- Settles O29: a command's effect is an outcome in `ERR` alone, or it leaves `ERR` 0. -/
theorem refusalChangesOnlyErr : Obligations.RefusalChangesOnlyErr := by
  intro i s hk
  obtain ⟨t, ht⟩ := exec_command_answers hk s
  have accepted (h : t.err = 0) : errLegal t.err = true ∧ (t.err ≠ 0 → t = { s with err := t.err }) :=
    ⟨by rw [h]; decide, fun hne => absurd h hne⟩
  obtain ⟨hlegal, hkept⟩ : errLegal t.err = true ∧ (t.err ≠ 0 → t = { s with err := t.err }) := by
    cases commandEffect_of_exec hk ht with
    | outcome legal => exact ⟨legal, fun _ => rfl⟩
    | reset => exact accepted rfl
    | lock | single | batch => exact accepted errWord_ok
  exact ⟨t, ht, hlegal, hkept, toNat_lt_of_errLegal hlegal⟩

/-! ## The commands that hash -/

/-- `HASH` and `BATCH` need a locked configuration (R170, R180). -/
theorem exec_hash_batch_of_unconfig {s : State} (hm : s.mode = .unconfig) (n : Nat) :
    exec (.hash n) s = .next { s with err := 2 } ∧ exec (.batch n) s = .next { s with err := 2 } := by
  have hready : s.mode ≠ .ready := by simp [hm]
  have hrefused : raiseRefusal .notReady 0 s = .next { s with err := 2 } := congrArg Host.Outcome.next (setErr_zero s .notReady)
  exact ⟨(if_neg hready).trans hrefused, (if_neg hready).trans hrefused⟩

/-- `HASH` of a slot the block does not have (R170). -/
theorem exec_hash_of_badSlot {s : State} {slot : Nat} (hm : s.mode = .ready) (hslot : nslots s ≤ slot) :
    exec (.hash slot) s = .next { s with err := 4 } := by
  show execHash slot s = _
  simp only [execHash, if_pos hm, List.getElem?_eq_none hslot, raiseRefusal, setErr_zero]
  rfl

/-- `HASH` of a slot whose descriptor passes 2^64 (R170). -/
theorem exec_hash_of_badDesc {s : State} {slot : Nat} {sl : Slot} (hm : s.mode = .ready) (hsl : s.slots[slot]? = some sl)
    (hd : ¬ descOk sl = true) : exec (.hash slot) s = .next { s with err := 5 } := by
  show execHash slot s = _
  simp only [execHash, if_pos hm, hsl, if_neg hd, raiseRefusal, setErr_zero]
  rfl

/-- `BATCH` of more slots than the block has (R180). -/
theorem exec_batch_of_badSlot {s : State} {n : Nat} (hm : s.mode = .ready) (hn : nslots s < n) :
    exec (.batch n) s = .next { s with err := 4 } := by
  show execBatch n s = _
  rw [execBatch, if_pos hm, if_neg hn.not_ge, raiseRefusal, setErr_zero]
  rfl

/-- `BATCH` of slots one of which has a descriptor that passes 2^64 (R180). -/
theorem exec_batch_of_badDesc {s : State} {n m : Nat} {sl : Slot} (hm : s.mode = .ready) (hn : n ≤ nslots s) (hmn : m < n)
    (hsl : s.slots[m]? = some sl) (hd : ¬ descOk sl = true) : exec (.batch n) s = .next { s with err := 5 } := by
  have hall : ¬ (s.slots.take n).all descOk = true := fun h => hd (all_descOk_take_iff.mp h m sl hmn hsl)
  show execBatch n s = _
  rw [execBatch, if_pos hm, if_pos hn, if_neg hall, raiseRefusal, setErr_zero]
  rfl

/-- Settles O28: each row of the table is a case of its command. -/
theorem acceptanceByState : Obligations.AcceptanceByState := by
  have passes {sl : Slot} (h : 2 ^ 64 < sl.msgAddr.toNat + sl.msgLen.toNat) : ¬ descOk sl = true := by
    rw [descOk, decide_eq_true_eq]
    exact h.not_ge
  refine ⟨fun s t hr hm h => (hostAccessesWaitDuringRun s t hr hm h).1, illegalCommandWordsAreRefused.2, fun s _ => ?_⟩
  refine ⟨⟨_, rfl, errWord_ok⟩, ⟨_, rfl, rfl⟩, execCfglock_of_valid, fun hm hv => ?_, exec_cfglock_of_ready,
    exec_hash_batch_of_unconfig, fun hm _ => exec_hash_of_badSlot hm,
    fun hm _ _ hsl hd => exec_hash_of_badDesc hm hsl (passes hd), fun hm slot sl hsl hd => ?_,
    fun hm _ => exec_batch_of_badSlot hm, fun hm _ _ _ hn hmn hsl hd => exec_batch_of_badDesc hm hn hmn hsl (passes hd),
    fun hm n hn hd => ?_⟩
  · exact ⟨_, exec_cfglock_of_invalid hm hv, extractLsb'_errWord _ _⟩
  · exact ⟨_, hashIsAccepted s slot sl hm hsl hd, rfl, rfl⟩
  · exact ⟨_, batchIsAccepted s n hm hn hd, rfl, rfl⟩

end Sys2Proof.Proofs

/-!
Reset by the pin (R230), and the end of every run (R176, R187, R241, R250).
-/
namespace Sys2Proof.Proofs

open Sys2Proof.Machine Sys2Proof.Laws

/-- Settles O6: such a step is the reset of the block, its RESETN levels moved on by one. -/
theorem resetPinResetsEveryState : Obligations.ResetPinResetsEveryState := by
  intro s rest hpin
  obtain ⟨hslots, hbits, htable, hmessage, hinputs, hanswers⟩ := sameOutside_blockReset s
  exact ⟨_, step_of_pin_low hpin, resetValues_blockReset { s with resetn := rest },
    ⟨hslots, hbits, htable, hmessage, hinputs, hanswers⟩, rfl⟩

/-! ## The rest of a run -/

/-- Before its last index a run has an operation of one of its members, which is answered and touches only that member's slot
(R44, R171, R181). -/
theorem step_of_run_before_end {s : State} (h : Inv s) (hm : s.mode = .busy) (hr : s.resetn = [])
    (hlt : s.di.toNat < 100 * s.members) : ∃ (t : State) (m : Nat), step s = .next t ∧ SlotFrame m s t := by
  obtain ⟨_, _, _, _, hv, _⟩ := configValid_iff.mp (h.locked_valid (by simp [hm]))
  obtain ⟨_, _, hfit, _⟩ := runLegal_iff.mp (h.run_legal hm)
  have hmax : nslots s ≤ 256 := h.slots_max
  obtain ⟨i, hi⟩ := exists_opAt hv hlt.le s.firstSlot s.hashSize.toNat
  obtain ⟨m, hmember, hop⟩ := memberOp_of_opAt hlt hi
  have hwf : i.wellFormed = true := hop.wellFormed (by omega)
  obtain ⟨t, ht⟩ := sequencerStep_answers h hm
  rw [sequencerStep_of_dispatchOp hi hop.kind_eq hwf] at ht
  exact ⟨t, _, (step_of_dispatchOp hr hm hi hop.kind_eq hwf).trans ht,
    operationsTouchOnlyTheirSlot i _ s t hop.opSlot_eq ht⟩

/-- At its last index a run executes END (R171, R181, R193). -/
theorem step_of_run_at_end {s : State} (hm : s.mode = .busy) (hr : s.resetn = [])
    (hend : s.di.toNat = 100 * s.members) : step s = .next s.finishRun := by
  have hop : s.dispatchOp = some .endRun := by rw [State.dispatchOp, hend, opAt_end]
  exact step_of_dispatchOp hr hm hop rfl rfl

/-- With `k` operations left before END, a run of the invariant ends after `k + 1` steps, and they change nothing but the slots and
what END writes: by induction on `k`, since an operation on a slot keeps the invariant, the run and the host's side (R172). -/
theorem runSteps_rest_of_run {k : Nat} {s : State} (h : Inv s) (hm : s.mode = .busy) (hr : s.resetn = [])
    (hk : s.di.toNat + k = 100 * s.members) :
    ∃ slots : List Slot, runSteps (k + 1) s = .next { s with slots := slots }.finishRun := by
  induction k generalizing s with
  | zero => exact ⟨s.slots, runSteps_succ (step_of_run_at_end hm hr hk) 0⟩
  | succ k ih =>
    obtain ⟨t, m, hstep, hframe⟩ := step_of_run_before_end h hm hr (by omega)
    have hinv : Inv t := everyStepKeepsTheInvariant s t h hstep
    obtain ⟨_, _, hfit, _⟩ := runLegal_iff.mp (h.run_legal hm)
    have hmax : nslots s ≤ 256 := h.slots_max
    have hnext : (s.di + 1).toNat = s.di.toNat + 1 := BitVec.toNat_add_of_lt (show s.di.toNat + 1 < 2 ^ 15 by omega)
    obtain ⟨_, rfl⟩ : ∃ slots : List Slot, t = { s with slots := slots, di := s.di + 1 } := ⟨_, hframe.rest⟩
    obtain ⟨slots, hslots⟩ := ih hinv hm hr (show (s.di + 1).toNat + k = 100 * s.members by omega)
    exact ⟨slots, (runSteps_succ hstep (k + 1)).trans hslots⟩

/-- Settles O52: the operations that are left, of which none but END writes anything outside the slots and `di`, and `ERR` is 0 in a
run. -/
theorem everyRunEnds : Obligations.EveryRunEnds := by
  intro s h hm hr
  obtain ⟨herr, hdi, _, _⟩ := runLegal_iff.mp (h.run_legal hm)
  obtain ⟨slots, hrun⟩ := runSteps_rest_of_run (k := 100 * s.members - s.di.toNat) h hm hr (by omega)
  rw [← Nat.sub_add_comm hdi] at hrun
  exact ⟨_, hrun, rfl, rfl, herr, rfl, rfl⟩

end Sys2Proof.Proofs
